-- ==== Sys2Proof/Word.lean ====
section
/-! DEFINITION. The words of the block: its storage unit, its command and response words and the mask of low bits. -/

namespace Sys2Proof

/-- One storage unit: exactly 8 bits (00_scope.md R6). -/
abbrev Byte := BitVec 8

/-- A descriptor value, VAL_W = 32 bits (R6); also the V and DATA fields (30_encoding.md R91, R92). -/
abbrev Val := BitVec 32

/-- A command word (30_encoding.md R90, R91). -/
abbrev CmdWord := BitVec 64

/-- A response word (30_encoding.md R90, R92). -/
abbrev RspWord := BitVec 64

/-- `(1 << n) - 1`, the mask of the low `n` bits, at the width of a value (00_scope.md R12). -/
def lowMask (n : Nat) : Val := BitVec.ofNat 32 ((1 <<< n) - 1)

end Sys2Proof
end

