-- ==== Sys2Proof/Config.lean ====
section
/-! DEFINITION. What an implementation fixes (the parameters of 00_scope.md R7) and the values the spec leaves
free (93_implementation_defined.md U5). -/

namespace Sys2Proof.Config

/-- `1 <= DESC_MAX <= 16383` (R7). -/
abbrev descMaxOk (descMax : Nat) : Prop := 1 ≤ descMax ∧ descMax ≤ 16383

/-- `4 * DESC_MAX <= BUF_UNITS <= 65535` (R7). -/
abbrev bufUnitsOk (descMax bufUnits : Nat) : Prop := 4 * descMax ≤ bufUnits ∧ bufUnits ≤ 65535

/-- `1 <= T_W <= 32` (R7). -/
abbrev tWOk (tW : Nat) : Prop := 1 ≤ tW ∧ tW ≤ 32

/-- The open parameters of R7. "The model takes each one as an argument, and it must check the constraints": a
value of this type cannot be built where one of them fails. -/
structure Params where
  /-- DESC_MAX, the descriptor table's capacity in entries. -/
  descMax : Nat
  /-- BUF_UNITS, the capacity of the packed buffer and of the unpacker's buffer in units. -/
  bufUnits : Nat
  /-- T_W, the width of the classifier's decoded value in bits. -/
  tW : Nat
  descMax_ok : descMaxOk descMax
  bufUnits_ok : bufUnitsOk descMax bufUnits
  tW_ok : tWOk tW
  deriving DecidableEq, Repr

/-- `PAT_MAX = 8 * BUF_UNITS`, the longest pattern in bits (R7, 10_state.md R32). -/
def Params.patMax (p : Params) : Nat := 8 * p.bufUnits

/-- DESIGN CHOICE (notes/assumptions/1.md; unsafe only for a claim about `State.reset` itself): the parameters of the
model's own reset state are those of 95_test_vectors.md, DESC_MAX = 16, BUF_UNITS = 64, T_W = 8. Every claim
quantifies over states, and so over every `Params`. -/
def params : Params where
  descMax := 16
  bufUnits := 64
  tW := 8
  descMax_ok := by decide
  bufUnits_ok := by decide
  tW_ok := by decide

/-! The free values of FAULT_BOUNDS (93_implementation_defined.md U5, "any value"; notes/assumptions/10.md; safe:
nothing can be proved of their values). The first argument is the State counter `freeSeq`, the second an index. -/

/-- U5: unit `i` of BUF after FAULT_BOUNDS. -/
opaque freeBufUnit : Nat → Nat → Byte
/-- U5: the width of entry `i` of DESC after FAULT_BOUNDS. -/
opaque freeDescW : Nat → Nat → BitVec 6
/-- U5: the value of entry `i` of DESC after FAULT_BOUNDS. -/
opaque freeDescV : Nat → Nat → Val
/-- U5: BLEN after FAULT_BOUNDS. -/
opaque freeBLen : Nat → BitVec 16
/-- U5: PBITS after FAULT_BOUNDS. -/
opaque freePBits : Nat → BitVec 32
/-- U5: PCUR_UNIT after FAULT_BOUNDS. -/
opaque freePCurUnit : Nat → BitVec 16
/-- U5: PCUR_OFF after FAULT_BOUNDS. -/
opaque freePCurOff : Nat → BitVec 3
/-- U5: DCOUNT after FAULT_BOUNDS. -/
opaque freeDCount : Nat → BitVec 14

end Sys2Proof.Config
end

