-- ==== Sys2Proof/Syntax.lean ====
section
/-! DEFINITION. The fourteen commands (30_encoding.md R93) with their operands (R96), and the names of the
host-visible registers (10_state.md R35). -/

namespace Sys2Proof

/-- One command of the opcode map (30_encoding.md R93). An operand is its field of the command word, whole (R96). -/
inductive Instr where
  /-- NOP (44_control.md R250). -/
  | nop
  /-- CLR (44_control.md R251). -/
  | clr
  /-- RDREG r (44_control.md R252): `r` is field A, a register number. -/
  | rdreg (r : BitVec 8)
  /-- DPUSH w, v (40_descriptor.md R131): `w` is field A, `v` is field V. -/
  | dpush (w : BitVec 8) (v : Val)
  /-- TBEGIN (40_descriptor.md R132). -/
  | tbegin
  /-- TCHAR c (40_descriptor.md R133): `c` is field A, a character code. -/
  | tchar (c : BitVec 8)
  /-- TEND (40_descriptor.md R134). -/
  | tend
  /-- DRD idx (40_descriptor.md R135): `idx` is field B. -/
  | drd (idx : BitVec 16)
  /-- PACK (41_packer.md R161). -/
  | pack
  /-- BUFRD idx (42_buffer.md R191): `idx` is field B. -/
  | bufrd (idx : BitVec 16)
  /-- BUFWR idx, u (42_buffer.md R192): `idx` is field B, `u` is V[7:0]. -/
  | bufwr (idx : BitVec 16) (u : Byte)
  /-- SETLEN n (42_buffer.md R193): `n` is field B. -/
  | setlen (n : BitVec 16)
  /-- UOPEN (43_unpacker.md R212). -/
  | uopen
  /-- UNEXT (43_unpacker.md R213). -/
  | unext
  deriving DecidableEq, Repr

/-- The mnemonic of a command, as 30_encoding.md R93 and spec/opcode_table.json spell it. -/
def Instr.mnemonic : Instr → String
  | .nop => "NOP"
  | .clr => "CLR"
  | .rdreg _ => "RDREG"
  | .dpush _ _ => "DPUSH"
  | .tbegin => "TBEGIN"
  | .tchar _ => "TCHAR"
  | .tend => "TEND"
  | .drd _ => "DRD"
  | .pack => "PACK"
  | .bufrd _ => "BUFRD"
  | .bufwr _ _ => "BUFWR"
  | .setlen _ => "SETLEN"
  | .uopen => "UOPEN"
  | .unext => "UNEXT"

/-- The host-visible registers (10_state.md R35), in the order of their numbers 0x00 to 0x13. -/
inductive Reg where
  | status | lastErr | faultCode | dCount | bLen | pBits | pCurUnit | pCurOff | tLen | tVal
  | uLen | uCurUnit | uCurOff | patLen | patLo | uDiscard | uCount | cfgDescMax | cfgBufUnits | cfgTW
  deriving DecidableEq, Repr

end Sys2Proof
end

