-- ==== Sys2Proof/WellFormed.lean ====
section
/-! DEFINITION. What is checked before the machine runs: the parameters (00_scope.md R7) and the commands. -/

namespace Sys2Proof

/-- R7: "it must check the constraints". The parameters as plain numbers, checked once; `none` where one fails. -/
def Config.Params.check (descMax bufUnits tW : Nat) : Option Config.Params :=
  if hd : Config.descMaxOk descMax then
    if hb : Config.bufUnitsOk descMax bufUnits then
      if ht : Config.tWOk tW then some ⟨descMax, bufUnits, tW, hd, hb, ht⟩ else none
    else none
  else none

/-- Is a command one that the host can encode? Each operand's type is its field of the command word (30_encoding.md
R96), and "a value of a used field is never an illegal encoding by itself" (R95), so no constructor has a check that
could fail: every term is well formed. -/
def Instr.wellFormed : Instr → Bool
  | .nop => true
  | .clr => true
  | .rdreg _ => true
  | .dpush _ _ => true
  | .tbegin => true
  | .tchar _ => true
  | .tend => true
  | .drd _ => true
  | .pack => true
  | .bufrd _ => true
  | .bufwr _ _ => true
  | .setlen _ => true
  | .uopen => true
  | .unext => true

end Sys2Proof
end

