-- ==== Sys2Proof/Decode.lean ====
section
/-! DEFINITION. The decoder, total on every 64-bit word (30_encoding.md R97), the opcode table as R94 prints it, and
the encoder (R91, R98). -/

namespace Sys2Proof

/-- Field OP, bits 63:56 of a command word (30_encoding.md R91). -/
def fieldOp (w : CmdWord) : BitVec 8 := w.extractLsb' 56 8
/-- Field A, bits 55:48 (R91). -/
def fieldA (w : CmdWord) : BitVec 8 := w.extractLsb' 48 8
/-- Field B, bits 47:32 (R91). -/
def fieldB (w : CmdWord) : BitVec 16 := w.extractLsb' 32 16
/-- Field V, bits 31:0 (R91). -/
def fieldV (w : CmdWord) : Val := w.extractLsb' 0 32
/-- V[31:8], the part of V that BUFWR does not use (R94). -/
def fieldVHigh (w : CmdWord) : BitVec 24 := w.extractLsb' 8 24
/-- V[7:0], the part of V that BUFWR uses (R93). -/
def fieldVLow (w : CmdWord) : Byte := w.extractLsb' 0 8

/-- Why a word does not decode (30_encoding.md R94, R95). -/
inductive DecodeError where
  /-- OP is one of the 242 undefined values (R95). -/
  | undefinedOpcode
  /-- A field the opcode does not use is not zero (R94). -/
  | reservedNotZero
  deriving DecidableEq, Repr

/-- The command `i` if its reserved-zero fields are zero (R94). -/
def needZero (reservedZero : Bool) (i : Instr) : Except DecodeError Instr :=
  if reservedZero then .ok i else .error .reservedNotZero

/-- Decoding (R97): the opcode map of R93 with the reserved-zero fields of R94. -/
def decode (w : CmdWord) : Except DecodeError Instr :=
  let a := fieldA w
  let b := fieldB w
  let v := fieldV w
  match (fieldOp w).toNat with
  | 0x00 => needZero (a == 0 && b == 0 && v == 0) .nop
  | 0x01 => needZero (a == 0 && b == 0 && v == 0) .clr
  | 0x02 => needZero (b == 0 && v == 0) (.rdreg a)
  | 0x10 => needZero (b == 0) (.dpush a v)
  | 0x11 => needZero (a == 0 && b == 0 && v == 0) .tbegin
  | 0x12 => needZero (b == 0 && v == 0) (.tchar a)
  | 0x13 => needZero (a == 0 && b == 0 && v == 0) .tend
  | 0x14 => needZero (a == 0 && v == 0) (.drd b)
  | 0x20 => needZero (a == 0 && b == 0 && v == 0) .pack
  | 0x30 => needZero (a == 0 && v == 0) (.bufrd b)
  | 0x31 => needZero (a == 0 && fieldVHigh w == 0) (.bufwr b (fieldVLow w))
  | 0x32 => needZero (a == 0 && v == 0) (.setlen b)
  | 0x40 => needZero (a == 0 && b == 0 && v == 0) .uopen
  | 0x41 => needZero (a == 0 && b == 0 && v == 0) .unext
  | _ => .error .undefinedOpcode

/-- One row of the table of R94: "A word decodes as that row's command exactly when `(word AND mask) = match`". -/
structure OpRow where
  mnemonic : String
  mask : CmdWord
  pattern : CmdWord
  deriving DecidableEq, Repr

/-- The table of R94, row by row. -/
def opcodeTable : List OpRow := [
  ⟨"NOP",    0xFFFFFFFFFFFFFFFF, 0x0000000000000000⟩,
  ⟨"CLR",    0xFFFFFFFFFFFFFFFF, 0x0100000000000000⟩,
  ⟨"RDREG",  0xFF00FFFFFFFFFFFF, 0x0200000000000000⟩,
  ⟨"DPUSH",  0xFF00FFFF00000000, 0x1000000000000000⟩,
  ⟨"TBEGIN", 0xFFFFFFFFFFFFFFFF, 0x1100000000000000⟩,
  ⟨"TCHAR",  0xFF00FFFFFFFFFFFF, 0x1200000000000000⟩,
  ⟨"TEND",   0xFFFFFFFFFFFFFFFF, 0x1300000000000000⟩,
  ⟨"DRD",    0xFFFF0000FFFFFFFF, 0x1400000000000000⟩,
  ⟨"PACK",   0xFFFFFFFFFFFFFFFF, 0x2000000000000000⟩,
  ⟨"BUFRD",  0xFFFF0000FFFFFFFF, 0x3000000000000000⟩,
  ⟨"BUFWR",  0xFFFF0000FFFFFF00, 0x3100000000000000⟩,
  ⟨"SETLEN", 0xFFFF0000FFFFFFFF, 0x3200000000000000⟩,
  ⟨"UOPEN",  0xFFFFFFFFFFFFFFFF, 0x4000000000000000⟩,
  ⟨"UNEXT",  0xFFFFFFFFFFFFFFFF, 0x4100000000000000⟩ ]

/-- The word OP A B V (30_encoding.md R91). -/
def cmdWord (op a : BitVec 8) (b : BitVec 16) (v : Val) : CmdWord := op ++ a ++ b ++ v

/-- Encoding (R91, R98): the word of a command, its unused fields zero. -/
def encode : Instr → CmdWord
  | .nop => cmdWord 0x00 0 0 0
  | .clr => cmdWord 0x01 0 0 0
  | .rdreg r => cmdWord 0x02 r 0 0
  | .dpush w v => cmdWord 0x10 w 0 v
  | .tbegin => cmdWord 0x11 0 0 0
  | .tchar c => cmdWord 0x12 c 0 0
  | .tend => cmdWord 0x13 0 0 0
  | .drd idx => cmdWord 0x14 0 idx 0
  | .pack => cmdWord 0x20 0 0 0
  | .bufrd idx => cmdWord 0x30 0 idx 0
  | .bufwr idx u => cmdWord 0x31 0 idx (u.setWidth 32)
  | .setlen n => cmdWord 0x32 0 n 0
  | .uopen => cmdWord 0x40 0 0 0
  | .unext => cmdWord 0x41 0 0 0

/-- The command word whose low `nbits` bits are those of `w` and whose other bits are 0. A command is one 64-bit
word (R90), taken whole: "No byte order applies to the words" (20_memory.md R65). -/
def wordOfBits (nbits w : Nat) : CmdWord := BitVec.ofNat 64 (w % 2 ^ nbits)

/-- The command that the decoder reads from the word of `wordOfBits`; `none` where it does not decode. -/
def decodeTableWord (nbits w : Nat) : Option Instr := (decode (wordOfBits nbits w)).toOption

end Sys2Proof
end

