-- ==== Sys2Proof/Machine/State.lean ====
section
/-! DEFINITION. The state of the block (10_state.md R21-R38) with its two ports, the reasons a step can stop, and
reset (R37). State is plain data. -/

namespace Sys2Proof.Machine

/-- A Field Descriptor (40_descriptor.md R130, 10_state.md R24): `w` is bit_width, 0 to 32; `v` is the value. -/
structure Desc where
  w : BitVec 6
  v : Val
  deriving DecidableEq, Repr

/-- What an entry that holds no descriptor has: (0, 0) (R24). -/
def Desc.zero : Desc := ⟨0, 0⟩

/-- BUF or UBUF (10_state.md R27, R29): the units that are not 0, by rising index. A unit not listed holds 0, its
reset value (R37). -/
abbrev Memory := List Host.Cell

/-- DESC (R24): the entries that are not (0, 0), by rising index. An entry not listed holds (0, 0), its reset value. -/
abbrev DescTable := List (Nat × Desc)

/-- The canonical form of a sparse memory whose unlisted indices hold `d`: indices strictly rising, `d` never listed. -/
def sparseWf {α : Type} [DecidableEq α] (d : α) : List (Nat × α) → Bool
  | [] => true
  | (i, x) :: rest => decide (x ≠ d) && rest.all (fun c => decide (i < c.1)) && sparseWf d rest

/-- The canonical form of BUF and UBUF. -/
def Memory.wf (m : Memory) : Bool := sparseWf (0 : Byte) m

/-- The canonical form of DESC. -/
def DescTable.wf (t : DescTable) : Bool := sparseWf Desc.zero t

/-- The unpacker's two states (R30): USTATE = 0 is Exhausted, USTATE = 1 is Scanning. -/
inductive UState where
  | exhausted
  | scanning
  deriving DecidableEq, Repr

/-- How a command ended (60_exceptions.md R271); its code is `Status.code`. -/
inductive Status where
  | ok | endOfSeq | errIllegal | errMalformed | errCapacity | errRange | errSeq | faultWidth | faultBounds | faulted
  deriving DecidableEq, Repr

/-- What the host does next at the block's inputs (00_scope.md R5, 70_reset_and_hazards.md R300). -/
inductive HostEvent where
  /-- The host presents a command word on the command port. -/
  | command (w : CmdWord)
  /-- The reset input RST is asserted and released. -/
  | reset
  deriving DecidableEq, Repr

/-- The command port (30_encoding.md R90). DESIGN CHOICE, notes/assumptions/2.md (safe): the host's stream is data. -/
structure HostPort where
  /-- What the host will present, in order. -/
  input : List HostEvent
  /-- The response words the host has received, oldest first. -/
  output : List RspWord
  deriving DecidableEq, Repr

/-- One request on the classifier port (43_unpacker.md R210): the pattern's length and its value. -/
structure ClsQuery where
  len : BitVec 20
  val : Nat
  deriving DecidableEq, Repr

/-- One response on the classifier port (R210): `match` and `t`; `t` is ignored when `isMatch` is false. -/
structure ClsAnswer where
  isMatch : Bool
  t : Val
  deriving DecidableEq, Repr

/-- The classifier port (R210). DESIGN CHOICE, notes/assumptions/4.md (safe): the answers are data, and a claim
holds for every list of them; where the list ends, the classifier is silent (70_reset_and_hazards.md R305). -/
structure ClsPort where
  /-- The answers the classifier will give, in the order of the queries. -/
  answers : List ClsAnswer
  /-- The queries the block has made, oldest first. -/
  queries : List ClsQuery
  /-- The query that has no answer yet: while there is one, a UNEXT is in progress (R305). -/
  pending : Option ClsQuery
  deriving DecidableEq, Repr

/-- The block's state (10_state.md R21), its parameters (R34), its two ports, and the model's own `freeSeq`. -/
structure State where
  /-- CFG_DESC_MAX, CFG_BUF_UNITS, CFG_T_W (R34): constant, no step changes them (notes/assumptions/1.md). -/
  cfg : Config.Params
  /-- FAULT (R22). -/
  fault : Bool
  /-- FAULTCODE (R22). -/
  faultCode : BitVec 8
  /-- LASTERR (R23). -/
  lastErr : BitVec 8
  /-- DESC (R24). -/
  desc : DescTable
  /-- DCOUNT (R24). -/
  dCount : BitVec 14
  /-- TACT (R26). -/
  tAct : Bool
  /-- TLEN (R26). -/
  tLen : BitVec 6
  /-- TVAL (R26). -/
  tVal : Val
  /-- TBAD (R26). -/
  tBad : Bool
  /-- TOVER (R26). -/
  tOver : Bool
  /-- BUF (R27). -/
  buf : Memory
  /-- BLEN (R27). -/
  bLen : BitVec 16
  /-- PBITS (R28). -/
  pBits : BitVec 32
  /-- PCUR_UNIT (R28). -/
  pCurUnit : BitVec 16
  /-- PCUR_OFF (R28). -/
  pCurOff : BitVec 3
  /-- UBUF (R29). -/
  uBuf : Memory
  /-- ULEN (R29). -/
  uLen : BitVec 16
  /-- USTATE (R30). -/
  uState : UState
  /-- UCUR_UNIT (R31). -/
  uCurUnit : BitVec 16
  /-- UCUR_OFF (R31). -/
  uCurOff : BitVec 3
  /-- PAT_LEN (R32). -/
  patLen : BitVec 20
  /-- PAT_VAL (R32): `PAT_MAX` bits, a width that depends on BUF_UNITS, so a Nat (notes/assumptions/8.md). -/
  patVal : Nat
  /-- UDISCARD (R33). -/
  uDiscard : BitVec 20
  /-- UCOUNT (R33). -/
  uCount : BitVec 20
  /-- The command port (30_encoding.md R90). -/
  host : HostPort
  /-- The classifier port (43_unpacker.md R210). -/
  cls : ClsPort
  /-- The model's own: how many times the free values of FAULT_BOUNDS were used (notes/assumptions/10.md). -/
  freeSeq : Nat
  deriving DecidableEq, Repr

/-- Why a step could stop the machine. No constructor: every command of this block ends in a response and a next
state (60_exceptions.md R270); a contract violation is the FAULT bit of a next state (R273), and a silent classifier
leaves the block waiting (70_reset_and_hazards.md R305). Safe: nobody raises one (notes/assumptions/15.md). -/
inductive Fault
  deriving DecidableEq, Repr

/-- Why a step could refuse an instruction. -/
inductive Refusal where
  /-- Raised by an arm of `exec` that has no meaning yet. Safe. No arm raises it: all fourteen have a meaning. -/
  | notModelled (mnemonic : String)
  deriving DecidableEq, Repr

/-- The state after RST of a block with parameters `p` (10_state.md R37), nothing presented on its ports. -/
def State.resetWith (p : Config.Params) : State where
  cfg := p
  fault := false
  faultCode := 0
  lastErr := 0
  desc := []
  dCount := 0
  tAct := false
  tLen := 0
  tVal := 0
  tBad := false
  tOver := false
  buf := []
  bLen := 0
  pBits := 0
  pCurUnit := 0
  pCurOff := 0
  uBuf := []
  uLen := 0
  uState := .exhausted
  uCurUnit := 0
  uCurOff := 0
  patLen := 0
  patVal := 0
  uDiscard := 0
  uCount := 0
  host := ⟨[], []⟩
  cls := ⟨[], [], none⟩
  freeSeq := 0

/-- The machine right after reset (R37), at the parameters of `Config.params`. -/
def State.reset : State := State.resetWith Config.params

end Sys2Proof.Machine
end

