-- ==== Sys2Proof/Machine/Ops.lean ====
section
/-! DEFINITION. The shared operations: the sparse memories, bits and cursors, the ends of a command (response,
error entry, fault entry, refusal), reset and clear, and the ports. -/

namespace Sys2Proof.Machine

/-! ## Sparse memories -/

/-- The value at index `i`, `d` where `i` is not listed. -/
def sparseRead {α : Type} (d : α) : List (Nat × α) → Nat → α
  | [], _ => d
  | (j, x) :: rest, i => if j = i then x else sparseRead d rest i

/-- `x` put at index `i`, in canonical form: writing `d` removes the entry. -/
def sparseWrite {α : Type} [DecidableEq α] (d : α) : List (Nat × α) → Nat → α → List (Nat × α)
  | [], i, x => if x = d then [] else [(i, x)]
  | (j, y) :: rest, i, x =>
    if j < i then (j, y) :: sparseWrite d rest i x
    else if j = i then (if x = d then rest else (i, x) :: rest)
    else (if x = d then (j, y) :: rest else (i, x) :: (j, y) :: rest)

/-- Every index below `n` back to the unlisted value. -/
def sparseClear {α : Type} (n : Nat) (m : List (Nat × α)) : List (Nat × α) :=
  m.filter (fun c => decide (n ≤ c.1))

/-- `f i` put at every index `i` below `n`, from 0 up. -/
def sparseFill {α : Type} [DecidableEq α] (d : α) (f : Nat → α) : Nat → List (Nat × α) → List (Nat × α)
  | 0, m => m
  | n + 1, m => sparseWrite d (sparseFill d f n m) n (f n)

/-- `MemRead(i, 1)` of BUF and `UMemRead(i, 1)` of UBUF (00_scope.md R11). An unlisted unit holds 0 (10_state.md R37). -/
def Memory.read (m : Memory) (i : Nat) : Byte := sparseRead 0 m i

/-- `MemWrite(i, 1, v)` (R11): a plain assignment. -/
def Memory.write (m : Memory) (i : Nat) (v : Byte) : Memory := sparseWrite 0 m i v

/-- `MemOr(i, v)` is `MemWrite(i, 1, MemRead(i, 1) OR v)` (R11). -/
def Memory.orAt (m : Memory) (i : Nat) (v : Byte) : Memory := m.write i (m.read i ||| v)

/-- `for i in 0..n-1: MemWrite(i, 1, 0)` (41_packer.md R161, 42_buffer.md R193). -/
def Memory.zeroBelow (m : Memory) (n : Nat) : Memory := sparseClear n m

/-- `for i in 0..n-1: UBUF[i] <- MemRead(i, 1)` (43_unpacker.md R212): units at or above `n` keep their contents. -/
def Memory.copyFrom (dst : Memory) (n : Nat) (src : Memory) : Memory := sparseFill 0 src.read n dst

/-- `DESC[i]` (10_state.md R24). -/
def DescTable.read (t : DescTable) (i : Nat) : Desc := sparseRead Desc.zero t i

/-- `DESC[i] <- d`. -/
def DescTable.write (t : DescTable) (i : Nat) (d : Desc) : DescTable := sparseWrite Desc.zero t i d

/-- `for d in 0..n-1: DESC[d] <- (0, 0)` (41_packer.md R161). -/
def DescTable.zeroBelow (t : DescTable) (n : Nat) : DescTable := sparseClear n t

/-! ## Bits and cursors -/

/-- The bit of unit `u` at unit bit index `i`, which is `u[7-i]` (00_scope.md R8, 20_memory.md R63). -/
def unitBit (u : Byte) (i : Nat) : Bool := u.getLsbD (7 - i)

/-- The bit at stream position `k`: `BUF[k div 8][7 - (k mod 8)]` (00_scope.md R9). -/
def Memory.streamBit (m : Memory) (k : Nat) : Bool := unitBit (m.read (k / 8)) (k % 8)

/-- `val(s)`, the value of a bit string in reading order: `sum s_j * 2^(n-1-j)`, the empty string 0 (00_scope.md R10). -/
def bitsVal : List Bool → Nat
  | [] => 0
  | b :: bs => b.toNat * 2 ^ bs.length + bitsVal bs

/-- `bits_n(v) = v[n-1], v[n-2], ..., v[0]` (R10): the `n` bits of `v` in reading order. -/
def bitsOf (n : Nat) (v : Nat) : List Bool := (List.range n).map (fun j => v.testBit (n - 1 - j))

/-- A cursor `(unit, off)` (00_scope.md R13); `off` is a unit bit index. -/
structure Cursor where
  unit : Nat
  off : Nat
  deriving DecidableEq, Repr

/-- The stream position at which a cursor stands: `8*unit + off` (R9). -/
def Cursor.position (c : Cursor) : Nat := 8 * c.unit + c.off

/-! ## How a command ends -/

/-- The code of each status (60_exceptions.md R271). -/
def Status.code : Status → BitVec 8
  | .ok => 0x00
  | .endOfSeq => 0x01
  | .errIllegal => 0x10
  | .errMalformed => 0x11
  | .errCapacity => 0x12
  | .errRange => 0x13
  | .errSeq => 0x14
  | .faultWidth => 0x20
  | .faultBounds => 0x21
  | .faulted => 0x3F

/-- "`raise X(info)` in a rule sets DATA to `zext_32(info)` for the codes whose DATA column names a value, and DATA
to 0 otherwise" (60_exceptions.md R271). -/
def Status.raisedData : Status → Val → Val
  | .errCapacity, info => info
  | .errRange, info => info
  | .faultWidth, info => info
  | .faultBounds, info => info
  | .ok, _ => 0
  | .endOfSeq, _ => 0
  | .errIllegal, _ => 0
  | .errMalformed, _ => 0
  | .errSeq, _ => 0
  | .faulted, _ => 0

/-- The response word: ST, AUX, 16 zero bits, DATA (30_encoding.md R92). -/
def rspWord (st : Status) (aux : BitVec 8) (data : Val) : RspWord := st.code ++ aux ++ 0#16 ++ data

/-- The state in which the host has received one more response word. -/
def State.reply (s : State) (r : RspWord) : State :=
  { s with host := { s.host with output := s.host.output ++ [r] } }

/-- `respond(ST, AUX, DATA)` (00_scope.md R11): the command ends and its response word goes out. -/
def respond (st : Status) (aux : BitVec 8) (data : Val) (s : State) : Host.Outcome State Fault Refusal :=
  .next (s.reply (rspWord st aux data))

/-- Error entry (60_exceptions.md R272): LASTERR <- code, response `(code, 0, DATA)`, no other change. -/
def raiseError (st : Status) (info : Val) (s : State) : Host.Outcome State Fault Refusal :=
  respond st 0 (st.raisedData info) { s with lastErr := st.code }

/-- Fault entry, the one way the block takes an exception (60_exceptions.md R273): FAULT <- 1, FAULTCODE <- code,
LASTERR <- code, response `(code, code, DATA)`, no other change. Nothing vectors and nothing is saved elsewhere, and
there is no return (R276): only RST ends the fault (R277, `State.afterReset`). -/
def raiseFault (st : Status) (info : Val) (s : State) : Host.Outcome State Fault Refusal :=
  respond st st.code (st.raisedData info) { s with fault := true, faultCode := st.code, lastErr := st.code }

/-- The check that comes before every command's own rule (30_encoding.md R97, 60_exceptions.md R274): while FAULT = 1
the command responds `(FAULTED, FAULTCODE, 0)` and changes no state, LASTERR included. -/
def unlessFaulted (s : State) (perform : Host.Outcome State Fault Refusal) : Host.Outcome State Fault Refusal :=
  if s.fault then respond .faulted s.faultCode 0 s else perform

/-- A word that does not decode (30_encoding.md R94, R95, R97): FAULTED while FAULT = 1, else ERR_ILLEGAL. -/
def performIllegal (s : State) : Host.Outcome State Fault Refusal :=
  unlessFaulted s (raiseError .errIllegal 0 s)

/-! ## Reset and clear -/

/-- RST (70_reset_and_hazards.md R300): every piece of state takes its reset value (10_state.md R37). The parameters
stay (R34). A command in progress is abandoned with no response, its pending query too. The host and the classifier
keep what they hold: they are other agents (00_scope.md R5). -/
def State.afterReset (s : State) : State :=
  { State.resetWith s.cfg with
    host := s.host
    cls := { s.cls with pending := none }
    freeSeq := s.freeSeq }

/-- CLR (44_control.md R251): every piece of state of 10_state.md R37 but FAULT and FAULTCODE takes its reset value. -/
def State.cleared (s : State) : State :=
  { s.afterReset with fault := s.fault, faultCode := s.faultCode }

/-! ## The command port -/

/-- The host presents the word `w` next. The block is idle when it takes it: no UNEXT is in progress. -/
def State.present (s : State) (w : CmdWord) : State :=
  { s with host := { s.host with input := .command w :: s.host.input }, cls := { s.cls with pending := none } }

/-- The host's next event is taken off its list. -/
def State.withInput (s : State) (rest : List HostEvent) : State :=
  { s with host := { s.host with input := rest } }

end Sys2Proof.Machine
end

