-- ==== Sys2Proof/Machine/Operands.lean ====
section
/-! DEFINITION. Every operand form of 30_encoding.md R96 and how it is read: the descriptor width, the character, the
register number with the register map of 10_state.md R35, and the indices and lengths. -/

namespace Sys2Proof.Machine

/-- W_MAX, the largest legal field width (00_scope.md R6). -/
def widthMax : Nat := 32

/-- DPUSH's `A > 32` (40_descriptor.md R131): the width breaks the contract. -/
def widthTooBig (w : BitVec 8) : Bool := decide (widthMax < w.toNat)

/-- `W = A[5:0]` (R131). -/
def descWidth (w : BitVec 8) : BitVec 6 := w.extractLsb' 0 6

/-- The binary digit that a character code stands for (40_descriptor.md R133): '0' is 0x30 and '1' is 0x31; every
other code is bad. -/
def digitOf (c : BitVec 8) : Option Bool :=
  if c = 0x30 then some false else if c = 0x31 then some true else none

/-- An index or length operand (R96): field B, zero-extended. -/
def indexOf (b : BitVec 16) : Nat := b.toNat

/-- The register of a number (10_state.md R35); `none` for the reserved numbers 0x14 to 0xFF. -/
def regOfNumber (r : BitVec 8) : Option Reg :=
  match r.toNat with
  | 0x00 => some .status
  | 0x01 => some .lastErr
  | 0x02 => some .faultCode
  | 0x03 => some .dCount
  | 0x04 => some .bLen
  | 0x05 => some .pBits
  | 0x06 => some .pCurUnit
  | 0x07 => some .pCurOff
  | 0x08 => some .tLen
  | 0x09 => some .tVal
  | 0x0A => some .uLen
  | 0x0B => some .uCurUnit
  | 0x0C => some .uCurOff
  | 0x0D => some .patLen
  | 0x0E => some .patLo
  | 0x0F => some .uDiscard
  | 0x10 => some .uCount
  | 0x11 => some .cfgDescMax
  | 0x12 => some .cfgBufUnits
  | 0x13 => some .cfgTW
  | _ => none

end Sys2Proof.Machine
end

