-- ==== Sys2Proof/Machine/Flags.lean ====
section
/-! DEFINITION. The flags: the STATUS register of 10_state.md R36 and the commands' updates of its bits, and what
RDREG reads of every register (R35). "These are the block's only flags" (R36). -/

namespace Sys2Proof.Machine

/-- USTATE as a bit (10_state.md R30): 1 = Scanning, 0 = Exhausted. -/
def UState.bit : UState → Bool
  | .exhausted => false
  | .scanning => true

/-- STATUS (R36): FAULT, TACT, TBAD, TOVER and USTATE in bits 0 to 4, 31:5 zero. -/
def State.statusWord (s : State) : Val :=
  0#27 ++ BitVec.ofBool s.uState.bit ++ BitVec.ofBool s.tOver ++ BitVec.ofBool s.tBad ++ BitVec.ofBool s.tAct
    ++ BitVec.ofBool s.fault

/-- `TACT <- 1; TLEN <- 0; TVAL <- 0; TBAD <- 0; TOVER <- 0` (40_descriptor.md R132). -/
def State.openText (s : State) : State :=
  { s with tAct := true, tLen := 0, tVal := 0, tBad := false, tOver := false }

/-- `close()` (40_descriptor.md R134). -/
def State.closeText (s : State) : State :=
  { s with tAct := false, tLen := 0, tVal := 0, tBad := false, tOver := false }

/-- One binary digit of the open text (40_descriptor.md R133): TOVER when 32 digits are there already, else the
digit shifts in at the bottom of TVAL. -/
def State.addDigit (s : State) (d : Bool) : State :=
  if s.tLen.toNat = widthMax then { s with tOver := true }
  else { s with tVal := (s.tVal <<< 1) ||| (BitVec.ofBool d).setWidth 32, tLen := s.tLen + 1 }

/-- One character of the open text (R133): a digit accumulates, any other code sets TBAD. -/
def State.addChar (s : State) (c : BitVec 8) : State :=
  match digitOf c with
  | some d => s.addDigit d
  | none => { s with tBad := true }

/-- What RDREG reads of each register, zero-extended to 32 bits (10_state.md R35). -/
def State.readReg (s : State) : Reg → Val
  | .status => s.statusWord
  | .lastErr => s.lastErr.setWidth 32
  | .faultCode => s.faultCode.setWidth 32
  | .dCount => s.dCount.setWidth 32
  | .bLen => s.bLen.setWidth 32
  | .pBits => s.pBits
  | .pCurUnit => s.pCurUnit.setWidth 32
  | .pCurOff => s.pCurOff.setWidth 32
  | .tLen => s.tLen.setWidth 32
  | .tVal => s.tVal
  | .uLen => s.uLen.setWidth 32
  | .uCurUnit => s.uCurUnit.setWidth 32
  | .uCurOff => s.uCurOff.setWidth 32
  | .patLen => s.patLen.setWidth 32
  | .patLo => BitVec.ofNat 32 s.patVal
  | .uDiscard => s.uDiscard.setWidth 32
  | .uCount => s.uCount.setWidth 32
  | .cfgDescMax => BitVec.ofNat 32 s.cfg.descMax
  | .cfgBufUnits => BitVec.ofNat 32 s.cfg.bufUnits
  | .cfgTW => BitVec.ofNat 32 s.cfg.tW

end Sys2Proof.Machine
end

