-- ==== Sys2Proof/Machine/Buffer.lean ====
section
/-! DEFINITION. Buffer access: BUFRD, BUFWR and SETLEN (42_buffer.md). -/

namespace Sys2Proof.Machine

/-- BUFRD (R191): DATA is unit `idx`; ERR_RANGE at or above BLEN. -/
def execBufrd (idx : BitVec 16) (s : State) : Host.Outcome State Fault Refusal :=
  unlessFaulted s <|
    if s.bLen.toNat ≤ indexOf idx then raiseError .errRange (idx.setWidth 32) s
    else respond .ok 0 ((s.buf.read (indexOf idx)).setWidth 32) s

/-- BUFWR (R192): unit `idx` is assigned `u`; ERR_RANGE at or above BLEN. -/
def execBufwr (idx : BitVec 16) (u : Byte) (s : State) : Host.Outcome State Fault Refusal :=
  unlessFaulted s <|
    if s.bLen.toNat ≤ indexOf idx then raiseError .errRange (idx.setWidth 32) s
    else respond .ok 0 0 { s with buf := s.buf.write (indexOf idx) u }

/-- SETLEN (R193): every unit 0 and BLEN = n; ERR_RANGE above BUF_UNITS. -/
def execSetlen (n : BitVec 16) (s : State) : Host.Outcome State Fault Refusal :=
  unlessFaulted s <|
    if s.cfg.bufUnits < indexOf n then raiseError .errRange (n.setWidth 32) s
    else respond .ok 0 0 { s with buf := s.buf.zeroBelow s.cfg.bufUnits, bLen := n }

end Sys2Proof.Machine
end

