-- ==== Sys2Proof/Machine/Control.lean ====
section
/-! DEFINITION. The control commands NOP, CLR and RDREG (44_control.md). -/

namespace Sys2Proof.Machine

/-- NOP (R250): `respond(OK, 0, 0)`. -/
def execNop (s : State) : Host.Outcome State Fault Refusal :=
  unlessFaulted s (respond .ok 0 0 s)

/-- CLR (R251): the data path to its reset values, FAULT and FAULTCODE apart. -/
def execClr (s : State) : Host.Outcome State Fault Refusal :=
  unlessFaulted s (respond .ok 0 0 s.cleared)

/-- RDREG (R252): a defined register is read even while FAULT = 1 (60_exceptions.md R274); a reserved number is
ERR_ILLEGAL, or FAULTED while FAULT = 1. -/
def execRdreg (r : BitVec 8) (s : State) : Host.Outcome State Fault Refusal :=
  match regOfNumber r with
  | some reg => respond .ok 0 (s.readReg reg) s
  | none => unlessFaulted s (raiseError .errIllegal (r.setWidth 32) s)

end Sys2Proof.Machine
end

