-- ==== Sys2Proof/Machine/Descriptor.lean ====
section
/-! DEFINITION. Descriptor input: DPUSH, TBEGIN, TCHAR, TEND and DRD (40_descriptor.md). -/

namespace Sys2Proof.Machine

/-- `DCOUNT = DESC_MAX`: the descriptor table is full (40_descriptor.md R131, R134). -/
def State.tableFull (s : State) : Bool := decide (s.dCount.toNat = s.cfg.descMax)

/-- `DESC[DCOUNT] <- d; DCOUNT <- DCOUNT + 1` (R131, R134). -/
def State.appendDesc (s : State) (d : Desc) : State :=
  { s with desc := s.desc.write s.dCount.toNat d, dCount := s.dCount + 1 }

/-- DPUSH (R131): FAULT_WIDTH, then ERR_CAPACITY, else the descriptor is appended and its index answered. -/
def execDpush (w : BitVec 8) (v : Val) (s : State) : Host.Outcome State Fault Refusal :=
  unlessFaulted s <|
    if widthTooBig w then raiseFault .faultWidth (w.setWidth 32) s
    else if s.tableFull then raiseError .errCapacity (s.dCount.setWidth 32) s
    else respond .ok 0 (s.dCount.setWidth 32) (s.appendDesc ⟨descWidth w, v⟩)

/-- TBEGIN (R132): a text opens; one that was open is discarded. -/
def execTbegin (s : State) : Host.Outcome State Fault Refusal :=
  unlessFaulted s (respond .ok 0 0 s.openText)

/-- TCHAR (R133): ERR_SEQ when no text is open, else one character. -/
def execTchar (c : BitVec 8) (s : State) : Host.Outcome State Fault Refusal :=
  unlessFaulted s <|
    if s.tAct then respond .ok 0 0 (s.addChar c) else raiseError .errSeq 0 s

/-- TEND (R134): ERR_SEQ, then ERR_MALFORMED, then FAULT_WIDTH, then ERR_CAPACITY, else the text's descriptor is
appended; the text closes on OK, ERR_MALFORMED and ERR_CAPACITY. -/
def execTend (s : State) : Host.Outcome State Fault Refusal :=
  unlessFaulted s <|
    if !s.tAct then raiseError .errSeq 0 s
    else if s.tBad then raiseError .errMalformed 0 s.closeText
    else if s.tOver then raiseFault .faultWidth 33 s
    else if s.tableFull then raiseError .errCapacity (s.dCount.setWidth 32) s.closeText
    else respond .ok 0 (s.dCount.setWidth 32) (s.appendDesc ⟨s.tLen, s.tVal⟩).closeText

/-- DRD (R135): AUX is the width and DATA the value of entry `idx`; ERR_RANGE at or above DCOUNT. -/
def execDrd (idx : BitVec 16) (s : State) : Host.Outcome State Fault Refusal :=
  unlessFaulted s <|
    if s.dCount.toNat ≤ indexOf idx then raiseError .errRange (idx.setWidth 32) s
    else respond .ok ((s.desc.read (indexOf idx)).w.setWidth 8) (s.desc.read (indexOf idx)).v s

end Sys2Proof.Machine
end

