-- ==== Sys2Proof/Machine/Packer.lean ====
section
/-! DEFINITION. The packer: PACK with its size computation and its write loop (41_packer.md R160-R166). -/

namespace Sys2Proof.Machine

/-- The valid entries `DESC[0..DCOUNT-1]`, in order (10_state.md R24). -/
def State.descriptors (s : State) : List Desc := (List.range s.dCount.toNat).map s.desc.read

/-- `total = sum DESC[d].W` (R160). -/
def totalWidth (ds : List Desc) : Nat := (ds.map (fun d => d.w.toNat)).sum

/-- `size = (total + 7) div 8` (R160). -/
def unitsFor (total : Nat) : Nat := (total + 7) / 8

/-- One step's chunk when the `n` unwritten bits fit in the `r` that remain of the unit (R163): the low `n` bits of
`v`, shifted so that their top bit lands at the cursor. -/
def fitChunk (v : Val) (n r : Nat) : Byte := ((v &&& lowMask n) <<< (r - n)).setWidth 8

/-- One step's chunk when they do not (R164): the highest `r` of the `n` unwritten bits. -/
def spanChunk (v : Val) (n r : Nat) : Byte := ((v >>> (n - r)) &&& lowMask r).setWidth 8

/-- `Write(w, v, cu, co)` (R162-R165) with `n` bits still to write; `.error cu` is FAULT_BOUNDS(cu). Each step writes
at least one bit, so `fuel` = w steps are enough (R166). -/
def writeField (bLen : Nat) (v : Val) : (fuel n : Nat) → Cursor → Memory → Except Nat (Cursor × Memory)
  | 0, _, c, m => .ok (c, m)
  | fuel + 1, n, c, m =>
    let r := 8 - c.off
    if n = 0 then .ok (c, m)
    else if bLen ≤ c.unit then .error c.unit
    else if n ≤ r then
      .ok (if c.off + n = 8 then ⟨c.unit + 1, 0⟩ else ⟨c.unit, c.off + n⟩, m.orAt c.unit (fitChunk v n r))
    else writeField bLen v fuel (n - r) ⟨c.unit + 1, 0⟩ (m.orAt c.unit (spanChunk v n r))

/-- `for d in 0..DCOUNT-1: (cu, co) <- Write(DESC[d].W, DESC[d].V, cu, co)` (R161). -/
def writeFields (bLen : Nat) : List Desc → Cursor → Memory → Except Nat (Cursor × Memory)
  | [], c, m => .ok (c, m)
  | d :: ds, c, m =>
    match writeField bLen d.v d.w.toNat d.w.toNat c m with
    | .error cu => .error cu
    | .ok (c', m') => writeFields bLen ds c' m'

/-- What FAULT_BOUNDS leaves (R165, 93_implementation_defined.md U5): BUF, BLEN, PBITS, PCUR_UNIT, PCUR_OFF, DESC and
DCOUNT are free values (notes/assumptions/10.md). The fault is unreachable (R167). -/
def State.afterBoundsFault (s : State) : State :=
  { s with
    buf := sparseFill 0 (Config.freeBufUnit s.freeSeq) s.cfg.bufUnits []
    bLen := Config.freeBLen s.freeSeq
    pBits := Config.freePBits s.freeSeq
    pCurUnit := Config.freePCurUnit s.freeSeq
    pCurOff := Config.freePCurOff s.freeSeq
    desc := sparseFill Desc.zero (fun i => ⟨Config.freeDescW s.freeSeq i, Config.freeDescV s.freeSeq i⟩) s.cfg.descMax []
    dCount := Config.freeDCount s.freeSeq
    freeSeq := s.freeSeq + 1 }

/-- PACK (R161): size the buffer, zero it, write every descriptor, record the total and the cursor, empty the table. -/
def execPack (s : State) : Host.Outcome State Fault Refusal :=
  unlessFaulted s <|
    let ds := s.descriptors
    let total := totalWidth ds
    let bLen := BitVec.ofNat 16 (unitsFor total)
    match writeFields bLen.toNat ds ⟨0, 0⟩ (s.buf.zeroBelow s.cfg.bufUnits) with
    | .error cu => raiseFault .faultBounds (BitVec.ofNat 32 cu) s.afterBoundsFault
    | .ok (c, m) =>
      respond .ok 0 (BitVec.ofNat 32 (unitsFor total))
        { s with
          buf := m
          bLen := bLen
          pBits := BitVec.ofNat 32 total
          pCurUnit := BitVec.ofNat 16 c.unit
          pCurOff := BitVec.ofNat 3 c.off
          desc := s.desc.zeroBelow s.cfg.descMax
          dCount := 0 }

end Sys2Proof.Machine
end

