-- ==== Sys2Proof/Machine/Unpacker.lean ====
section
/-! DEFINITION. The unpacker: UOPEN and UNEXT with the classifier port (43_unpacker.md). -/

namespace Sys2Proof.Machine

/-- UOPEN (R212): UBUF takes a copy of BUF, and a session starts at cursor (0, 0) with an empty pattern. -/
def execUopen (s : State) : Host.Outcome State Fault Refusal :=
  unlessFaulted s <|
    respond .ok 0 (s.bLen.setWidth 32)
      { s with
        uBuf := s.uBuf.copyFrom s.bLen.toNat s.buf
        uLen := s.bLen
        uCurUnit := 0
        uCurOff := 0
        patLen := 0
        patVal := 0
        uState := .scanning
        uDiscard := 0
        uCount := 0 }

/-- The bit at the decode cursor: `UMemRead(UCUR_UNIT, 1)[7 - UCUR_OFF]` (R214). -/
def State.nextBit (s : State) : Bool := unitBit (s.uBuf.read s.uCurUnit.toNat) s.uCurOff.toNat

/-- `Step()` up to its query (R214): read the bit, append it to the pattern, advance the cursor by one bit, and
present the request `(PAT_LEN, PAT_VAL)`. -/
def State.takeBit (s : State) : State :=
  let len := s.patLen + 1
  let val := 2 * s.patVal + s.nextBit.toNat
  { s with
    patLen := len
    patVal := val
    uCurUnit := if s.uCurOff = 7 then s.uCurUnit + 1 else s.uCurUnit
    uCurOff := s.uCurOff + 1
    cls := { s.cls with queries := s.cls.queries ++ [⟨len, val⟩], pending := some ⟨len, val⟩ } }

/-- The classifier's answer to the pending query arrives; `rest` is what it will answer after it. -/
def State.answered (s : State) (rest : List ClsAnswer) : State :=
  { s with cls := { s.cls with answers := rest, pending := none } }

/-- The value `t` as the port carries it: T_W bits (R210, notes/assumptions/6.md), zero-extended (R213). -/
def portValue (p : Config.Params) (t : Val) : Val := t &&& lowMask p.tW

/-- Emission (R217): the pattern empties, UCOUNT counts, and the response is `(OK, 0, t)`. -/
def State.emit (s : State) (t : Val) : State :=
  State.reply { s with patLen := 0, patVal := 0, uCount := s.uCount + 1 } (rspWord .ok 0 (portValue s.cfg t))

/-- `Exhaust()` and END (R213, R218): the unmatched pattern's length goes to UDISCARD, the pattern empties, and the
unpacker is Exhausted. -/
def State.endSession (s : State) : State :=
  State.reply { s with uDiscard := s.patLen, patLen := 0, patVal := 0, uState := .exhausted } (rspWord .endOfSeq 0 0)

/-- The loop of UNEXT (R213). `UCUR_UNIT = ULEN` is tested before each bit, which is the end check of R215 at the
first and that of R216 after a non-match. Where the answers end, the query stays pending: UNEXT waits
(70_reset_and_hazards.md R305). -/
def unextLoop : List ClsAnswer → State → State
  | [], s => if s.uCurUnit = s.uLen then s.endSession else s.takeBit
  | a :: rest, s =>
    if s.uCurUnit = s.uLen then s.endSession
    else if a.isMatch then ((s.takeBit).answered rest).emit a.t
    else unextLoop rest ((s.takeBit).answered rest)

/-- UNEXT (R213): END with no query once Exhausted (R219), else the loop. -/
def execUnext (s : State) : Host.Outcome State Fault Refusal :=
  unlessFaulted s <|
    match s.uState with
    | .exhausted => respond .endOfSeq 0 0 s
    | .scanning => .next (unextLoop s.cls.answers s)

/-- A UNEXT that waits for the answer to its pending query (70_reset_and_hazards.md R305): with an answer it goes on
as R213 says, without one it waits, "stuck, not a fault". -/
def resumeUnext (s : State) : State :=
  match s.cls.answers with
  | [] => s
  | a :: rest => if a.isMatch then (s.answered rest).emit a.t else unextLoop rest (s.answered rest)

end Sys2Proof.Machine
end

