-- ==== Sys2Proof/Machine/Dispatch.lean ====
section
/-! DEFINITION. One arm per command (30_encoding.md R93): each calls its meaning. -/

namespace Sys2Proof.Machine

def exec (i : Instr) (s : State) : Host.Outcome State Fault Refusal :=
  match i with
  | .nop => Sys2Proof.Machine.execNop s
  | .clr => Sys2Proof.Machine.execClr s
  | .rdreg r => Sys2Proof.Machine.execRdreg r s
  | .dpush w v => Sys2Proof.Machine.execDpush w v s
  | .tbegin => Sys2Proof.Machine.execTbegin s
  | .tchar c => Sys2Proof.Machine.execTchar c s
  | .tend => Sys2Proof.Machine.execTend s
  | .drd idx => Sys2Proof.Machine.execDrd idx s
  | .pack => Sys2Proof.Machine.execPack s
  | .bufrd idx => Sys2Proof.Machine.execBufrd idx s
  | .bufwr idx u => Sys2Proof.Machine.execBufwr idx u s
  | .setlen n => Sys2Proof.Machine.execSetlen n s
  | .uopen => Sys2Proof.Machine.execUopen s
  | .unext => Sys2Proof.Machine.execUnext s

end Sys2Proof.Machine
end

