-- ==== Sys2Proof/Machine/Perform.lean ====
section
/-! DEFINITION. How the block takes what the host presents: a command word, RST, or nothing (30_encoding.md R90, R97;
70_reset_and_hazards.md R300, R303, R305). -/

namespace Sys2Proof.Machine

/-- `perform(word)` (30_encoding.md R97). The refusal while FAULT = 1 stands inside each meaning and inside
`performIllegal`, which gives the same responses (notes/assumptions/11.md). -/
def performWord (w : CmdWord) (s : State) : Host.Outcome State Fault Refusal :=
  match decode w with
  | .ok i => exec i s
  | .error _ => performIllegal s

/-- The block is idle: it takes the host's next event. With none it does nothing (60_exceptions.md R284). -/
def takeEvent (s : State) : Host.Outcome State Fault Refusal :=
  match s.host.input with
  | [] => .next s
  | .reset :: rest => .next (s.withInput rest).afterReset
  | .command w :: rest => performWord w (s.withInput rest)

/-- A UNEXT is in progress: RST abandons it (R300); otherwise it waits for the classifier (R305), and the host's next
command waits for its response (R303). RST is looked at first (notes/assumptions/5.md). -/
def waitOrReset (s : State) : Host.Outcome State Fault Refusal :=
  match s.host.input with
  | .reset :: rest => .next (s.withInput rest).afterReset
  | [] => .next (resumeUnext s)
  | .command _ :: _ => .next (resumeUnext s)

/-- One step of the machine: one command of the host, one RST, one wait, or nothing. -/
def advance (s : State) : Host.Outcome State Fault Refusal :=
  match s.cls.pending with
  | none => takeEvent s
  | some _ => waitOrReset s

end Sys2Proof.Machine
end

