-- ==== Sys2Proof/Machine/Step.lean ====
section
/-! DEFINITION. The step of the machine, and the state whose next step runs a given word. -/

namespace Sys2Proof.Machine

/-- One step (`advance`): commands come only on the command port (20_memory.md R77), one at a time (R71). -/
def step (s : State) : Host.Outcome State Fault Refusal := advance s

/-- `s` with the word whose low `nbits` bits are those of `w` presented next on the command port: the load of a
program from outside (notes/assumptions/3.md). -/
def State.withFetchWord (s : State) (nbits w : Nat) : State := s.present (wordOfBits nbits w)

end Sys2Proof.Machine
end

