-- ==== Sys2Proof/Laws/Decode.lean ====
section
/-! SUPPORT. The fields of a command word: a word is its fields, the fields of an assembled word are the parts it was
assembled from, and a mask of whole fields picks out whole fields. -/

namespace Sys2Proof

theorem cmdWord_toNat (op a : BitVec 8) (b : BitVec 16) (v : Val) :
    (cmdWord op a b v).toNat = op.toNat * 2 ^ 56 + a.toNat * 2 ^ 48 + b.toNat * 2 ^ 32 + v.toNat := by
  have h1 : (op ++ a).toNat = op.toNat * 2 ^ 8 + a.toNat := by
    rw [BitVec.toNat_append, ← Nat.shiftLeft_add_eq_or_of_lt a.isLt, Nat.shiftLeft_eq]
  have h2 : (op ++ a ++ b).toNat = (op ++ a).toNat * 2 ^ 16 + b.toNat := by
    rw [BitVec.toNat_append, ← Nat.shiftLeft_add_eq_or_of_lt b.isLt, Nat.shiftLeft_eq]
  have h3 : (op ++ a ++ b ++ v).toNat = (op ++ a ++ b).toNat * 2 ^ 32 + v.toNat := by
    rw [BitVec.toNat_append, ← Nat.shiftLeft_add_eq_or_of_lt v.isLt, Nat.shiftLeft_eq]
  show (op ++ a ++ b ++ v).toNat = _
  rw [h3, h2, h1]
  ring

/-- The bits `[start + len - 1 : start]` of a word, as a number. -/
theorem extract_toNat (w : CmdWord) (start len : Nat) :
    (w.extractLsb' start len).toNat = w.toNat / 2 ^ start % 2 ^ len := by
  simp [BitVec.extractLsb'_toNat, Nat.shiftRight_eq_div_pow]

@[simp] theorem fieldOp_cmdWord (op a : BitVec 8) (b : BitVec 16) (v : Val) : fieldOp (cmdWord op a b v) = op := by
  apply BitVec.eq_of_toNat_eq
  rw [fieldOp, extract_toNat, cmdWord_toNat]
  have := op.isLt; have := a.isLt; have := b.isLt; have := v.isLt
  omega

@[simp] theorem fieldA_cmdWord (op a : BitVec 8) (b : BitVec 16) (v : Val) : fieldA (cmdWord op a b v) = a := by
  apply BitVec.eq_of_toNat_eq
  rw [fieldA, extract_toNat, cmdWord_toNat]
  have := op.isLt; have := a.isLt; have := b.isLt; have := v.isLt
  omega

@[simp] theorem fieldB_cmdWord (op a : BitVec 8) (b : BitVec 16) (v : Val) : fieldB (cmdWord op a b v) = b := by
  apply BitVec.eq_of_toNat_eq
  rw [fieldB, extract_toNat, cmdWord_toNat]
  have := op.isLt; have := a.isLt; have := b.isLt; have := v.isLt
  omega

@[simp] theorem fieldV_cmdWord (op a : BitVec 8) (b : BitVec 16) (v : Val) : fieldV (cmdWord op a b v) = v := by
  apply BitVec.eq_of_toNat_eq
  rw [fieldV, extract_toNat, cmdWord_toNat]
  have := op.isLt; have := a.isLt; have := b.isLt; have := v.isLt
  omega

theorem fieldVLow_cmdWord (op a : BitVec 8) (b : BitVec 16) (v : Val) :
    fieldVLow (cmdWord op a b v) = v.extractLsb' 0 8 := by
  apply BitVec.eq_of_toNat_eq
  rw [fieldVLow, extract_toNat, cmdWord_toNat]
  simp only [BitVec.extractLsb'_toNat, Nat.shiftRight_eq_div_pow]
  have := op.isLt; have := a.isLt; have := b.isLt; have := v.isLt
  omega

theorem fieldVHigh_cmdWord (op a : BitVec 8) (b : BitVec 16) (v : Val) :
    fieldVHigh (cmdWord op a b v) = v.extractLsb' 8 24 := by
  apply BitVec.eq_of_toNat_eq
  rw [fieldVHigh, extract_toNat, cmdWord_toNat]
  simp only [BitVec.extractLsb'_toNat, Nat.shiftRight_eq_div_pow]
  have := op.isLt; have := a.isLt; have := b.isLt; have := v.isLt
  omega

/-- A word is its four fields. -/
theorem cmdWord_fields (w : CmdWord) : cmdWord (fieldOp w) (fieldA w) (fieldB w) (fieldV w) = w := by
  apply BitVec.eq_of_toNat_eq
  rw [cmdWord_toNat, fieldOp, fieldA, fieldB, fieldV, extract_toNat, extract_toNat, extract_toNat, extract_toNat]
  have := w.isLt
  omega

theorem cmdWord_inj {op op' a a' : BitVec 8} {b b' : BitVec 16} {v v' : Val} :
    cmdWord op a b v = cmdWord op' a' b' v' ↔ op = op' ∧ a = a' ∧ b = b' ∧ v = v' := by
  constructor
  · intro h
    exact ⟨by simpa using congrArg fieldOp h, by simpa using congrArg fieldA h, by simpa using congrArg fieldB h,
      by simpa using congrArg fieldV h⟩
  · rintro ⟨rfl, rfl, rfl, rfl⟩
    rfl

/-- A mask acts on each field by itself. -/
theorem cmdWord_and (op op' a a' : BitVec 8) (b b' : BitVec 16) (v v' : Val) :
    cmdWord op a b v &&& cmdWord op' a' b' v' = cmdWord (op &&& op') (a &&& a') (b &&& b') (v &&& v') := by
  show (op ++ a ++ b ++ v) &&& (op' ++ a' ++ b' ++ v') = _
  rw [BitVec.and_append, BitVec.and_append, BitVec.and_append]
  rfl

/-- BUFWR's part of V: the high 24 bits masked are zero exactly when the high 24 bits are. -/
theorem and_high_eq_zero (v : Val) : v &&& 0xFFFFFF00#32 = 0#32 ↔ v.extractLsb' 8 24 = 0#24 := by
  have hv : v = v.extractLsb' 8 24 ++ v.extractLsb' 0 8 := by
    apply BitVec.eq_of_toNat_eq
    rw [BitVec.toNat_append, ← Nat.shiftLeft_add_eq_or_of_lt (v.extractLsb' 0 8).isLt, Nat.shiftLeft_eq]
    simp only [BitVec.extractLsb'_toNat, Nat.shiftRight_eq_div_pow]
    have := v.isLt
    omega
  have hm : (0xFFFFFF00#32 : BitVec 32) = BitVec.allOnes 24 ++ 0#8 := by decide
  have h0 : (0#32 : BitVec 32) = 0#24 ++ 0#8 := by decide
  have hand : v &&& 0xFFFFFF00#32 = v.extractLsb' 8 24 ++ 0#8 := by
    conv => lhs; rw [hv, hm, BitVec.and_append, BitVec.and_allOnes, BitVec.and_zero]
  rw [hand, h0]
  exact BitVec.append_left_inj 0#8

/-- BUFWR's part of V: a value with its high 24 bits zero is its low 8 bits, zero-extended. -/
theorem setWidth_low_of_high_eq_zero {v : Val} (h : v.extractLsb' 8 24 = 0#24) : (v.extractLsb' 0 8).setWidth 32 = v := by
  apply BitVec.eq_of_toNat_eq
  have h' := congrArg BitVec.toNat h
  simp only [BitVec.extractLsb'_toNat, Nat.shiftRight_eq_div_pow, BitVec.toNat_ofNat] at h'
  simp only [BitVec.toNat_setWidth, BitVec.extractLsb'_toNat, Nat.shiftRight_eq_div_pow]
  have := v.isLt
  omega

/-- `decode` on an assembled word, as a match on its opcode. -/
theorem decode_cmdWord (op a : BitVec 8) (b : BitVec 16) (v : Val) :
    decode (cmdWord op a b v) = match op.toNat with
      | 0x00 => needZero (a == 0 && b == 0 && v == 0) .nop
      | 0x01 => needZero (a == 0 && b == 0 && v == 0) .clr
      | 0x02 => needZero (b == 0 && v == 0) (.rdreg a)
      | 0x10 => needZero (b == 0) (.dpush a v)
      | 0x11 => needZero (a == 0 && b == 0 && v == 0) .tbegin
      | 0x12 => needZero (b == 0 && v == 0) (.tchar a)
      | 0x13 => needZero (a == 0 && b == 0 && v == 0) .tend
      | 0x14 => needZero (a == 0 && v == 0) (.drd b)
      | 0x20 => needZero (a == 0 && b == 0 && v == 0) .pack
      | 0x30 => needZero (a == 0 && v == 0) (.bufrd b)
      | 0x31 => needZero (a == 0 && v.extractLsb' 8 24 == 0) (.bufwr b (v.extractLsb' 0 8))
      | 0x32 => needZero (a == 0 && v == 0) (.setlen b)
      | 0x40 => needZero (a == 0 && b == 0 && v == 0) .uopen
      | 0x41 => needZero (a == 0 && b == 0 && v == 0) .unext
      | _ => .error .undefinedOpcode := by
  unfold decode
  simp only [fieldOp_cmdWord, fieldA_cmdWord, fieldB_cmdWord, fieldV_cmdWord, fieldVHigh_cmdWord, fieldVLow_cmdWord]
    <;> rfl

/-- BUFWR's operand, zero-extended into V, reads back from V[7:0]. -/
theorem low_setWidth (u : Byte) : (u.setWidth 32).extractLsb' 0 8 = u := by
  apply BitVec.eq_of_toNat_eq
  have := u.isLt
  simp
  omega

/-- BUFWR's operand, zero-extended into V, leaves V[31:8] zero. -/
theorem high_setWidth (u : Byte) : (u.setWidth 32).extractLsb' 8 24 = 0#24 := by
  apply BitVec.eq_of_toNat_eq
  simp [Nat.shiftRight_eq_div_pow]
  have := u.isLt
  omega

end Sys2Proof
end

