-- ==== Sys2Proof/Laws/PerInstr.lean ====
section
/-! SUPPORT. Facts of every instruction as syntax, one lemma per constructor. Family `OpField`: the OP field of a
command's word is its opcode of 30_encoding.md R93, and that opcode is one of the map's fourteen. -/

namespace Sys2Proof.Laws.OpField

/-- The opcode of R93. -/
def opcode : Instr → BitVec 8
  | .nop => 0x00
  | .clr => 0x01
  | .rdreg _ => 0x02
  | .dpush _ _ => 0x10
  | .tbegin => 0x11
  | .tchar _ => 0x12
  | .tend => 0x13
  | .drd _ => 0x14
  | .pack => 0x20
  | .bufrd _ => 0x30
  | .bufwr _ _ => 0x31
  | .setlen _ => 0x32
  | .uopen => 0x40
  | .unext => 0x41

def Statement (i : Instr) : Prop := fieldOp (encode i) = opcode i

theorem nop : Statement .nop := fieldOp_cmdWord _ _ _ _
theorem clr : Statement .clr := fieldOp_cmdWord _ _ _ _
theorem rdreg (r : BitVec 8) : Statement (.rdreg r) := fieldOp_cmdWord _ _ _ _
theorem dpush (w : BitVec 8) (v : Val) : Statement (.dpush w v) := fieldOp_cmdWord _ _ _ _
theorem tbegin : Statement .tbegin := fieldOp_cmdWord _ _ _ _
theorem tchar (c : BitVec 8) : Statement (.tchar c) := fieldOp_cmdWord _ _ _ _
theorem tend : Statement .tend := fieldOp_cmdWord _ _ _ _
theorem drd (idx : BitVec 16) : Statement (.drd idx) := fieldOp_cmdWord _ _ _ _
theorem pack : Statement .pack := fieldOp_cmdWord _ _ _ _
theorem bufrd (idx : BitVec 16) : Statement (.bufrd idx) := fieldOp_cmdWord _ _ _ _
theorem bufwr (idx : BitVec 16) (u : Byte) : Statement (.bufwr idx u) := fieldOp_cmdWord _ _ _ _
theorem setlen (n : BitVec 16) : Statement (.setlen n) := fieldOp_cmdWord _ _ _ _
theorem uopen : Statement .uopen := fieldOp_cmdWord _ _ _ _
theorem unext : Statement .unext := fieldOp_cmdWord _ _ _ _

end Sys2Proof.Laws.OpField
end

