-- ==== Sys2Proof/Machine/Pseudo.lean ====
section
/-! DEFINITION. The host's side of descriptor input and the pseudo-commands (40_descriptor.md R130, 30_encoding.md
R99): lists of commands, none of which the block knows. -/

namespace Sys2Proof.Machine

/-- The source's `from_bit_sequence` on bit markers (R130); `none` is its contract violation, more than 32 markers. -/
def fromBitSequence (bits : List Bool) : Option Desc :=
  if widthMax < bits.length then none
  else some ⟨BitVec.ofNat 6 bits.length, BitVec.ofNat 32 (bitsVal bits)⟩

/-- `DBITS "s"` (R99): `DPUSH n, val(s)` for a string of `n <= 32` bits. -/
def dbits (bits : List Bool) : List Instr :=
  [.dpush (BitVec.ofNat 8 bits.length) (BitVec.ofNat 32 (bitsVal bits))]

/-- A text's character as the codes sent to TCHAR (R99): its 8-bit code, or the bytes of its UTF-8 encoding when it
has none. Every byte of a multi-byte encoding is 0x80 or above (93_implementation_defined.md G2). -/
def charCodes (c : Char) : List (BitVec 8) :=
  if c.toNat < 256 then [BitVec.ofNat 8 c.toNat] else (String.utf8EncodeChar c).map UInt8.toBitVec

/-- `TBEGIN`, one TCHAR for each code, `TEND`. -/
def dtextCodes (codes : List (BitVec 8)) : List Instr := .tbegin :: (codes.map Instr.tchar ++ [.tend])

/-- `DTEXT "s"` (R99). -/
def dtext (s : List Char) : List Instr := dtextCodes (s.flatMap charCodes)

/-- `BUFWR j, b_j` for the units `bs`, from index `j` up. -/
def bufwrFrom : Nat → List Byte → List Instr
  | _, [] => []
  | j, b :: bs => .bufwr (BitVec.ofNat 16 j) b :: bufwrFrom (j + 1) bs

/-- `BUFLOAD b_0, ..., b_{n-1}` (R99): `SETLEN n`, then `BUFWR j, b_j`. -/
def bufload (bs : List Byte) : List Instr := .setlen (BitVec.ofNat 16 bs.length) :: bufwrFrom 0 bs

/-- `DRAIN` (R99), cut at `n` commands: UNEXT repeated. A session needs at most `8*ULEN + 1` (43_unpacker.md R221),
and a UNEXT after END changes nothing (R219). -/
def drain (n : Nat) : List Instr := List.replicate n .unext

/-- The host's events for a list of commands: their words, in order. -/
def commandsOf (is : List Instr) : List HostEvent := is.map (fun i => .command (encode i))

end Sys2Proof.Machine
end

