-- ==== Sys2Proof/Machine/Assembler.lean ====
section
/-! DEFINITION. The command-stream notation of 30_encoding.md R98 with the pseudo-commands of R99: one line of text to
the commands it stands for. Host-side only: the block never sees text. What R98 leaves open of the notation (white
space, letter case, the unknown line) is notes/assumptions/17.md. -/

namespace Sys2Proof.Machine

/-- A piece of a line. -/
inductive AsmToken where
  | comma
  | number (n : Nat)
  | word (w : List Char)
  | text (s : List Char)
  deriving DecidableEq, Repr

/-- The value of a digit character. -/
def digitValue (c : Char) : Nat :=
  if c.toNat ≤ 0x39 then c.toNat - 0x30 else if c.toNat ≤ 0x46 then c.toNat - 0x41 + 10 else c.toNat - 0x61 + 10

/-- Is `c` a digit of the base? -/
def isDigitOf (base : Nat) (c : Char) : Bool :=
  let decimal := decide (0x30 ≤ c.toNat ∧ c.toNat ≤ 0x39)
  let letter := decide (0x41 ≤ c.toNat ∧ c.toNat ≤ 0x46) || decide (0x61 ≤ c.toNat ∧ c.toNat ≤ 0x66)
  (decimal || letter) && decide (digitValue c < base)

/-- The value of a non-empty string of digits. -/
def numeral (base : Nat) (cs : List Char) : Option Nat :=
  if !cs.isEmpty && cs.all (isDigitOf base) then some (cs.foldl (fun n c => base * n + digitValue c) 0) else none

/-- "Numbers are decimal, `0x` hexadecimal or `0b` binary" (R98). -/
def numberOf : List Char → Option Nat
  | '0' :: 'x' :: cs => numeral 16 cs
  | '0' :: 'b' :: cs => numeral 2 cs
  | cs => numeral 10 cs

/-- May `c` stand in a mnemonic, a register name or a number? -/
def isWordChar (c : Char) : Bool :=
  decide (0x30 ≤ c.toNat ∧ c.toNat ≤ 0x39) || decide (0x41 ≤ c.toNat ∧ c.toNat ≤ 0x5A)
    || decide (0x61 ≤ c.toNat ∧ c.toNat ≤ 0x7A) || decide (c = '_')

/-- A word of the line: a number where it reads as one. -/
def wordToken (w : List Char) : AsmToken :=
  match numberOf w with
  | some n => .number n
  | none => .word w

/-- The tokens of a line (R98): "A `;` starts a comment"; "A character may be written `'c'`, meaning its 8-bit code".
`fuel` is the line's length; each round takes at least one character. -/
def tokens : (fuel : Nat) → List Char → Option (List AsmToken)
  | _, [] => some []
  | 0, _ :: _ => none
  | fuel + 1, c :: cs =>
    if c = ';' then some []
    else if c = ' ' ∨ c = '\t' ∨ c = '\r' then tokens fuel cs
    else if c = ',' then (tokens fuel cs).map (AsmToken.comma :: ·)
    else if c = '\'' then
      match cs with
      | d :: e :: rest =>
        if e = '\'' ∧ d.toNat < 256 then (tokens fuel rest).map (AsmToken.number d.toNat :: ·) else none
      | _ => none
    else if c = '"' then
      match cs.dropWhile (· ≠ '"') with
      | [] => none
      | _ :: rest => (tokens fuel rest).map (AsmToken.text (cs.takeWhile (· ≠ '"')) :: ·)
    else if isWordChar c then
      (tokens fuel (cs.dropWhile isWordChar)).map (wordToken (c :: cs.takeWhile isWordChar) :: ·)
    else none

/-- "A register number may be written by its name from `10_state.md` rule R35" (R98). -/
def regNames : List (List Char × BitVec 8) := [
  ("STATUS".toList, 0x00), ("LASTERR".toList, 0x01), ("FAULTCODE".toList, 0x02), ("DCOUNT".toList, 0x03),
  ("BLEN".toList, 0x04), ("PBITS".toList, 0x05), ("PCUR_UNIT".toList, 0x06), ("PCUR_OFF".toList, 0x07),
  ("TLEN".toList, 0x08), ("TVAL".toList, 0x09), ("ULEN".toList, 0x0A), ("UCUR_UNIT".toList, 0x0B),
  ("UCUR_OFF".toList, 0x0C), ("PAT_LEN".toList, 0x0D), ("PAT_LO".toList, 0x0E), ("UDISCARD".toList, 0x0F),
  ("UCOUNT".toList, 0x10), ("CFG_DESC_MAX".toList, 0x11), ("CFG_BUF_UNITS".toList, 0x12), ("CFG_T_W".toList, 0x13) ]

/-- A number operand that fits its field, at the field's width. -/
def fits (w n : Nat) : Option (BitVec w) := if n < 2 ^ w then some (BitVec.ofNat w n) else none

/-- The operands of BUFLOAD: units separated by commas. -/
def unitList : List AsmToken → Option (List Byte)
  | [] => some []
  | [.number n] => (fits 8 n).map ([·])
  | .number n :: .comma :: .number m :: rest => do
    let u ← fits 8 n
    let us ← unitList (.number m :: rest)
    pure (u :: us)
  | _ => none

/-- The characters of a string over {0,1}, as bits. DESIGN CHOICE (notes/assumptions/17.md; safe for the block): R99
gives DBITS such a string only; one with any other character, of an 8-bit code or not, is `none`, no command. -/
def textBits (s : List Char) : Option (List Bool) :=
  s.mapM (fun c => if c.toNat < 256 then digitOf (BitVec.ofNat 8 c.toNat) else none)

/-- The commands of a line whose mnemonic is `m` (R98, R99). -/
def assembleOp (m : List Char) : List AsmToken → Option (List Instr)
  | [] =>
    if m = "NOP".toList then some [.nop]
    else if m = "CLR".toList then some [.clr]
    else if m = "TBEGIN".toList then some [.tbegin]
    else if m = "TEND".toList then some [.tend]
    else if m = "PACK".toList then some [.pack]
    else if m = "UOPEN".toList then some [.uopen]
    else if m = "UNEXT".toList then some [.unext]
    else if m = "BUFLOAD".toList then some (bufload [])
    else none
  | [.word r] => if m = "RDREG".toList then (regNames.lookup r).map (fun n => [.rdreg n]) else none
  | [.text s] =>
    if m = "DTEXT".toList then some (dtext s)
    else if m = "DBITS".toList then
      if s.length ≤ widthMax then (textBits s).map dbits else none
    else none
  | [.number n] =>
    if m = "RDREG".toList then (fits 8 n).map (fun r => [.rdreg r])
    else if m = "TCHAR".toList then (fits 8 n).map (fun c => [.tchar c])
    else if m = "DRD".toList then (fits 16 n).map (fun i => [.drd i])
    else if m = "BUFRD".toList then (fits 16 n).map (fun i => [.bufrd i])
    else if m = "SETLEN".toList then (fits 16 n).map (fun k => [.setlen k])
    else if m = "BUFLOAD".toList then (fits 8 n).map (fun u => bufload [u])
    else none
  | .number n :: .comma :: .number k :: rest =>
    if m = "BUFLOAD".toList then do
      let us ← unitList (.number n :: .comma :: .number k :: rest)
      if us.length < 65536 then pure (bufload us) else none
    else if rest.isEmpty && decide (m = "DPUSH".toList) then do
      let w ← fits 8 n
      let v ← fits 32 k
      pure [.dpush w v]
    else if rest.isEmpty && decide (m = "BUFWR".toList) then do
      let i ← fits 16 n
      let b ← fits 8 k
      pure [.bufwr i b]
    else none
  | _ => none

/-- The commands of one line of text (R98, R99); `none` for a line that is not in the notation. DRAIN is no fixed list
of commands (it ends with the first END response): it is `drain`, not a line here. -/
def assembleLine (line : List Char) : Option (List Instr) :=
  match tokens line.length line with
  | none => none
  | some [] => some []
  | some (.word m :: operands) => assembleOp m operands
  | some (_ :: _) => none

end Sys2Proof.Machine
end

