-- ==== Sys2Proof/Safety.lean ====
section
/-! DEFINITION. The terms in which claims speak: the invariant of the block, frames, the bit strings of descriptors
and streams, the pure classifier, and the greedy segmentation of 43_unpacker.md R222. -/

namespace Sys2Proof.Machine

/-! ## The invariant -/

/-- FAULT, FAULTCODE and LASTERR (10_state.md R22, R23; the codes of 60_exceptions.md R271). -/
abbrev State.ErrorsOk (s : State) : Prop :=
  (s.fault = false → s.faultCode = 0)
  ∧ (s.fault = true → s.faultCode = Status.faultWidth.code ∨ s.faultCode = Status.faultBounds.code)
  ∧ s.lastErr ∈ [0, Status.errIllegal.code, Status.errMalformed.code, Status.errCapacity.code, Status.errRange.code,
      Status.errSeq.code, Status.faultWidth.code, Status.faultBounds.code]

/-- The descriptor table (R24): canonical, nothing at or above DCOUNT, DCOUNT at most DESC_MAX, widths 0 to 32. -/
abbrev State.TableOk (s : State) : Prop :=
  s.desc.wf = true
  ∧ (∀ c ∈ s.desc, c.1 < s.dCount.toNat ∧ c.2.w.toNat ≤ 32)
  ∧ s.dCount.toNat ≤ s.cfg.descMax

/-- The text accumulator (R26): at most 32 digits, TVAL below `2^TLEN`, TOVER only after 32 digits, and all of it 0
while no text is open. -/
abbrev State.TextOk (s : State) : Prop :=
  s.tLen.toNat ≤ 32
  ∧ s.tVal.toNat < 2 ^ s.tLen.toNat
  ∧ (s.tOver = true → s.tLen.toNat = 32)
  ∧ (s.tAct = false → s.tLen = 0 ∧ s.tVal = 0 ∧ s.tBad = false ∧ s.tOver = false)

/-- The packed buffer (R27): canonical, every unit at or above BLEN 0, BLEN at most BUF_UNITS. -/
abbrev State.BufferOk (s : State) : Prop :=
  s.buf.wf = true ∧ (∀ c ∈ s.buf, c.1 < s.bLen.toNat) ∧ s.bLen.toNat ≤ s.cfg.bufUnits

/-- The packer's result registers (R28): the cursor is `(PBITS div 8, PBITS mod 8)`. -/
abbrev State.PackerOk (s : State) : Prop :=
  s.pCurUnit.toNat = s.pBits.toNat / 8 ∧ s.pCurOff.toNat = s.pBits.toNat % 8 ∧ s.pBits.toNat ≤ 32 * s.cfg.descMax

/-- The decode cursor `(UCUR_UNIT, UCUR_OFF)` (R31). -/
def State.decodeCursor (s : State) : Cursor := ⟨s.uCurUnit.toNat, s.uCurOff.toNat⟩

/-- The unpacker (R29-R33): the snapshot's bounds, the cursor's range, `PAT_VAL < 2^PAT_LEN`, the bits accounted for
(each value emitted took one at least, the pattern and the discarded tail took theirs), UDISCARD 0 while Scanning,
and an Exhausted unpacker at the end with an empty pattern. -/
abbrev State.UnpackerOk (s : State) : Prop :=
  s.uBuf.wf = true
  ∧ (∀ c ∈ s.uBuf, c.1 < s.cfg.bufUnits)
  ∧ s.uLen.toNat ≤ s.cfg.bufUnits
  ∧ s.uCurUnit.toNat ≤ s.uLen.toNat
  ∧ (s.uCurUnit = s.uLen → s.uCurOff = 0)
  ∧ s.patVal < 2 ^ s.patLen.toNat
  ∧ s.uCount.toNat + s.patLen.toNat + s.uDiscard.toNat ≤ s.decodeCursor.position
  ∧ (s.uState = .scanning → s.uDiscard = 0)
  ∧ (s.uState = .exhausted → s.patLen = 0 ∧ s.uCurUnit = s.uLen)

/-- The classifier port (43_unpacker.md R210): with no query pending the pattern is empty; a pending query is the
pattern, not empty, of a Scanning unpacker that is not halted. -/
abbrev State.PortOk (s : State) : Prop :=
  (s.cls.pending = none → s.patLen = 0)
  ∧ (∀ q ∈ s.cls.pending,
      q = ⟨s.patLen, s.patVal⟩ ∧ s.patLen ≠ 0 ∧ s.uState = .scanning ∧ s.fault = false)

/-- The invariant of the block. -/
abbrev State.Inv (s : State) : Prop :=
  s.ErrorsOk ∧ s.TableOk ∧ s.TextOk ∧ s.BufferOk ∧ s.PackerOk ∧ s.UnpackerOk ∧ s.PortOk

/-! ## Frames: `t` has of `s` … -/

/-- … the fault bit and its code. -/
abbrev State.SameFault (s t : State) : Prop := t.fault = s.fault ∧ t.faultCode = s.faultCode

/-- … the descriptor table, entry by entry. -/
abbrev State.SameTable (s t : State) : Prop := t.dCount = s.dCount ∧ ∀ k, t.desc.read k = s.desc.read k

/-- … the text accumulator. -/
abbrev State.SameText (s t : State) : Prop :=
  t.tAct = s.tAct ∧ t.tLen = s.tLen ∧ t.tVal = s.tVal ∧ t.tBad = s.tBad ∧ t.tOver = s.tOver

/-- … the packed buffer, unit by unit. -/
abbrev State.SameBuffer (s t : State) : Prop := t.bLen = s.bLen ∧ ∀ a, t.buf.read a = s.buf.read a

/-- … the packer's result registers. -/
abbrev State.SamePacker (s t : State) : Prop :=
  t.pBits = s.pBits ∧ t.pCurUnit = s.pCurUnit ∧ t.pCurOff = s.pCurOff

/-- … the unpacker's snapshot, unit by unit. -/
abbrev State.SameSnapshot (s t : State) : Prop := t.uLen = s.uLen ∧ ∀ a, t.uBuf.read a = s.uBuf.read a

/-- … the unpacker's session: state, cursor, pattern and counters. -/
abbrev State.SameSession (s t : State) : Prop :=
  t.uState = s.uState ∧ t.uCurUnit = s.uCurUnit ∧ t.uCurOff = s.uCurOff ∧ t.patLen = s.patLen ∧ t.patVal = s.patVal
  ∧ t.uDiscard = s.uDiscard ∧ t.uCount = s.uCount

/-- … the parameters, the classifier port and what the host has still to present. -/
abbrev State.SameOutside (s t : State) : Prop :=
  t.cfg = s.cfg ∧ t.cls = s.cls ∧ t.host.input = s.host.input

/-- Every piece of state of 10_state.md R37 but FAULT and FAULTCODE has its reset value. -/
abbrev State.HasResetValues (t : State) : Prop :=
  t.lastErr = 0 ∧ (∀ k, t.desc.read k = ⟨0, 0⟩) ∧ t.dCount = 0
  ∧ t.tAct = false ∧ t.tLen = 0 ∧ t.tVal = 0 ∧ t.tBad = false ∧ t.tOver = false
  ∧ (∀ a, t.buf.read a = 0) ∧ t.bLen = 0 ∧ t.pBits = 0 ∧ t.pCurUnit = 0 ∧ t.pCurOff = 0
  ∧ (∀ a, t.uBuf.read a = 0) ∧ t.uLen = 0 ∧ t.uState = .exhausted ∧ t.uCurUnit = 0 ∧ t.uCurOff = 0
  ∧ t.patLen = 0 ∧ t.patVal = 0 ∧ t.uDiscard = 0 ∧ t.uCount = 0

/-! ## Bit strings -/

/-- `bits_W(V mod 2^W)`, the bits a descriptor packs to (41_packer.md R168). -/
def Desc.bits (d : Desc) : List Bool := bitsOf d.w.toNat (d.v.toNat % 2 ^ d.w.toNat)

/-- The concatenation of the table's bit strings in order (R168), before padding. -/
def State.tableBits (s : State) : List Bool := s.descriptors.flatMap Desc.bits

/-- The caller contract DESC_IN_RANGE (10_state.md R25): `V < 2^W` for every descriptor of the table. -/
def State.descInRange (s : State) : Prop := ∀ d ∈ s.descriptors, d.v.toNat < 2 ^ d.w.toNat

/-- The bits of the snapshot that UNEXT has not read yet, in stream order (00_scope.md R9). -/
def State.restOfStream (s : State) : List Bool :=
  (List.range (8 * s.uLen.toNat - s.decodeCursor.position)).map
    (fun k => s.uBuf.streamBit (s.decodeCursor.position + k))

/-! ## The classifier -/

/-- A classifier function of the request alone, the premise CLS_PURE (43_unpacker.md R210): `C(len, val)`. -/
abbrev Classifier := Nat → Nat → Option Val

/-- The answer of `C` on the port. -/
def Classifier.answer (C : Classifier) (len val : Nat) : ClsAnswer :=
  match C len val with
  | some t => ⟨true, t⟩
  | none => ⟨false, 0⟩

/-- CLS_PURE as data: the answers of `C` to the queries of a session that reads the bits from a pattern `(len, val)`
on, one query a bit (R214), the pattern emptied by a match (R217). -/
def Classifier.answersOn (C : Classifier) : (len val : Nat) → List Bool → List ClsAnswer
  | _, _, [] => []
  | len, val, b :: bs =>
    C.answer (len + 1) (2 * val + b.toNat) ::
      (if (C (len + 1) (2 * val + b.toNat)).isSome then C.answersOn 0 0 bs
       else C.answersOn (len + 1) (2 * val + b.toNat) bs)

/-- Greedy shortest-prefix segmentation (R222): from position `j` of the stream `bits`, the values `ts` are yielded in
order and `tail` bits are discarded at the end. -/
inductive Segmentation (C : Classifier) (bits : List Bool) : (j : Nat) → (ts : List Val) → (tail : Nat) → Prop where
  /-- "then END when no such `k_m` exists. `UDISCARD` is then `L - j_m`." -/
  | stop (j : Nat) (hj : j ≤ bits.length)
      (none_left : ∀ k, j ≤ k → k < bits.length →
        C (k - j + 1) (bitsVal ((bits.drop j).take (k - j + 1))) = none) :
      Segmentation C bits j [] (bits.length - j)
  /-- "let `k_m` be the least `k` with `j_m <= k < L` and `C(k - j_m + 1, val(s_{j_m} .. s_k)) = some t_m`, and set
  `j_{m+1} = k_m + 1`". -/
  | value (j k : Nat) (t : Val) (ts : List Val) (tail : Nat) (hj : j ≤ k) (hk : k < bits.length)
      (matched : C (k - j + 1) (bitsVal ((bits.drop j).take (k - j + 1))) = some t)
      (least : ∀ k', j ≤ k' → k' < k → C (k' - j + 1) (bitsVal ((bits.drop j).take (k' - j + 1))) = none)
      (rest : Segmentation C bits (k + 1) ts tail) :
      Segmentation C bits j (t :: ts) tail

end Sys2Proof.Machine
end

