-- ==== Sys2Proof/Certificates/Slice0/Obligations.lean ====
section
/-! DEFINITION. The statements for the provers. Each docstring names the rule of spec/ it formalises. -/

open Sys2Proof Sys2Proof.Machine

/-! ## Encoding -/

/-- Words written out from the spec's encodings (30_encoding.md R98, 95_test_vectors.md 2.1) decode as the spec says. -/
def Obligations.SpecWordsDecode : Prop :=
  decode 0x1003000000000005 = .ok (.dpush 3 5)
  ∧ decode 0x0205000000000000 = .ok (.rdreg 5)
  ∧ decode 0x1231000000000000 = .ok (.tchar 0x31)
  ∧ decode 0x1400000200000000 = .ok (.drd 2)
  ∧ decode 0x2000000000000000 = .ok .pack
  ∧ decode 0x3100000300000080 = .ok (.bufwr 3 0x80)
  ∧ decode 0x3200004100000000 = .ok (.setlen 65)
  ∧ decode 0x4100000000000000 = .ok .unext
  ∧ decode 0x0300000000000000 = .error .undefinedOpcode
  ∧ decode 0x1021000100000000 = .error .reservedNotZero
  ∧ decode 0x3100000000000100 = .error .reservedNotZero

/-- Decode of encode is the command, for every command and every operand (30_encoding.md R91, R94, R98). -/
def Obligations.DecodeEncodeRoundTrip : Prop := ∀ i : Instr, decode (encode i) = .ok i

/-- Each word that decodes is the one word of its command: encode of decode is the word (R91, R94). -/
def Obligations.EncodeDecodeRoundTrip : Prop := ∀ (w : CmdWord) (i : Instr), decode w = .ok i → encode i = w

/-- R94: the table's masks and matches are the decoder, its rows do not overlap, and a word that matches none ends
with ERR_ILLEGAL and has no other effect. -/
def Obligations.DecodeMatchesOpcodeTable : Prop :=
  (∀ row ∈ opcodeTable, ∀ w : CmdWord,
    (∃ i, decode w = .ok i ∧ i.mnemonic = row.mnemonic) ↔ w &&& row.mask = row.pattern)
  ∧ opcodeTable.Pairwise (fun r r' => ∀ w : CmdWord, ¬ (w &&& r.mask = r.pattern ∧ w &&& r'.mask = r'.pattern))
  ∧ ∀ (s : State) (w : CmdWord), s.fault = false → (∀ row ∈ opcodeTable, w &&& row.mask ≠ row.pattern) →
      performWord w s = .next (State.reply { s with lastErr := 0x10 } 0x1000000000000000)

/-- R95: the undefined opcodes are the 242 that are not in the map. -/
def Obligations.UndefinedOpcodesAreIllegal : Prop :=
  let defined : List (BitVec 8) :=
    [0x00, 0x01, 0x02, 0x10, 0x11, 0x12, 0x13, 0x14, 0x20, 0x30, 0x31, 0x32, 0x40, 0x41]
  (∀ w : CmdWord, decode w = .error .undefinedOpcode ↔ fieldOp w ∉ defined)
  ∧ ((List.range 256).filter (fun n => BitVec.ofNat 8 n ∉ defined)).length = 242

/-! ## The step -/

/-- R97: `decode` is the first matching row, and `perform` refuses while faulted, then rejects an illegal word, then
runs the command. -/
def Obligations.PerformRule : Prop :=
  (∀ w : CmdWord, (decode w).toOption.map Instr.mnemonic =
    (opcodeTable.find? (fun row => w &&& row.mask == row.pattern)).map OpRow.mnemonic)
  ∧ ∀ (s : State) (w : CmdWord),
      ((s.fault = true ∧ ∀ r, decode w = .ok (.rdreg r) → 0x13 < r.toNat) →
        performWord w s = .next (s.reply (rspWord .faulted s.faultCode 0)))
      ∧ (¬ (s.fault = true ∧ ∀ r, decode w = .ok (.rdreg r) → 0x13 < r.toNat) →
        (∀ e, decode w = .error e →
          performWord w s = .next (State.reply { s with lastErr := 0x10 } (rspWord .errIllegal 0 0)))
        ∧ (∀ i, decode w = .ok i → performWord w s = exec i s))

/-- A step runs the decoded command (R90, R97): an idle block takes the word off the port and performs it. That the
port is a list of what the host will present is the model's own (log entry 2). -/
def Obligations.StepRunsDecodedCommand : Prop :=
  ∀ (s : State) (w : CmdWord) (rest : List HostEvent),
    s.cls.pending = none → s.host.input = .command w :: rest →
    step s = performWord w (s.withInput rest) ∧ ∀ i, decode w = .ok i → step s = exec i (s.withInput rest)

/-- 60_exceptions.md R284: idleness changes no state. The model's own part (log entries 1, 2, 4, 18): RST takes the one
event off the host's list and leaves the parameters and what the host and the classifier hold. -/
def Obligations.IdleStepChangesNothing : Prop :=
  (∀ s : State, s.cls.pending = none → s.host.input = [] → step s = .next s)
  ∧ ∀ (s t : State) (rest : List HostEvent), s.host.input = .reset :: rest → step s = .next t →
      t.host.input = rest ∧ t.cls.answers = s.cls.answers ∧ t.cls.queries = s.cls.queries ∧ t.cfg = s.cfg

/-- 70_reset_and_hazards.md R300: RST gives every piece of state its reset value, whatever is in progress, with no
response; a pending query is abandoned; the next command sees only the reset state. -/
def Obligations.ResetInputRestoresResetState : Prop :=
  ∀ (s : State) (rest : List HostEvent), s.host.input = .reset :: rest →
    ∃ t, step s = .next t ∧ t.HasResetValues ∧ t.fault = false ∧ t.faultCode = 0
      ∧ t.cls.pending = none ∧ t.host.output = s.host.output
      ∧ ∀ w rest' i, rest = .command w :: rest' → decode w = .ok i → step t = exec i (t.withInput rest')

/-- 10_state.md R37: the reset values, by reset, by RST, and by CLR for everything but FAULT and FAULTCODE, which are
0 already when CLR runs. -/
def Obligations.ResetValues : Prop :=
  (∀ p : Config.Params, (State.resetWith p).HasResetValues ∧ (State.resetWith p).fault = false
    ∧ (State.resetWith p).faultCode = 0)
  ∧ (∀ (s : State) (rest : List HostEvent), s.host.input = .reset :: rest →
      ∃ t, step s = .next t ∧ t.HasResetValues ∧ t.fault = false ∧ t.faultCode = 0)
  ∧ (∀ s : State, s.Inv → s.fault = false →
      ∃ t, exec .clr s = .next t ∧ t.HasResetValues ∧ t.fault = false ∧ t.faultCode = 0)

/-! ## Errors, faults and responses -/

/-- 60_exceptions.md R270: every command ends in a response or, for UNEXT, in a wait for the classifier; none stops
the machine, and a step never does. -/
def Obligations.EveryCommandAnswers : Prop :=
  (∀ (i : Instr) (s : State), ∃ t, exec i s = .next t
    ∧ ((∃ st aux data, t.host.output = s.host.output ++ [rspWord st aux data])
        ∨ (i = .unext ∧ t.cls.pending ≠ none ∧ t.host.output = s.host.output)))
  ∧ (∀ s : State, ∃ t, step s = .next t)

/-- 60_exceptions.md R274: while FAULT = 1 RDREG of a defined register is performed, and every other word responds
`(FAULTED, FAULTCODE, 0)` and changes no state at all; the fault bit stays until RST. -/
def Obligations.FaultedRefusesAllButRdreg : Prop :=
  ∀ s : State, s.fault = true →
    (∀ w r reg, decode w = .ok (.rdreg r) → regOfNumber r = some reg →
      performWord w s = .next (s.reply (rspWord .ok 0 (s.readReg reg))))
    ∧ (∀ w, (∀ r, decode w = .ok (.rdreg r) → 0x13 < r.toNat) →
      performWord w s = .next (s.reply (rspWord .faulted s.faultCode 0)))
    ∧ (∀ t, (∀ rest, s.host.input ≠ .reset :: rest) → step s = .next t → t.fault = true)

/-- 60_exceptions.md R277: CLR is refused while FAULT = 1, no step but RST ends a fault, and RST returns the whole block
to its reset state. -/
def Obligations.FaultLastsUntilReset : Prop :=
  ∀ s : State, s.fault = true →
    exec .clr s = .next (s.reply (rspWord .faulted s.faultCode 0))
    ∧ (∀ t, (∀ rest, s.host.input ≠ .reset :: rest) → step s = .next t → t.fault = true ∧ t.faultCode = s.faultCode)
    ∧ (∀ rest, s.host.input = .reset :: rest →
        ∃ t, step s = .next t ∧ t.fault = false ∧ t.faultCode = 0 ∧ t.HasResetValues)

/-- 60_exceptions.md R273 with 41_packer.md R167: a step that sets FAULT is a DPUSH wider than 32 or a TEND of more
than 32 digits, its fault is FAULT_WIDTH, and it changes nothing else (the bounds fault never fires). -/
def Obligations.OnlyWidthViolationsFault : Prop :=
  ∀ s t : State, s.Inv → s.fault = false → step s = .next t → t.fault = true →
    ∃ w rest info, s.host.input = .command w :: rest
      ∧ ((∃ a v, decode w = .ok (.dpush a v) ∧ 32 < a.toNat ∧ info = a.setWidth 32)
          ∨ (decode w = .ok .tend ∧ s.tAct = true ∧ s.tBad = false ∧ s.tOver = true ∧ info = 33))
      ∧ t = State.reply { s.withInput rest with fault := true, faultCode := 0x20, lastErr := 0x20 }
          (rspWord .faultWidth 0x20 info)

/-- 10_state.md R23: LASTERR is the code of the last error or fault since reset or CLR; OK, END and FAULTED leave it. -/
def Obligations.LastErrRecordsErrors : Prop :=
  (∀ (s t : State) (w : CmdWord) (rest : List HostEvent),
    s.cls.pending = none → s.host.input = .command w :: rest → step s = .next t →
    (t.host.output = s.host.output → t.lastErr = s.lastErr)
    ∧ ∀ r, t.host.output = s.host.output ++ [r] →
        (0x10 ≤ (r.extractLsb' 56 8).toNat ∧ (r.extractLsb' 56 8).toNat ≤ 0x21 → t.lastErr = r.extractLsb' 56 8)
        ∧ ((r.extractLsb' 56 8 = 0x00 ∨ r.extractLsb' 56 8 = 0x01) → decode w ≠ .ok .clr → t.lastErr = s.lastErr)
        ∧ (decode w = .ok .clr → r.extractLsb' 56 8 = 0x00 → t.lastErr = 0)
        ∧ (r.extractLsb' 56 8 = 0x3F → t.lastErr = s.lastErr))
  ∧ (∀ s t : State, s.cls.pending ≠ none → (∀ rest, s.host.input ≠ .reset :: rest) → step s = .next t →
      t.lastErr = s.lastErr)
  ∧ (∀ (s t : State) (rest : List HostEvent), s.host.input = .reset :: rest → step s = .next t → t.lastErr = 0)

/-- 30_encoding.md R90: the block takes one word and returns exactly one response word, at once or, for a UNEXT that
waits for the classifier, when it completes. -/
def Obligations.OneResponsePerCommand : Prop :=
  (∀ (s t : State) (w : CmdWord) (rest : List HostEvent),
    s.cls.pending = none → s.host.input = .command w :: rest → step s = .next t →
    t.host.input = rest
    ∧ ((t.cls.pending = none ∧ ∃ r, t.host.output = s.host.output ++ [r])
        ∨ (decode w = .ok .unext ∧ t.cls.pending ≠ none ∧ t.host.output = s.host.output)))
  ∧ (∀ s t : State, s.cls.pending ≠ none → (∀ rest, s.host.input ≠ .reset :: rest) → step s = .next t →
      t.host.input = s.host.input
      ∧ ((t.cls.pending = none ∧ ∃ r, t.host.output = s.host.output ++ [r])
          ∨ (t.cls.pending ≠ none ∧ t.host.output = s.host.output)))

/-- 60_exceptions.md R271 "No other code is ever returned" and 30_encoding.md R92: a response's ST is one of the ten
codes, and its bits 47:32 are 0. -/
def Obligations.ResponsesHaveListedStatus : Prop :=
  ∀ s t : State, step s = .next t →
    t.host.output = s.host.output
    ∨ ∃ r, t.host.output = s.host.output ++ [r] ∧ r.extractLsb' 32 16 = 0
        ∧ r.extractLsb' 56 8 ∈ [0x00#8, 0x01#8, 0x10#8, 0x11#8, 0x12#8, 0x13#8, 0x14#8, 0x20#8, 0x21#8, 0x3F#8]

/-! ## Invariants -/

/-- The invariant holds at reset, whatever the parameters (10_state.md R37). -/
def Obligations.InvariantAtReset : Prop := ∀ p : Config.Params, (State.resetWith p).Inv

/-- Every step keeps the invariant (10_state.md R22-R33). -/
def Obligations.StepKeepsInvariant : Prop := ∀ s t : State, s.Inv → step s = .next t → t.Inv

/-- Every step keeps the memories' canonical form, in every state that has it. -/
def Obligations.StepKeepsMemoriesCanonical : Prop :=
  ∀ s t : State, s.buf.wf = true → s.uBuf.wf = true → s.desc.wf = true → step s = .next t →
    t.buf.wf = true ∧ t.uBuf.wf = true ∧ t.desc.wf = true

/-- 10_state.md R34: the configuration registers read the parameters, always, and nothing writes them. -/
def Obligations.ParametersAreConstant : Prop :=
  (∀ s t : State, step s = .next t → t.cfg = s.cfg)
  ∧ ∀ s : State,
      exec (.rdreg 0x11) s = .next (s.reply (rspWord .ok 0 (BitVec.ofNat 32 s.cfg.descMax)))
      ∧ exec (.rdreg 0x12) s = .next (s.reply (rspWord .ok 0 (BitVec.ofNat 32 s.cfg.bufUnits)))
      ∧ exec (.rdreg 0x13) s = .next (s.reply (rspWord .ok 0 (BitVec.ofNat 32 s.cfg.tW)))

/-- 10_state.md R27: after any step, units at or above BLEN hold 0. -/
def Obligations.UnitsBeyondLengthAreZero : Prop :=
  ∀ s t : State, s.Inv → step s = .next t → ∀ a, t.bLen.toNat ≤ a → t.buf.read a = 0

/-- 20_memory.md R68: BUFRD, DRD and RDREG change nothing but the response; a response with an error code leaves that
code in LASTERR (60_exceptions.md R272), and any other response, OK or FAULTED, leaves LASTERR (10_state.md R23). BUFWR
is idempotent. -/
def Obligations.ReadsHaveNoSideEffect : Prop :=
  (∀ (s t : State) (i : Instr), ((∃ x, i = .bufrd x) ∨ (∃ x, i = .drd x) ∨ (∃ r, i = .rdreg r)) →
    exec i s = .next t → ∃ r e, t = State.reply { s with lastErr := e } r
      ∧ e = if 0x10 ≤ (r.extractLsb' 56 8).toNat ∧ (r.extractLsb' 56 8).toNat ≤ 0x1F then r.extractLsb' 56 8
          else s.lastErr)
  ∧ ∀ (s t u : State) (x : BitVec 16) (b : Byte), s.buf.wf = true → exec (.bufwr x b) s = .next t →
      exec (.bufwr x b) t = .next u → u.buf = t.buf

/-- 40_descriptor.md R137: no step reorders, removes or changes an appended entry; only PACK, CLR and RST empty the
table. -/
def Obligations.TableEntriesAreImmutable : Prop :=
  ∀ s t : State, s.Inv → step s = .next t →
    (s.dCount.toNat ≤ t.dCount.toNat ∧ ∀ k, k < s.dCount.toNat → t.desc.read k = s.desc.read k)
    ∨ (t.dCount = 0 ∧ (∀ k, t.desc.read k = ⟨0, 0⟩)
        ∧ ((∃ rest, s.host.input = .reset :: rest)
            ∨ ∃ w rest, s.host.input = .command w :: rest ∧ (decode w = .ok .pack ∨ decode w = .ok .clr)))

/-! ## Control commands -/

/-- 44_control.md R250: OK and no other effect; the all-zero word is NOP; refused while FAULT = 1. -/
def Obligations.NopRule : Prop :=
  decode 0x0000000000000000 = .ok .nop
  ∧ (∀ w : CmdWord, decode w = .ok .nop → w = 0)
  ∧ ∀ s : State,
      (s.fault = false → exec .nop s = .next (s.reply 0x0000000000000000))
      ∧ (s.fault = true → exec .nop s = .next (s.reply (rspWord .faulted s.faultCode 0)))

/-- 44_control.md R251: every piece of state of R37 but FAULT and FAULTCODE takes its reset value; while FAULT = 1 it
is refused. -/
def Obligations.ClrRule : Prop :=
  (∀ w : CmdWord, decode w = .ok .clr ↔ w = 0x0100000000000000)
  ∧ ∀ s : State,
      (s.fault = false →
        ∃ t, exec .clr s = .next t ∧ t.HasResetValues ∧ t.fault = s.fault ∧ t.faultCode = s.faultCode
          ∧ t.host.output = s.host.output ++ [0])
      ∧ (s.fault = true → exec .clr s = .next (s.reply (rspWord .faulted s.faultCode 0)))

/-- 44_control.md R252 with the register map of 10_state.md R35. -/
def Obligations.RdregRule : Prop :=
  (∀ w : CmdWord, w &&& 0xFF00FFFFFFFFFFFF = 0x0200000000000000 ↔ decode w = .ok (.rdreg (fieldA w)))
  ∧ (∀ s : State, ∀ e ∈ ([
        (0x00, s.statusWord), (0x01, s.lastErr.setWidth 32), (0x02, s.faultCode.setWidth 32),
        (0x03, s.dCount.setWidth 32), (0x04, s.bLen.setWidth 32), (0x05, s.pBits), (0x06, s.pCurUnit.setWidth 32),
        (0x07, s.pCurOff.setWidth 32), (0x08, s.tLen.setWidth 32), (0x09, s.tVal), (0x0A, s.uLen.setWidth 32),
        (0x0B, s.uCurUnit.setWidth 32), (0x0C, s.uCurOff.setWidth 32), (0x0D, s.patLen.setWidth 32),
        (0x0E, BitVec.ofNat 32 (s.patVal % 2 ^ 32)), (0x0F, s.uDiscard.setWidth 32), (0x10, s.uCount.setWidth 32),
        (0x11, BitVec.ofNat 32 s.cfg.descMax), (0x12, BitVec.ofNat 32 s.cfg.bufUnits),
        (0x13, BitVec.ofNat 32 s.cfg.tW)] : List (BitVec 8 × Val)),
      exec (.rdreg e.1) s = .next (s.reply (rspWord .ok 0 e.2)))
  ∧ ∀ (s : State) (r : BitVec 8), 0x13 < r.toNat →
      (s.fault = false → exec (.rdreg r) s = .next (State.reply { s with lastErr := 0x10 } (rspWord .errIllegal 0 0)))
      ∧ (s.fault = true → exec (.rdreg r) s = .next (s.reply (rspWord .faulted s.faultCode 0)))

/-- 10_state.md R36: the bits of STATUS. -/
def Obligations.StatusWordFields : Prop :=
  ∀ s : State,
    s.statusWord.getLsbD 0 = s.fault ∧ s.statusWord.getLsbD 1 = s.tAct ∧ s.statusWord.getLsbD 2 = s.tBad
    ∧ s.statusWord.getLsbD 3 = s.tOver ∧ (s.statusWord.getLsbD 4 = true ↔ s.uState = .scanning)
    ∧ ∀ k, 5 ≤ k → s.statusWord.getLsbD k = false

/-! ## Descriptor input -/

/-- 40_descriptor.md R131: FAULT_WIDTH, then ERR_CAPACITY, else the entry `DESC[DCOUNT]` is `(A[5:0], V)`. -/
def Obligations.DpushRule : Prop :=
  (∀ x : CmdWord, x &&& 0xFF00FFFF00000000 = 0x1000000000000000 ↔ decode x = .ok (.dpush (fieldA x) (fieldV x)))
  ∧ ∀ (s : State) (w : BitVec 8) (v : Val), s.fault = false → s.desc.wf = true →
      (32 < w.toNat →
        exec (.dpush w v) s = .next (State.reply { s with fault := true, faultCode := 0x20, lastErr := 0x20 }
          (rspWord .faultWidth 0x20 (w.setWidth 32))))
      ∧ (w.toNat ≤ 32 → s.dCount.toNat = s.cfg.descMax →
        exec (.dpush w v) s = .next (State.reply { s with lastErr := 0x12 }
          (rspWord .errCapacity 0 (s.dCount.setWidth 32))))
      ∧ (w.toNat ≤ 32 → s.dCount.toNat ≠ s.cfg.descMax →
        ∃ tbl : DescTable,
          exec (.dpush w v) s = .next (State.reply { s with desc := tbl, dCount := s.dCount + 1 }
            (rspWord .ok 0 (s.dCount.setWidth 32)))
          ∧ tbl.read s.dCount.toNat = ⟨w.setWidth 6, v⟩ ∧ ∀ k, k ≠ s.dCount.toNat → tbl.read k = s.desc.read k)

/-- 40_descriptor.md R132: a text opens, whatever was open before. -/
def Obligations.TbeginRule : Prop :=
  (∀ w : CmdWord, decode w = .ok .tbegin ↔ w = 0x1100000000000000)
  ∧ ∀ s : State, s.fault = false →
      exec .tbegin s = .next (State.reply { s with tAct := true, tLen := 0, tVal := 0, tBad := false, tOver := false } 0)

/-- 40_descriptor.md R133: ERR_SEQ with no text open; a digit shifts in, or sets TOVER after 32; another code sets TBAD. -/
def Obligations.TcharRule : Prop :=
  (∀ w : CmdWord, w &&& 0xFF00FFFFFFFFFFFF = 0x1200000000000000 ↔ decode w = .ok (.tchar (fieldA w)))
  ∧ ∀ (s : State) (c : BitVec 8), s.fault = false →
      (s.tAct = false →
        exec (.tchar c) s = .next (State.reply { s with lastErr := 0x14 } (rspWord .errSeq 0 0)))
      ∧ (s.tAct = true → (c = 0x30 ∨ c = 0x31) → s.tLen.toNat = 32 →
        exec (.tchar c) s = .next (State.reply { s with tOver := true } 0))
      ∧ (s.tAct = true → (c = 0x30 ∨ c = 0x31) → s.tLen.toNat ≠ 32 →
        exec (.tchar c) s = .next (State.reply
          { s with tVal := (s.tVal <<< 1) ||| (c - 0x30).setWidth 32, tLen := s.tLen + 1 } 0))
      ∧ (s.tAct = true → c ≠ 0x30 → c ≠ 0x31 →
        exec (.tchar c) s = .next (State.reply { s with tBad := true } 0))

/-- 40_descriptor.md R134: ERR_SEQ, then ERR_MALFORMED, then FAULT_WIDTH, then ERR_CAPACITY, else the text's entry. -/
def Obligations.TendRule : Prop :=
  (∀ w : CmdWord, decode w = .ok .tend ↔ w = 0x1300000000000000)
  ∧ ∀ s : State, s.fault = false → s.desc.wf = true →
      (s.tAct = false → exec .tend s = .next (State.reply { s with lastErr := 0x14 } (rspWord .errSeq 0 0)))
      ∧ (s.tAct = true → s.tBad = true →
        exec .tend s = .next (State.reply
          { s with lastErr := 0x11, tAct := false, tLen := 0, tVal := 0, tBad := false, tOver := false }
          (rspWord .errMalformed 0 0)))
      ∧ (s.tAct = true → s.tBad = false → s.tOver = true →
        exec .tend s = .next (State.reply { s with fault := true, faultCode := 0x20, lastErr := 0x20 }
          (rspWord .faultWidth 0x20 33)))
      ∧ (s.tAct = true → s.tBad = false → s.tOver = false → s.dCount.toNat = s.cfg.descMax →
        exec .tend s = .next (State.reply
          { s with lastErr := 0x12, tAct := false, tLen := 0, tVal := 0, tBad := false, tOver := false }
          (rspWord .errCapacity 0 (s.dCount.setWidth 32))))
      ∧ (s.tAct = true → s.tBad = false → s.tOver = false → s.dCount.toNat ≠ s.cfg.descMax →
        ∃ tbl : DescTable,
          exec .tend s = .next (State.reply
            { s with
              desc := tbl, dCount := s.dCount + 1
              tAct := false, tLen := 0, tVal := 0, tBad := false, tOver := false }
            (rspWord .ok 0 (s.dCount.setWidth 32)))
          ∧ tbl.read s.dCount.toNat = ⟨s.tLen, s.tVal⟩ ∧ ∀ k, k ≠ s.dCount.toNat → tbl.read k = s.desc.read k)

/-- 40_descriptor.md R135: the entry's width and value as stored; ERR_RANGE at or above DCOUNT. -/
def Obligations.DrdRule : Prop :=
  (∀ w : CmdWord, w &&& 0xFFFF0000FFFFFFFF = 0x1400000000000000 ↔ decode w = .ok (.drd (fieldB w)))
  ∧ ∀ (s : State) (idx : BitVec 16), s.fault = false →
      (s.dCount.toNat ≤ idx.toNat →
        exec (.drd idx) s = .next (State.reply { s with lastErr := 0x13 } (rspWord .errRange 0 (idx.setWidth 32))))
      ∧ (idx.toNat < s.dCount.toNat →
        exec (.drd idx) s = .next (s.reply
          (rspWord .ok ((s.desc.read idx.toNat).w.setWidth 8) (s.desc.read idx.toNat).v)))

/-- 40_descriptor.md R130 through DBITS (30_encoding.md R99): for a bit string of at most 32 bits the one command
appends `from_bit_sequence` of it, and a width above 32 (an 8-bit field holds up to 255) is the fault. -/
def Obligations.BitSequencePushesItsDescriptor : Prop :=
  ∀ (s : State) (bits : List Bool), s.fault = false →
    (bits.length ≤ 32 → s.dCount.toNat ≠ s.cfg.descMax →
      ∃ d i, fromBitSequence bits = some d ∧ d.w.toNat = bits.length ∧ d.v.toNat = bitsVal bits
        ∧ dbits bits = [i]
        ∧ exec i s = .next (State.reply
            { s with desc := s.desc.write s.dCount.toNat d, dCount := s.dCount + 1 }
            (rspWord .ok 0 (s.dCount.setWidth 32))))
    ∧ (32 < bits.length → bits.length ≤ 255 →
      fromBitSequence bits = none ∧ ∀ v : Val,
        exec (.dpush (BitVec.ofNat 8 bits.length) v) s = .next (State.reply
          { s with fault := true, faultCode := 0x20, lastErr := 0x20 }
          (rspWord .faultWidth 0x20 (BitVec.ofNat 32 bits.length))))

/-- 40_descriptor.md R136: TBEGIN, the characters, TEND is the source's `from_text`: (a) binary digits, at most 32:
one descriptor `(n, val(s))` (the table not being full); (b) another character anywhere: ERR_MALFORMED, nothing
appended; (c) more than 32 binary digits: FAULT_WIDTH. -/
def Obligations.TextPathEqualsFromText : Prop :=
  ∀ (s : State) (codes : List (BitVec 8)) (rest : List HostEvent),
    s.fault = false → s.cls.pending = none → s.host.input = commandsOf (dtextCodes codes) ++ rest →
    ∃ t, Host.Core.run Sys2Proof.core (codes.length + 2) s = .next t
      ∧ t.host.input = rest
      ∧ (∀ bits : List Bool, codes = bits.map (fun b => if b then 0x31 else 0x30) → bits.length ≤ 32 →
          s.dCount.toNat ≠ s.cfg.descMax →
          t.desc = s.desc.write s.dCount.toNat ⟨BitVec.ofNat 6 bits.length, BitVec.ofNat 32 (bitsVal bits)⟩
          ∧ t.dCount = s.dCount + 1 ∧ t.fault = false ∧ t.tAct = false
          ∧ t.host.output = s.host.output ++ List.replicate (codes.length + 1) (rspWord .ok 0 0)
              ++ [rspWord .ok 0 (s.dCount.setWidth 32)])
      ∧ ((∃ c ∈ codes, c ≠ 0x30 ∧ c ≠ 0x31) →
          t.desc = s.desc ∧ t.dCount = s.dCount ∧ t.fault = false ∧ t.tAct = false
          ∧ t.host.output = s.host.output ++ List.replicate (codes.length + 1) (rspWord .ok 0 0)
              ++ [rspWord .errMalformed 0 0])
      ∧ (∀ bits : List Bool, codes = bits.map (fun b => if b then 0x31 else 0x30) → 32 < bits.length →
          t.desc = s.desc ∧ t.dCount = s.dCount ∧ t.fault = true ∧ t.faultCode = 0x20
          ∧ t.host.output = s.host.output ++ List.replicate (codes.length + 1) (rspWord .ok 0 0)
              ++ [rspWord .faultWidth 0x20 33])

/-! ## The packer -/

/-- 41_packer.md R160 and R169: PACK completes in every state of the invariant, sizes the buffer as
`(total + 7) div 8` units, which it always holds, leaves the cursor at `(total div 8, total mod 8)`, and empties the
table. -/
def Obligations.PackSizesAndCompletes : Prop :=
  ∀ s : State, s.Inv → s.fault = false →
    let total := (s.descriptors.map (fun d => d.w.toNat)).sum
    let size := (total + 7) / 8
    size ≤ 4 * s.cfg.descMax ∧ size ≤ s.cfg.bufUnits ∧ (total / 8 = size ↔ total % 8 = 0)
    ∧ ∃ m : Memory, m.wf = true ∧
        exec .pack s = .next (State.reply
          { s with
            buf := m, bLen := BitVec.ofNat 16 size, pBits := BitVec.ofNat 32 total
            pCurUnit := BitVec.ofNat 16 (total / 8), pCurOff := BitVec.ofNat 3 (total % 8), desc := [], dCount := 0 }
          (rspWord .ok 0 (BitVec.ofNat 32 size)))

/-- 41_packer.md R168, the round-trip identity: after PACK the stream of the buffer is the concatenation of the
descriptors' bit strings, padded with zeros; so are the concatenated printouts of its units. -/
def Obligations.PackRoundTripIdentity : Prop :=
  ∀ s : State, s.Inv → s.fault = false →
    ∃ t, exec .pack s = .next t ∧ s.tableBits.length ≤ 8 * t.bLen.toNat
      ∧ (∀ k, k < 8 * t.bLen.toNat →
          t.buf.streamBit k = (s.tableBits ++ List.replicate (8 * t.bLen.toNat - s.tableBits.length) false).getD k false)
      ∧ (List.range t.bLen.toNat).flatMap (fun u => bitsOf 8 (t.buf.read u).toNat)
          = s.tableBits ++ List.replicate (8 * t.bLen.toNat - s.tableBits.length) false

/-- 41_packer.md R170: two tables with the same widths and the same values modulo `2^W` pack to the same buffer: bits
above `W-1` reach no unit. -/
def Obligations.PackUsesLowBitsOnly : Prop :=
  ∀ s s' t t' : State, s.Inv → s'.Inv → s.fault = false → s'.fault = false →
    s'.descriptors.map (fun d => (d.w, d.v.toNat % 2 ^ d.w.toNat))
      = s.descriptors.map (fun d => (d.w, d.v.toNat % 2 ^ d.w.toNat)) →
    exec .pack s = .next t → exec .pack s' = .next t' → t'.buf = t.buf ∧ t'.bLen = t.bLen

/-- 41_packer.md R166: a field of width `n` at offset `co` needs at most `ceil((co + n) / 8)` steps of the write loop
(which is at most `ceil(n / 8) + 1`). -/
def Obligations.WriteLoopStepBound : Prop :=
  ∀ (bLen n : Nat) (v : Val) (c : Cursor) (m : Memory), c.off < 8 →
    writeField bLen v ((c.off + n + 7) / 8) n c m = writeField bLen v n n c m
    ∧ (c.off + n + 7) / 8 ≤ (n + 7) / 8 + 1

/-! ## Buffer access -/

/-- 42_buffer.md R191: the unit; ERR_RANGE at or above BLEN. -/
def Obligations.BufrdRule : Prop :=
  (∀ w : CmdWord, w &&& 0xFFFF0000FFFFFFFF = 0x3000000000000000 ↔ decode w = .ok (.bufrd (fieldB w)))
  ∧ ∀ (s : State) (idx : BitVec 16), s.fault = false →
      (s.bLen.toNat ≤ idx.toNat →
        exec (.bufrd idx) s = .next (State.reply { s with lastErr := 0x13 } (rspWord .errRange 0 (idx.setWidth 32))))
      ∧ (idx.toNat < s.bLen.toNat →
        exec (.bufrd idx) s = .next (s.reply (rspWord .ok 0 ((s.buf.read idx.toNat).setWidth 32))))

/-- 42_buffer.md R192: the unit is assigned, every other unit is as before. -/
def Obligations.BufwrRule : Prop :=
  (∀ w : CmdWord, w &&& 0xFFFF0000FFFFFF00 = 0x3100000000000000 ↔ decode w = .ok (.bufwr (fieldB w) (fieldVLow w)))
  ∧ ∀ (s : State) (idx : BitVec 16) (u : Byte), s.fault = false → s.buf.wf = true →
      (s.bLen.toNat ≤ idx.toNat →
        exec (.bufwr idx u) s = .next (State.reply { s with lastErr := 0x13 } (rspWord .errRange 0 (idx.setWidth 32))))
      ∧ (idx.toNat < s.bLen.toNat →
        ∃ m : Memory, exec (.bufwr idx u) s = .next (State.reply { s with buf := m } 0)
          ∧ m.read idx.toNat = u ∧ ∀ a, a ≠ idx.toNat → m.read a = s.buf.read a)

/-- 42_buffer.md R193: every unit is 0 and BLEN is the length. -/
def Obligations.SetlenRule : Prop :=
  (∀ w : CmdWord, w &&& 0xFFFF0000FFFFFFFF = 0x3200000000000000 ↔ decode w = .ok (.setlen (fieldB w)))
  ∧ ∀ (s : State) (n : BitVec 16), s.fault = false →
      (s.cfg.bufUnits < n.toNat →
        exec (.setlen n) s = .next (State.reply { s with lastErr := 0x13 } (rspWord .errRange 0 (n.setWidth 32))))
      ∧ (n.toNat ≤ s.cfg.bufUnits →
        ∃ m : Memory, exec (.setlen n) s = .next (State.reply { s with buf := m, bLen := n } 0)
          ∧ (∀ a, a < s.cfg.bufUnits → m.read a = 0) ∧ ∀ a, s.cfg.bufUnits ≤ a → m.read a = s.buf.read a)

/-- BUFLOAD (30_encoding.md R99) loads a buffer: after SETLEN and the BUFWRs, BLEN is the length and unit `j` is
`b_j`. -/
def Obligations.BufloadLoadsTheBuffer : Prop :=
  ∀ (s : State) (bs : List Byte) (rest : List HostEvent),
    s.Inv → s.fault = false → s.cls.pending = none → bs.length ≤ s.cfg.bufUnits →
    s.host.input = commandsOf (bufload bs) ++ rest →
    ∃ t, Host.Core.run Sys2Proof.core (bs.length + 1) s = .next t
      ∧ t.bLen.toNat = bs.length ∧ (∀ j, t.buf.read j = bs.getD j 0) ∧ t.host.input = rest

/-! ## The unpacker -/

/-- 43_unpacker.md R212: UBUF's units below BLEN are BUF's, the others keep their contents. -/
def Obligations.UopenRule : Prop :=
  (∀ w : CmdWord, decode w = .ok .uopen ↔ w = 0x4000000000000000)
  ∧ ∀ s : State, s.fault = false → s.uBuf.wf = true →
      ∃ m : Memory, (∀ a, a < s.bLen.toNat → m.read a = s.buf.read a)
        ∧ (∀ a, s.bLen.toNat ≤ a → m.read a = s.uBuf.read a)
        ∧ exec .uopen s = .next (State.reply
            { s with
              uBuf := m, uLen := s.bLen, uCurUnit := 0, uCurOff := 0, patLen := 0, patVal := 0
              uState := .scanning, uDiscard := 0, uCount := 0 }
            (rspWord .ok 0 (s.bLen.setWidth 32)))

/-- 43_unpacker.md R219: once Exhausted, UNEXT responds END, makes no query and changes nothing; only UOPEN makes the
unpacker Scanning; CLR and RST leave it Exhausted. -/
def Obligations.ExhaustedStaysExhausted : Prop :=
  (∀ s : State, s.fault = false → s.uState = .exhausted →
    exec .unext s = .next (s.reply 0x0100000000000000))
  ∧ (∀ s t : State, s.Inv → s.uState = .exhausted → step s = .next t → t.uState = .scanning →
      ∃ w rest, s.host.input = .command w :: rest ∧ decode w = .ok .uopen)
  ∧ (∀ s t : State, s.fault = false → exec .clr s = .next t → t.uState = .exhausted)
  ∧ (∀ (s t : State) (rest : List HostEvent), s.host.input = .reset :: rest → step s = .next t → t.uState = .exhausted)

/-- 43_unpacker.md R215: with no bit left before a bit is read, the session ends with no query, and UDISCARD is 0. -/
def Obligations.UnextEndsWithNoBitLeft : Prop :=
  ∀ s : State, s.Inv → s.fault = false → s.cls.pending = none → s.uState = .scanning → s.uCurUnit = s.uLen →
    exec .unext s = .next (State.reply { s with uState := .exhausted } 0x0100000000000000)
    ∧ s.uDiscard = 0 ∧ s.patLen = 0

/-- 43_unpacker.md R213, R214, R217: when the classifier does not match the first answers and matches the next, UNEXT
reads one bit for each, queries every prefix in stream order, yields the value and empties the pattern. That a wider `t` is cut to T_W bits is
the model's reading of the port (log entry 6, DEDUCED). -/
def Obligations.UnextEmitsTheMatch : Prop :=
  ∀ (s : State) (misses : List ClsAnswer) (a : ClsAnswer) (rest : List ClsAnswer),
    s.Inv → s.fault = false → s.cls.pending = none → s.uState = .scanning →
    s.cls.answers = misses ++ a :: rest → (∀ x ∈ misses, x.isMatch = false) → a.isMatch = true →
    misses.length < s.restOfStream.length →
    ∃ t, exec .unext s = .next t
      ∧ t.host.output = s.host.output ++ [rspWord .ok 0 (BitVec.ofNat 32 (a.t.toNat % 2 ^ s.cfg.tW))]
      ∧ t.uState = .scanning ∧ t.decodeCursor.position = s.decodeCursor.position + misses.length + 1
      ∧ t.patLen = 0 ∧ t.patVal = 0 ∧ t.uCount = s.uCount + 1 ∧ t.uDiscard = s.uDiscard
      ∧ t.cls.answers = rest ∧ t.cls.pending = none
      ∧ t.cls.queries = s.cls.queries ++ (List.range (misses.length + 1)).map
          (fun k => ⟨BitVec.ofNat 20 (k + 1), bitsVal (s.restOfStream.take (k + 1))⟩)

/-- 43_unpacker.md R216, R218: when the classifier matches none of the prefixes of what is left, UNEXT reads it all,
ends with END, and UDISCARD is the length of the discarded tail. -/
def Obligations.UnextExhaustsTheStream : Prop :=
  ∀ (s : State) (misses rest : List ClsAnswer),
    s.Inv → s.fault = false → s.cls.pending = none → s.uState = .scanning →
    s.cls.answers = misses ++ rest → (∀ x ∈ misses, x.isMatch = false) → misses.length = s.restOfStream.length →
    ∃ t, exec .unext s = .next t
      ∧ t.host.output = s.host.output ++ [0x0100000000000000]
      ∧ t.uState = .exhausted ∧ t.uCurUnit = s.uLen ∧ t.uCurOff = 0
      ∧ t.patLen = 0 ∧ t.patVal = 0 ∧ t.uCount = s.uCount ∧ t.uDiscard.toNat = misses.length
      ∧ t.cls.answers = rest ∧ t.cls.pending = none
      ∧ t.cls.queries = s.cls.queries ++ (List.range misses.length).map
          (fun k => ⟨BitVec.ofNat 20 (k + 1), bitsVal (s.restOfStream.take (k + 1))⟩)

/-- 43_unpacker.md R210 and 70_reset_and_hazards.md R305: when the classifier falls silent before a match and before
the end, UNEXT waits with its query pending and gives no response. -/
def Obligations.UnextWaitsForTheClassifier : Prop :=
  ∀ s : State, s.Inv → s.fault = false → s.cls.pending = none → s.uState = .scanning →
    (∀ x ∈ s.cls.answers, x.isMatch = false) → s.cls.answers.length < s.restOfStream.length →
    ∃ t, exec .unext s = .next t ∧ t.host = s.host ∧ t.uState = .scanning ∧ t.cls.answers = []
      ∧ t.cls.pending = some ⟨BitVec.ofNat 20 (s.cls.answers.length + 1),
          bitsVal (s.restOfStream.take (s.cls.answers.length + 1))⟩
      ∧ t.decodeCursor.position = s.decodeCursor.position + s.cls.answers.length + 1

/-- 70_reset_and_hazards.md R305: a classifier that never answers leaves the block stuck, however many steps pass,
whatever commands the host would present; RST ends it. -/
def Obligations.SilentClassifierHangsUntilReset : Prop :=
  (∀ (s : State) (n : Nat), s.cls.pending ≠ none → s.cls.answers = [] → (∀ rest, s.host.input ≠ .reset :: rest) →
    Host.Core.run Sys2Proof.core n s = .next s)
  ∧ (∀ (s : State) (rest : List HostEvent), s.cls.pending ≠ none → s.host.input = .reset :: rest →
      ∃ t, step s = .next t ∧ t.cls.pending = none ∧ t.host.output = s.host.output ∧ t.HasResetValues
        ∧ t.fault = false ∧ t.faultCode = 0)

/-- 43_unpacker.md R210, R213: it makes no difference when answers come. A UNEXT that waited and then gets the answers
`late` does what it would have done with them there from the start. The lists of answers are the model's (log entry 4). -/
def Obligations.LateAnswersChangeNothing : Prop :=
  ∀ (s t : State) (early late : List ClsAnswer),
    s.fault = false → s.cls.pending = none → s.uState = .scanning → (∀ rest, s.host.input ≠ .reset :: rest) →
    exec .unext { s with cls := { s.cls with answers := early } } = .next t → t.cls.pending ≠ none → late ≠ [] →
    step { t with cls := { t.cls with answers := late } }
      = exec .unext { s with cls := { s.cls with answers := early ++ late } }

/-- 43_unpacker.md R214, R221 and 20_memory.md R72: a UNEXT's queries are one a bit, after those made before, and
never beyond the snapshot. -/
def Obligations.OneQueryPerBit : Prop :=
  ∀ s t : State, s.Inv → s.fault = false → s.cls.pending = none → exec .unext s = .next t →
    ∃ qs : List ClsQuery, t.cls.queries = s.cls.queries ++ qs
      ∧ t.decodeCursor.position = s.decodeCursor.position + qs.length
      ∧ t.decodeCursor.position ≤ 8 * s.uLen.toNat

/-- 43_unpacker.md R222, under CLS_PURE: with a classifier function `C`, UNEXT after UNEXT yields the values of the
greedy shortest-prefix segmentation of the rest of the stream, in order, and then END, with UDISCARD the length of the
discarded tail. The answers as a list of data and the cut of `t` to T_W bits are the model's (log entries 4, 6). -/
def Obligations.DecodedSequenceIsGreedySegmentation : Prop :=
  ∀ (C : Classifier) (s : State) (ts : List Val) (tail : Nat) (more : List ClsAnswer) (rest : List HostEvent),
    s.Inv → s.fault = false → s.cls.pending = none → s.uState = .scanning →
    s.cls.answers = C.answersOn 0 0 s.restOfStream ++ more →
    Segmentation C s.restOfStream 0 ts tail →
    s.host.input = commandsOf (drain (ts.length + 1)) ++ rest →
    ∃ t, Host.Core.run Sys2Proof.core (ts.length + 1) s = .next t
      ∧ t.host.output = s.host.output
          ++ ts.map (fun v => rspWord .ok 0 (BitVec.ofNat 32 (v.toNat % 2 ^ s.cfg.tW))) ++ [rspWord .endOfSeq 0 0]
      ∧ t.uState = .exhausted ∧ t.uDiscard.toNat = tail ∧ t.uCount = s.uCount + BitVec.ofNat 20 ts.length
      ∧ t.cls.answers = more ∧ t.host.input = rest

/-- 20_memory.md R76: a session reads only its snapshot. PACK, BUFWR and SETLEN change neither the snapshot nor the
session, and what UNEXT answers depends on nothing but them, the classifier and T_W. -/
def Obligations.SessionReadsOnlyItsSnapshot : Prop :=
  (∀ (s t : State) (i : Instr), (i = .pack ∨ (∃ x b, i = .bufwr x b) ∨ (∃ n, i = .setlen n)) → exec i s = .next t →
    s.SameSnapshot t ∧ s.SameSession t)
  ∧ ∀ s s' t : State, s.SameSnapshot s' → s.SameSession s' → s'.cls = s.cls → s'.cfg = s.cfg →
      s.fault = false → s'.fault = false → s'.host.output = s.host.output → exec .unext s = .next t →
      ∃ t', exec .unext s' = .next t' ∧ t.SameSession t' ∧ t'.cls = t.cls ∧ t'.host.output = t.host.output

/-! ## Frames: what a command leaves unchanged when it answers a next state -/

/-- Descriptor input (40_descriptor.md R131-R135): DPUSH and TEND write one table entry, DESC[DCOUNT], and DCOUNT;
TBEGIN, TCHAR and TEND write the text accumulator; DPUSH and TEND alone may set the fault. Nothing else changes. -/
def Obligations.FrameDescriptorCommands : Prop :=
  ∀ s t : State, s.desc.wf = true →
    (∀ i : Instr, ((∃ w v, i = .dpush w v) ∨ i = .tbegin ∨ (∃ c, i = .tchar c) ∨ i = .tend ∨ (∃ x, i = .drd x)) →
      exec i s = .next t →
      s.SameBuffer t ∧ s.SamePacker t ∧ s.SameSnapshot t ∧ s.SameSession t ∧ s.SameOutside t ∧ t.freeSeq = s.freeSeq
      ∧ ∀ k, k ≠ s.dCount.toNat → t.desc.read k = s.desc.read k)
    ∧ (∀ w v, exec (.dpush w v) s = .next t → s.SameText t ∧ (w.toNat ≤ 32 → s.SameFault t))
    ∧ (exec .tbegin s = .next t → s.SameTable t ∧ s.SameFault t ∧ t.lastErr = s.lastErr)
    ∧ (∀ c, exec (.tchar c) s = .next t → s.SameTable t ∧ s.SameFault t ∧ t.tAct = s.tAct)
    ∧ (exec .tend s = .next t → (s.tOver = false ∨ s.tBad = true ∨ s.tAct = false) → s.SameFault t)
    ∧ (∀ x, exec (.drd x) s = .next t → s.SameTable t ∧ s.SameText t ∧ s.SameFault t)

/-- Buffer access (42_buffer.md R191-R193): BUFRD stores nothing; BUFWR stores to the one unit its index operand
names, and only below BLEN; SETLEN stores to the units below BUF_UNITS, and to BLEN. Nothing else changes. -/
def Obligations.FrameBufferCommands : Prop :=
  ∀ s t : State, s.buf.wf = true →
    (∀ i : Instr, ((∃ x, i = .bufrd x) ∨ (∃ x b, i = .bufwr x b) ∨ (∃ n, i = .setlen n)) → exec i s = .next t →
      s.SameFault t ∧ s.SameTable t ∧ s.SameText t ∧ s.SamePacker t ∧ s.SameSnapshot t ∧ s.SameSession t
      ∧ s.SameOutside t ∧ t.freeSeq = s.freeSeq)
    ∧ (∀ x, exec (.bufrd x) s = .next t → s.SameBuffer t)
    ∧ (∀ x b, exec (.bufwr x b) s = .next t →
        t.bLen = s.bLen ∧ (∀ a, a ≠ indexOf x → t.buf.read a = s.buf.read a)
        ∧ (s.bLen.toNat ≤ indexOf x → s.SameBuffer t))
    ∧ (∀ n, exec (.setlen n) s = .next t →
        (∀ a, s.cfg.bufUnits ≤ a → t.buf.read a = s.buf.read a) ∧ (s.cfg.bufUnits < indexOf n → s.SameBuffer t))

/-- PACK (41_packer.md R161): it writes the buffer, its length, the packer's registers and the table; the text
accumulator, the snapshot, the session, the fault state and LASTERR stay. -/
def Obligations.FramePack : Prop :=
  ∀ s t : State, s.Inv → exec .pack s = .next t →
    s.SameFault t ∧ t.lastErr = s.lastErr ∧ s.SameText t ∧ s.SameSnapshot t ∧ s.SameSession t ∧ s.SameOutside t
    ∧ t.freeSeq = s.freeSeq ∧ ∀ a, s.cfg.bufUnits ≤ a → t.buf.read a = s.buf.read a

/-- UOPEN and UNEXT (43_unpacker.md R212, R213): they write the unpacker, and UNEXT the classifier port; UNEXT stores
to no unit of the snapshot, UOPEN only to those below BLEN. Nothing else changes. -/
def Obligations.FrameUnpackerCommands : Prop :=
  ∀ s t : State, s.uBuf.wf = true →
    (∀ i : Instr, (i = .uopen ∨ i = .unext) → exec i s = .next t →
      s.SameFault t ∧ t.lastErr = s.lastErr ∧ s.SameTable t ∧ s.SameText t ∧ s.SameBuffer t ∧ s.SamePacker t
      ∧ t.cfg = s.cfg ∧ t.host.input = s.host.input ∧ t.freeSeq = s.freeSeq)
    ∧ (exec .uopen s = .next t → t.cls = s.cls ∧ ∀ a, s.bLen.toNat ≤ a → t.uBuf.read a = s.uBuf.read a)
    ∧ (exec .unext s = .next t → s.SameSnapshot t)

/-- NOP and RDREG (44_control.md R250, R252) change nothing but the response and, for RDREG of a reserved number,
LASTERR; CLR (R251) keeps the fault state and the parameters. That CLR keeps what the host has to present, the
classifier's answers and the queries made is the model's own (log entry 18). -/
def Obligations.FrameControlCommands : Prop :=
  ∀ s t : State,
    (∀ i : Instr, (i = .nop ∨ (∃ r, i = .rdreg r)) → exec i s = .next t →
      s.SameFault t ∧ s.SameTable t ∧ s.SameText t ∧ s.SameBuffer t ∧ s.SamePacker t ∧ s.SameSnapshot t
      ∧ s.SameSession t ∧ s.SameOutside t ∧ t.freeSeq = s.freeSeq)
    ∧ (exec .nop s = .next t → t.lastErr = s.lastErr)
    ∧ (∀ r, exec (.rdreg r) s = .next t → r.toNat ≤ 0x13 → t.lastErr = s.lastErr)
    ∧ (exec .clr s = .next t → s.SameFault t ∧ t.cfg = s.cfg ∧ t.host.input = s.host.input
        ∧ t.cls.answers = s.cls.answers ∧ t.cls.queries = s.cls.queries)
end

