-- ==== Sys2Proof/Laws/Memory.lean ====
section
/-! SUPPORT. The laws of the sparse memories: what a read finds after each operation, and that each operation keeps
the canonical form. -/

namespace Sys2Proof.Machine

section Sparse
variable {α : Type} [DecidableEq α] {d : α}

theorem sparseWf_cons {i : Nat} {x : α} {rest : List (Nat × α)} :
    sparseWf d ((i, x) :: rest) = true ↔ x ≠ d ∧ (∀ c ∈ rest, i < c.1) ∧ sparseWf d rest = true := by
  simp [sparseWf, and_assoc]

omit [DecidableEq α] in
/-- Below the first listed index, nothing is listed. -/
theorem sparseRead_eq_default_of_forall_ne {m : List (Nat × α)} {i : Nat} (h : ∀ c ∈ m, c.1 ≠ i) :
    sparseRead d m i = d := by
  induction m with
  | nil => rfl
  | cons c rest ih =>
    have := h c List.mem_cons_self
    simp only [sparseRead]
    rw [if_neg this, ih (fun c' hc' => h c' (List.mem_cons_of_mem _ hc'))]

theorem sparseRead_write_same {m : List (Nat × α)} (h : sparseWf d m = true) (i : Nat) (x : α) :
    sparseRead d (sparseWrite d m i x) i = x := by
  induction m with
  | nil => by_cases hx : x = d <;> simp [sparseWrite, sparseRead, hx]
  | cons c rest ih =>
    obtain ⟨j, y⟩ := c
    obtain ⟨hy, hlt, hrest⟩ := sparseWf_cons.mp h
    simp only [sparseWrite]
    split
    · rename_i hj
      simp [sparseRead, ih hrest, Nat.ne_of_lt hj]
    · split
      · rename_i _ hij
        subst hij
        split
        · rename_i hx
          rw [sparseRead_eq_default_of_forall_ne (fun c hc => Nat.ne_of_gt (hlt c hc)), hx]
        · simp [sparseRead]
      · split
        · rename_i h1 h2 hx
          rw [sparseRead_eq_default_of_forall_ne, hx]
          intro c hc
          rcases List.mem_cons.mp hc with rfl | hc
          · exact h2
          · have := hlt c hc
            omega
        · simp [sparseRead]

theorem sparseRead_write_other {m : List (Nat × α)} {i k : Nat} (hk : k ≠ i) (x : α) :
    sparseRead d (sparseWrite d m i x) k = sparseRead d m k := by
  induction m with
  | nil => by_cases hx : x = d <;> simp [sparseWrite, sparseRead, hx, Ne.symm hk]
  | cons c rest ih =>
    obtain ⟨j, y⟩ := c
    simp only [sparseWrite]
    split
    · simp [sparseRead, ih]
    · split
      · rename_i _ hij
        subst hij
        split <;> simp [sparseRead, Ne.symm hk]
      · split <;> simp [sparseRead, Ne.symm hk]

/-- Read after write. -/
theorem sparseRead_write {m : List (Nat × α)} (h : sparseWf d m = true) (i k : Nat) (x : α) :
    sparseRead d (sparseWrite d m i x) k = if k = i then x else sparseRead d m k := by
  split
  · rename_i hk
    rw [hk, sparseRead_write_same h]
  · rename_i hk
    exact sparseRead_write_other hk x

/-- A write lists no index but its own and those listed before, and no entry but its own and those listed before. -/
theorem mem_sparseWrite {m : List (Nat × α)} {i : Nat} {x : α} {c : Nat × α} (hc : c ∈ sparseWrite d m i x) :
    c = (i, x) ∨ c ∈ m := by
  induction m with
  | nil =>
    by_cases hx : x = d <;> simp [sparseWrite, hx] at hc
    exact .inl hc
  | cons e rest ih =>
    obtain ⟨j, y⟩ := e
    simp only [sparseWrite] at hc
    split at hc
    · rcases List.mem_cons.mp hc with rfl | hc
      · exact .inr List.mem_cons_self
      · exact (ih hc).imp_right (List.mem_cons_of_mem _)
    · split at hc <;> split at hc <;> simp only [List.mem_cons] at hc ⊢ <;> tauto

theorem sparseWf_write {m : List (Nat × α)} (h : sparseWf d m = true) (i : Nat) (x : α) :
    sparseWf d (sparseWrite d m i x) = true := by
  induction m with
  | nil => by_cases hx : x = d <;> simp [sparseWrite, sparseWf, hx]
  | cons e rest ih =>
    obtain ⟨j, y⟩ := e
    obtain ⟨hy, hlt, hrest⟩ := sparseWf_cons.mp h
    simp only [sparseWrite]
    split
    · rename_i hj
      refine sparseWf_cons.mpr ⟨hy, fun c hc => ?_, ih hrest⟩
      rcases mem_sparseWrite hc with rfl | hc
      · exact hj
      · exact hlt c hc
    · split
      · rename_i _ hij
        subst hij
        split
        · exact hrest
        · rename_i hx
          exact sparseWf_cons.mpr ⟨hx, hlt, hrest⟩
      · split
        · exact h
        · rename_i h1 h2 hx
          refine sparseWf_cons.mpr ⟨hx, fun c hc => ?_, h⟩
          rcases List.mem_cons.mp hc with rfl | hc
          · show i < j
            omega
          · have := hlt c hc
            omega

omit [DecidableEq α] in
theorem mem_sparseClear {m : List (Nat × α)} {n : Nat} {c : Nat × α} :
    c ∈ sparseClear n m ↔ c ∈ m ∧ n ≤ c.1 := by
  simp [sparseClear]

omit [DecidableEq α] in
theorem sparseRead_clear (m : List (Nat × α)) (n k : Nat) :
    sparseRead d (sparseClear n m) k = if k < n then d else sparseRead d m k := by
  induction m with
  | nil => simp [sparseClear, sparseRead]
  | cons e rest ih =>
    obtain ⟨j, y⟩ := e
    simp only [sparseClear, List.filter_cons] at ih ⊢
    by_cases hn : n ≤ j
    · simp only [hn, decide_true, if_true, sparseRead, ih]
      by_cases hjk : j = k
      · have : ¬ k < n := by omega
        simp [hjk, this]
      · simp [hjk]
    · simp only [hn, decide_false, sparseRead]
      by_cases hjk : j = k
      · have : k < n := by omega
        simp [ih, this]
      · simp [hjk, ih]

theorem sparseWf_clear {m : List (Nat × α)} (h : sparseWf d m = true) (n : Nat) :
    sparseWf d (sparseClear n m) = true := by
  induction m with
  | nil => rfl
  | cons e rest ih =>
    obtain ⟨j, y⟩ := e
    obtain ⟨hy, hlt, hrest⟩ := sparseWf_cons.mp h
    simp only [sparseClear, List.filter_cons]
    split
    · exact sparseWf_cons.mpr ⟨hy, fun c hc => hlt c (mem_sparseClear.mp hc).1, ih hrest⟩
    · exact ih hrest

theorem sparseWf_fill {m : List (Nat × α)} (h : sparseWf d m = true) (f : Nat → α) (n : Nat) :
    sparseWf d (sparseFill d f n m) = true := by
  induction n with
  | zero => exact h
  | succ n ih => exact sparseWf_write ih _ _

theorem sparseRead_fill {m : List (Nat × α)} (h : sparseWf d m = true) (f : Nat → α) (n k : Nat) :
    sparseRead d (sparseFill d f n m) k = if k < n then f k else sparseRead d m k := by
  induction n with
  | zero => simp [sparseFill]
  | succ n ih =>
    rw [sparseFill, sparseRead_write (sparseWf_fill h f n), ih]
    by_cases h1 : k = n
    · simp [h1]
    · have : k < n + 1 ↔ k < n := by omega
      simp [h1, this]

theorem mem_sparseFill {m : List (Nat × α)} {f : Nat → α} {n : Nat} {c : Nat × α} (hc : c ∈ sparseFill d f n m) :
    (c.1 < n ∧ c.2 = f c.1) ∨ c ∈ m := by
  induction n with
  | zero => exact .inr hc
  | succ n ih =>
    rcases mem_sparseWrite hc with rfl | hc
    · exact .inl ⟨Nat.lt_succ_self n, rfl⟩
    · exact (ih hc).imp_left (fun h => ⟨Nat.lt_succ_of_lt h.1, h.2⟩)

theorem sparseRead_of_mem {m : List (Nat × α)} (h : sparseWf d m = true) {c : Nat × α} (hc : c ∈ m) :
    sparseRead d m c.1 = c.2 := by
  induction m with
  | nil => cases hc
  | cons e rest ih =>
    obtain ⟨j, y⟩ := e
    obtain ⟨_, hlt, hrest⟩ := sparseWf_cons.mp h
    rcases List.mem_cons.mp hc with rfl | hc
    · simp [sparseRead]
    · have := hlt c hc
      simp [sparseRead, Nat.ne_of_lt this, ih hrest hc]

theorem sparseRead_ne_default_of_mem {m : List (Nat × α)} (h : sparseWf d m = true) {c : Nat × α} (hc : c ∈ m) :
    c.2 ≠ d := by
  induction m with
  | nil => cases hc
  | cons e rest ih =>
    obtain ⟨j, y⟩ := e
    obtain ⟨hy, _, hrest⟩ := sparseWf_cons.mp h
    rcases List.mem_cons.mp hc with rfl | hc
    · exact hy
    · exact ih hrest hc

omit [DecidableEq α] in
/-- What is read at `i` stands in the list, or is the unlisted value. -/
theorem mem_of_sparseRead_ne {m : List (Nat × α)} {i : Nat} (h : sparseRead d m i ≠ d) :
    (i, sparseRead d m i) ∈ m := by
  induction m with
  | nil => exact absurd rfl h
  | cons e rest ih =>
    obtain ⟨j, y⟩ := e
    by_cases hj : j = i
    · simp [sparseRead, hj]
    · have : sparseRead d ((j, y) :: rest) i = sparseRead d rest i := by simp [sparseRead, hj]
      rw [this] at h ⊢
      exact List.mem_cons_of_mem _ (ih h)

/-- Equal memories are equal data: two canonical memories that read alike are one list. -/
theorem sparse_ext {m m' : List (Nat × α)} (h : sparseWf d m = true) (h' : sparseWf d m' = true)
    (hr : ∀ i, sparseRead d m i = sparseRead d m' i) : m = m' := by
  induction m generalizing m' with
  | nil =>
    cases m' with
    | nil => rfl
    | cons e' rest' =>
      have h1 := sparseRead_of_mem h' (c := e') List.mem_cons_self
      have h2 := sparseRead_ne_default_of_mem h' (c := e') List.mem_cons_self
      exact absurd ((hr e'.1).trans h1).symm h2
  | cons e rest ih =>
    cases m' with
    | nil =>
      have h1 := sparseRead_of_mem h (c := e) List.mem_cons_self
      have h2 := sparseRead_ne_default_of_mem h (c := e) List.mem_cons_self
      exact absurd (h1.symm.trans (hr e.1)) h2
    | cons e' rest' =>
      obtain ⟨j, y⟩ := e
      obtain ⟨j', y'⟩ := e'
      obtain ⟨hy, hlt, hrest⟩ := sparseWf_cons.mp h
      obtain ⟨hy', hlt', hrest'⟩ := sparseWf_cons.mp h'
      have hjj : j = j' := by
        rcases Nat.lt_trichotomy j j' with hlj | heq | hgj
        · have h1 : sparseRead d ((j, y) :: rest) j = y := by simp [sparseRead]
          have h2 : sparseRead d ((j', y') :: rest') j = d :=
            sparseRead_eq_default_of_forall_ne (fun c hc => by
              rcases List.mem_cons.mp hc with rfl | hc
              · exact Nat.ne_of_gt hlj
              · have := hlt' c hc; omega)
          exact absurd (h1.symm.trans ((hr j).trans h2)) hy
        · exact heq
        · have h1 : sparseRead d ((j', y') :: rest') j' = y' := by simp [sparseRead]
          have h2 : sparseRead d ((j, y) :: rest) j' = d :=
            sparseRead_eq_default_of_forall_ne (fun c hc => by
              rcases List.mem_cons.mp hc with rfl | hc
              · exact Nat.ne_of_gt hgj
              · have := hlt c hc; omega)
          exact absurd (h1.symm.trans ((hr j').symm.trans h2)) hy'
      subst hjj
      have hyy : y = y' := by
        have := hr j
        simpa [sparseRead] using this
      subst hyy
      have : rest = rest' := ih hrest hrest' (fun i => by
        by_cases hi : j = i
        · subst hi
          rw [sparseRead_eq_default_of_forall_ne (fun c hc => Nat.ne_of_gt (hlt c hc)),
            sparseRead_eq_default_of_forall_ne (fun c hc => Nat.ne_of_gt (hlt' c hc))]
        · have := hr i
          simpa [sparseRead, hi] using this)
      rw [this]

end Sparse

/-! ## BUF and UBUF -/

@[simp] theorem Memory.read_nil (k : Nat) : Memory.read [] k = 0 := rfl

@[simp] theorem Memory.wf_nil : Memory.wf [] = true := rfl

theorem Memory.read_write {m : Memory} (h : m.wf = true) (i k : Nat) (v : Byte) :
    (m.write i v).read k = if k = i then v else m.read k := sparseRead_write h i k v

theorem Memory.read_write_other {m : Memory} {i k : Nat} (hk : k ≠ i) (v : Byte) :
    (m.write i v).read k = m.read k := sparseRead_write_other hk v

theorem Memory.read_orAt {m : Memory} (h : m.wf = true) (i k : Nat) (v : Byte) :
    (m.orAt i v).read k = if k = i then m.read i ||| v else m.read k := sparseRead_write h i k _

theorem Memory.read_zeroBelow (m : Memory) (n k : Nat) :
    (m.zeroBelow n).read k = if k < n then 0 else m.read k := sparseRead_clear m n k

theorem Memory.read_copyFrom {dst : Memory} (h : dst.wf = true) (n k : Nat) (src : Memory) :
    (dst.copyFrom n src).read k = if k < n then src.read k else dst.read k := sparseRead_fill h _ n k

theorem Memory.wf_write {m : Memory} (h : m.wf = true) (i : Nat) (v : Byte) : (m.write i v).wf = true :=
  sparseWf_write h i v

theorem Memory.wf_orAt {m : Memory} (h : m.wf = true) (i : Nat) (v : Byte) : (m.orAt i v).wf = true :=
  sparseWf_write h i _

theorem Memory.wf_zeroBelow {m : Memory} (h : m.wf = true) (n : Nat) : (m.zeroBelow n).wf = true := sparseWf_clear h n

theorem Memory.wf_copyFrom {dst : Memory} (h : dst.wf = true) (n : Nat) (src : Memory) :
    (dst.copyFrom n src).wf = true := sparseWf_fill h _ n

theorem Memory.mem_write {m : Memory} {i : Nat} {v : Byte} {c : Host.Cell} (hc : c ∈ m.write i v) :
    c = (i, v) ∨ c ∈ m := mem_sparseWrite hc

theorem Memory.mem_zeroBelow {m : Memory} {n : Nat} {c : Host.Cell} : c ∈ m.zeroBelow n ↔ c ∈ m ∧ n ≤ c.1 :=
  mem_sparseClear

theorem Memory.mem_copyFrom {dst : Memory} {n : Nat} {src : Memory} {c : Host.Cell} (hc : c ∈ dst.copyFrom n src) :
    (c.1 < n ∧ c.2 = src.read c.1) ∨ c ∈ dst := mem_sparseFill hc

/-- A memory with nothing listed at or above `n` reads 0 there. -/
theorem Memory.read_eq_zero_of_ge {m : Memory} {n k : Nat} (h : ∀ c ∈ m, c.1 < n) (hk : n ≤ k) : m.read k = 0 :=
  sparseRead_eq_default_of_forall_ne (fun c hc => by have := h c hc; omega)

/-- A memory with nothing listed at or above `n` is empty once zeroed below `n`. -/
theorem Memory.zeroBelow_eq_nil {m : Memory} {n : Nat} (h : ∀ c ∈ m, c.1 < n) : m.zeroBelow n = [] := by
  refine List.filter_eq_nil_iff.mpr (fun c hc => ?_)
  have := h c hc
  simp only [decide_eq_true_eq]
  omega

theorem Memory.ext {m m' : Memory} (h : m.wf = true) (h' : m'.wf = true) (hr : ∀ i, m.read i = m'.read i) : m = m' :=
  sparse_ext h h' hr

/-! ## DESC -/

@[simp] theorem DescTable.read_nil (k : Nat) : DescTable.read [] k = Desc.zero := rfl

@[simp] theorem DescTable.wf_nil : DescTable.wf [] = true := rfl

theorem DescTable.read_write {t : DescTable} (h : t.wf = true) (i k : Nat) (d : Desc) :
    (t.write i d).read k = if k = i then d else t.read k := sparseRead_write h i k d

theorem DescTable.read_write_other {t : DescTable} {i k : Nat} (hk : k ≠ i) (d : Desc) :
    (t.write i d).read k = t.read k := sparseRead_write_other hk d

theorem DescTable.wf_write {t : DescTable} (h : t.wf = true) (i : Nat) (d : Desc) : (t.write i d).wf = true :=
  sparseWf_write h i d

theorem DescTable.wf_zeroBelow {t : DescTable} (h : t.wf = true) (n : Nat) : (t.zeroBelow n).wf = true :=
  sparseWf_clear h n

theorem DescTable.mem_write {t : DescTable} {i : Nat} {d : Desc} {c : Nat × Desc} (hc : c ∈ t.write i d) :
    c = (i, d) ∨ c ∈ t := mem_sparseWrite hc

theorem DescTable.read_eq_zero_of_ge {t : DescTable} {n k : Nat} (h : ∀ c ∈ t, c.1 < n) (hk : n ≤ k) :
    t.read k = Desc.zero :=
  sparseRead_eq_default_of_forall_ne (fun c hc => by have := h c hc; omega)

theorem DescTable.zeroBelow_eq_nil {t : DescTable} {n : Nat} (h : ∀ c ∈ t, c.1 < n) : t.zeroBelow n = [] := by
  refine List.filter_eq_nil_iff.mpr (fun c hc => ?_)
  have := h c hc
  simp only [decide_eq_true_eq]
  omega

/-- An entry read from a table all of whose listed widths are at most 32 has a width of at most 32. -/
theorem DescTable.read_width_le {t : DescTable} (h : ∀ c ∈ t, c.2.w.toNat ≤ 32) (k : Nat) :
    (t.read k).w.toNat ≤ 32 := by
  by_cases hk : t.read k = Desc.zero
  · rw [hk]
    decide
  · exact h _ (mem_of_sparseRead_ne hk)

end Sys2Proof.Machine
end

