-- ==== Sys2Proof/Laws/State.lean ====
section
/-! SUPPORT. What each named update of the state leaves in each field: one lemma per field per update, true by `rfl`.
After them, the one character of a text (`addChar`), which only touches the text accumulator. -/

namespace Sys2Proof.Machine.State

section Updates
variable (s : State)

/-! A response word goes out. -/

@[simp] theorem reply_cfg (r : RspWord) : (s.reply r).cfg = s.cfg := rfl
@[simp] theorem reply_fault (r : RspWord) : (s.reply r).fault = s.fault := rfl
@[simp] theorem reply_faultCode (r : RspWord) : (s.reply r).faultCode = s.faultCode := rfl
@[simp] theorem reply_lastErr (r : RspWord) : (s.reply r).lastErr = s.lastErr := rfl
@[simp] theorem reply_desc (r : RspWord) : (s.reply r).desc = s.desc := rfl
@[simp] theorem reply_dCount (r : RspWord) : (s.reply r).dCount = s.dCount := rfl
@[simp] theorem reply_tAct (r : RspWord) : (s.reply r).tAct = s.tAct := rfl
@[simp] theorem reply_tLen (r : RspWord) : (s.reply r).tLen = s.tLen := rfl
@[simp] theorem reply_tVal (r : RspWord) : (s.reply r).tVal = s.tVal := rfl
@[simp] theorem reply_tBad (r : RspWord) : (s.reply r).tBad = s.tBad := rfl
@[simp] theorem reply_tOver (r : RspWord) : (s.reply r).tOver = s.tOver := rfl
@[simp] theorem reply_buf (r : RspWord) : (s.reply r).buf = s.buf := rfl
@[simp] theorem reply_bLen (r : RspWord) : (s.reply r).bLen = s.bLen := rfl
@[simp] theorem reply_pBits (r : RspWord) : (s.reply r).pBits = s.pBits := rfl
@[simp] theorem reply_pCurUnit (r : RspWord) : (s.reply r).pCurUnit = s.pCurUnit := rfl
@[simp] theorem reply_pCurOff (r : RspWord) : (s.reply r).pCurOff = s.pCurOff := rfl
@[simp] theorem reply_uBuf (r : RspWord) : (s.reply r).uBuf = s.uBuf := rfl
@[simp] theorem reply_uLen (r : RspWord) : (s.reply r).uLen = s.uLen := rfl
@[simp] theorem reply_uState (r : RspWord) : (s.reply r).uState = s.uState := rfl
@[simp] theorem reply_uCurUnit (r : RspWord) : (s.reply r).uCurUnit = s.uCurUnit := rfl
@[simp] theorem reply_uCurOff (r : RspWord) : (s.reply r).uCurOff = s.uCurOff := rfl
@[simp] theorem reply_patLen (r : RspWord) : (s.reply r).patLen = s.patLen := rfl
@[simp] theorem reply_patVal (r : RspWord) : (s.reply r).patVal = s.patVal := rfl
@[simp] theorem reply_uDiscard (r : RspWord) : (s.reply r).uDiscard = s.uDiscard := rfl
@[simp] theorem reply_uCount (r : RspWord) : (s.reply r).uCount = s.uCount := rfl
@[simp] theorem reply_host (r : RspWord) : (s.reply r).host = { s.host with output := s.host.output ++ [r] } := rfl
@[simp] theorem reply_cls (r : RspWord) : (s.reply r).cls = s.cls := rfl
@[simp] theorem reply_freeSeq (r : RspWord) : (s.reply r).freeSeq = s.freeSeq := rfl

/-! The host's next event is taken off its list. -/

@[simp] theorem withInput_cfg (l : List HostEvent) : (s.withInput l).cfg = s.cfg := rfl
@[simp] theorem withInput_fault (l : List HostEvent) : (s.withInput l).fault = s.fault := rfl
@[simp] theorem withInput_faultCode (l : List HostEvent) : (s.withInput l).faultCode = s.faultCode := rfl
@[simp] theorem withInput_lastErr (l : List HostEvent) : (s.withInput l).lastErr = s.lastErr := rfl
@[simp] theorem withInput_desc (l : List HostEvent) : (s.withInput l).desc = s.desc := rfl
@[simp] theorem withInput_dCount (l : List HostEvent) : (s.withInput l).dCount = s.dCount := rfl
@[simp] theorem withInput_tAct (l : List HostEvent) : (s.withInput l).tAct = s.tAct := rfl
@[simp] theorem withInput_tLen (l : List HostEvent) : (s.withInput l).tLen = s.tLen := rfl
@[simp] theorem withInput_tVal (l : List HostEvent) : (s.withInput l).tVal = s.tVal := rfl
@[simp] theorem withInput_tBad (l : List HostEvent) : (s.withInput l).tBad = s.tBad := rfl
@[simp] theorem withInput_tOver (l : List HostEvent) : (s.withInput l).tOver = s.tOver := rfl
@[simp] theorem withInput_buf (l : List HostEvent) : (s.withInput l).buf = s.buf := rfl
@[simp] theorem withInput_bLen (l : List HostEvent) : (s.withInput l).bLen = s.bLen := rfl
@[simp] theorem withInput_pBits (l : List HostEvent) : (s.withInput l).pBits = s.pBits := rfl
@[simp] theorem withInput_pCurUnit (l : List HostEvent) : (s.withInput l).pCurUnit = s.pCurUnit := rfl
@[simp] theorem withInput_pCurOff (l : List HostEvent) : (s.withInput l).pCurOff = s.pCurOff := rfl
@[simp] theorem withInput_uBuf (l : List HostEvent) : (s.withInput l).uBuf = s.uBuf := rfl
@[simp] theorem withInput_uLen (l : List HostEvent) : (s.withInput l).uLen = s.uLen := rfl
@[simp] theorem withInput_uState (l : List HostEvent) : (s.withInput l).uState = s.uState := rfl
@[simp] theorem withInput_uCurUnit (l : List HostEvent) : (s.withInput l).uCurUnit = s.uCurUnit := rfl
@[simp] theorem withInput_uCurOff (l : List HostEvent) : (s.withInput l).uCurOff = s.uCurOff := rfl
@[simp] theorem withInput_patLen (l : List HostEvent) : (s.withInput l).patLen = s.patLen := rfl
@[simp] theorem withInput_patVal (l : List HostEvent) : (s.withInput l).patVal = s.patVal := rfl
@[simp] theorem withInput_uDiscard (l : List HostEvent) : (s.withInput l).uDiscard = s.uDiscard := rfl
@[simp] theorem withInput_uCount (l : List HostEvent) : (s.withInput l).uCount = s.uCount := rfl
@[simp] theorem withInput_host (l : List HostEvent) : (s.withInput l).host = { s.host with input := l } := rfl
@[simp] theorem withInput_cls (l : List HostEvent) : (s.withInput l).cls = s.cls := rfl
@[simp] theorem withInput_freeSeq (l : List HostEvent) : (s.withInput l).freeSeq = s.freeSeq := rfl

/-! A word is presented. -/

@[simp] theorem present_cfg (w : CmdWord) : (s.present w).cfg = s.cfg := rfl
@[simp] theorem present_fault (w : CmdWord) : (s.present w).fault = s.fault := rfl
@[simp] theorem present_faultCode (w : CmdWord) : (s.present w).faultCode = s.faultCode := rfl
@[simp] theorem present_lastErr (w : CmdWord) : (s.present w).lastErr = s.lastErr := rfl
@[simp] theorem present_desc (w : CmdWord) : (s.present w).desc = s.desc := rfl
@[simp] theorem present_dCount (w : CmdWord) : (s.present w).dCount = s.dCount := rfl
@[simp] theorem present_tAct (w : CmdWord) : (s.present w).tAct = s.tAct := rfl
@[simp] theorem present_tLen (w : CmdWord) : (s.present w).tLen = s.tLen := rfl
@[simp] theorem present_tVal (w : CmdWord) : (s.present w).tVal = s.tVal := rfl
@[simp] theorem present_tBad (w : CmdWord) : (s.present w).tBad = s.tBad := rfl
@[simp] theorem present_tOver (w : CmdWord) : (s.present w).tOver = s.tOver := rfl
@[simp] theorem present_buf (w : CmdWord) : (s.present w).buf = s.buf := rfl
@[simp] theorem present_bLen (w : CmdWord) : (s.present w).bLen = s.bLen := rfl
@[simp] theorem present_pBits (w : CmdWord) : (s.present w).pBits = s.pBits := rfl
@[simp] theorem present_pCurUnit (w : CmdWord) : (s.present w).pCurUnit = s.pCurUnit := rfl
@[simp] theorem present_pCurOff (w : CmdWord) : (s.present w).pCurOff = s.pCurOff := rfl
@[simp] theorem present_uBuf (w : CmdWord) : (s.present w).uBuf = s.uBuf := rfl
@[simp] theorem present_uLen (w : CmdWord) : (s.present w).uLen = s.uLen := rfl
@[simp] theorem present_uState (w : CmdWord) : (s.present w).uState = s.uState := rfl
@[simp] theorem present_uCurUnit (w : CmdWord) : (s.present w).uCurUnit = s.uCurUnit := rfl
@[simp] theorem present_uCurOff (w : CmdWord) : (s.present w).uCurOff = s.uCurOff := rfl
@[simp] theorem present_patLen (w : CmdWord) : (s.present w).patLen = s.patLen := rfl
@[simp] theorem present_patVal (w : CmdWord) : (s.present w).patVal = s.patVal := rfl
@[simp] theorem present_uDiscard (w : CmdWord) : (s.present w).uDiscard = s.uDiscard := rfl
@[simp] theorem present_uCount (w : CmdWord) : (s.present w).uCount = s.uCount := rfl
@[simp] theorem present_host (w : CmdWord) : (s.present w).host =
    { s.host with input := .command w :: s.host.input } := rfl
@[simp] theorem present_cls (w : CmdWord) : (s.present w).cls = { s.cls with pending := none } := rfl
@[simp] theorem present_freeSeq (w : CmdWord) : (s.present w).freeSeq = s.freeSeq := rfl

/-! RST. -/

@[simp] theorem afterReset_cfg : (s.afterReset).cfg = s.cfg := rfl
@[simp] theorem afterReset_fault : (s.afterReset).fault = false := rfl
@[simp] theorem afterReset_faultCode : (s.afterReset).faultCode = 0 := rfl
@[simp] theorem afterReset_lastErr : (s.afterReset).lastErr = 0 := rfl
@[simp] theorem afterReset_desc : (s.afterReset).desc = [] := rfl
@[simp] theorem afterReset_dCount : (s.afterReset).dCount = 0 := rfl
@[simp] theorem afterReset_tAct : (s.afterReset).tAct = false := rfl
@[simp] theorem afterReset_tLen : (s.afterReset).tLen = 0 := rfl
@[simp] theorem afterReset_tVal : (s.afterReset).tVal = 0 := rfl
@[simp] theorem afterReset_tBad : (s.afterReset).tBad = false := rfl
@[simp] theorem afterReset_tOver : (s.afterReset).tOver = false := rfl
@[simp] theorem afterReset_buf : (s.afterReset).buf = [] := rfl
@[simp] theorem afterReset_bLen : (s.afterReset).bLen = 0 := rfl
@[simp] theorem afterReset_pBits : (s.afterReset).pBits = 0 := rfl
@[simp] theorem afterReset_pCurUnit : (s.afterReset).pCurUnit = 0 := rfl
@[simp] theorem afterReset_pCurOff : (s.afterReset).pCurOff = 0 := rfl
@[simp] theorem afterReset_uBuf : (s.afterReset).uBuf = [] := rfl
@[simp] theorem afterReset_uLen : (s.afterReset).uLen = 0 := rfl
@[simp] theorem afterReset_uState : (s.afterReset).uState = .exhausted := rfl
@[simp] theorem afterReset_uCurUnit : (s.afterReset).uCurUnit = 0 := rfl
@[simp] theorem afterReset_uCurOff : (s.afterReset).uCurOff = 0 := rfl
@[simp] theorem afterReset_patLen : (s.afterReset).patLen = 0 := rfl
@[simp] theorem afterReset_patVal : (s.afterReset).patVal = 0 := rfl
@[simp] theorem afterReset_uDiscard : (s.afterReset).uDiscard = 0 := rfl
@[simp] theorem afterReset_uCount : (s.afterReset).uCount = 0 := rfl
@[simp] theorem afterReset_host : (s.afterReset).host = s.host := rfl
@[simp] theorem afterReset_cls : (s.afterReset).cls = { s.cls with pending := none } := rfl
@[simp] theorem afterReset_freeSeq : (s.afterReset).freeSeq = s.freeSeq := rfl

/-! CLR. -/

@[simp] theorem cleared_cfg : (s.cleared).cfg = s.cfg := rfl
@[simp] theorem cleared_fault : (s.cleared).fault = s.fault := rfl
@[simp] theorem cleared_faultCode : (s.cleared).faultCode = s.faultCode := rfl
@[simp] theorem cleared_lastErr : (s.cleared).lastErr = 0 := rfl
@[simp] theorem cleared_desc : (s.cleared).desc = [] := rfl
@[simp] theorem cleared_dCount : (s.cleared).dCount = 0 := rfl
@[simp] theorem cleared_tAct : (s.cleared).tAct = false := rfl
@[simp] theorem cleared_tLen : (s.cleared).tLen = 0 := rfl
@[simp] theorem cleared_tVal : (s.cleared).tVal = 0 := rfl
@[simp] theorem cleared_tBad : (s.cleared).tBad = false := rfl
@[simp] theorem cleared_tOver : (s.cleared).tOver = false := rfl
@[simp] theorem cleared_buf : (s.cleared).buf = [] := rfl
@[simp] theorem cleared_bLen : (s.cleared).bLen = 0 := rfl
@[simp] theorem cleared_pBits : (s.cleared).pBits = 0 := rfl
@[simp] theorem cleared_pCurUnit : (s.cleared).pCurUnit = 0 := rfl
@[simp] theorem cleared_pCurOff : (s.cleared).pCurOff = 0 := rfl
@[simp] theorem cleared_uBuf : (s.cleared).uBuf = [] := rfl
@[simp] theorem cleared_uLen : (s.cleared).uLen = 0 := rfl
@[simp] theorem cleared_uState : (s.cleared).uState = .exhausted := rfl
@[simp] theorem cleared_uCurUnit : (s.cleared).uCurUnit = 0 := rfl
@[simp] theorem cleared_uCurOff : (s.cleared).uCurOff = 0 := rfl
@[simp] theorem cleared_patLen : (s.cleared).patLen = 0 := rfl
@[simp] theorem cleared_patVal : (s.cleared).patVal = 0 := rfl
@[simp] theorem cleared_uDiscard : (s.cleared).uDiscard = 0 := rfl
@[simp] theorem cleared_uCount : (s.cleared).uCount = 0 := rfl
@[simp] theorem cleared_host : (s.cleared).host = s.host := rfl
@[simp] theorem cleared_cls : (s.cleared).cls = { s.cls with pending := none } := rfl
@[simp] theorem cleared_freeSeq : (s.cleared).freeSeq = s.freeSeq := rfl

/-! TBEGIN. -/

@[simp] theorem openText_cfg : (s.openText).cfg = s.cfg := rfl
@[simp] theorem openText_fault : (s.openText).fault = s.fault := rfl
@[simp] theorem openText_faultCode : (s.openText).faultCode = s.faultCode := rfl
@[simp] theorem openText_lastErr : (s.openText).lastErr = s.lastErr := rfl
@[simp] theorem openText_desc : (s.openText).desc = s.desc := rfl
@[simp] theorem openText_dCount : (s.openText).dCount = s.dCount := rfl
@[simp] theorem openText_tAct : (s.openText).tAct = true := rfl
@[simp] theorem openText_tLen : (s.openText).tLen = 0 := rfl
@[simp] theorem openText_tVal : (s.openText).tVal = 0 := rfl
@[simp] theorem openText_tBad : (s.openText).tBad = false := rfl
@[simp] theorem openText_tOver : (s.openText).tOver = false := rfl
@[simp] theorem openText_buf : (s.openText).buf = s.buf := rfl
@[simp] theorem openText_bLen : (s.openText).bLen = s.bLen := rfl
@[simp] theorem openText_pBits : (s.openText).pBits = s.pBits := rfl
@[simp] theorem openText_pCurUnit : (s.openText).pCurUnit = s.pCurUnit := rfl
@[simp] theorem openText_pCurOff : (s.openText).pCurOff = s.pCurOff := rfl
@[simp] theorem openText_uBuf : (s.openText).uBuf = s.uBuf := rfl
@[simp] theorem openText_uLen : (s.openText).uLen = s.uLen := rfl
@[simp] theorem openText_uState : (s.openText).uState = s.uState := rfl
@[simp] theorem openText_uCurUnit : (s.openText).uCurUnit = s.uCurUnit := rfl
@[simp] theorem openText_uCurOff : (s.openText).uCurOff = s.uCurOff := rfl
@[simp] theorem openText_patLen : (s.openText).patLen = s.patLen := rfl
@[simp] theorem openText_patVal : (s.openText).patVal = s.patVal := rfl
@[simp] theorem openText_uDiscard : (s.openText).uDiscard = s.uDiscard := rfl
@[simp] theorem openText_uCount : (s.openText).uCount = s.uCount := rfl
@[simp] theorem openText_host : (s.openText).host = s.host := rfl
@[simp] theorem openText_cls : (s.openText).cls = s.cls := rfl
@[simp] theorem openText_freeSeq : (s.openText).freeSeq = s.freeSeq := rfl

/-! close(). -/

@[simp] theorem closeText_cfg : (s.closeText).cfg = s.cfg := rfl
@[simp] theorem closeText_fault : (s.closeText).fault = s.fault := rfl
@[simp] theorem closeText_faultCode : (s.closeText).faultCode = s.faultCode := rfl
@[simp] theorem closeText_lastErr : (s.closeText).lastErr = s.lastErr := rfl
@[simp] theorem closeText_desc : (s.closeText).desc = s.desc := rfl
@[simp] theorem closeText_dCount : (s.closeText).dCount = s.dCount := rfl
@[simp] theorem closeText_tAct : (s.closeText).tAct = false := rfl
@[simp] theorem closeText_tLen : (s.closeText).tLen = 0 := rfl
@[simp] theorem closeText_tVal : (s.closeText).tVal = 0 := rfl
@[simp] theorem closeText_tBad : (s.closeText).tBad = false := rfl
@[simp] theorem closeText_tOver : (s.closeText).tOver = false := rfl
@[simp] theorem closeText_buf : (s.closeText).buf = s.buf := rfl
@[simp] theorem closeText_bLen : (s.closeText).bLen = s.bLen := rfl
@[simp] theorem closeText_pBits : (s.closeText).pBits = s.pBits := rfl
@[simp] theorem closeText_pCurUnit : (s.closeText).pCurUnit = s.pCurUnit := rfl
@[simp] theorem closeText_pCurOff : (s.closeText).pCurOff = s.pCurOff := rfl
@[simp] theorem closeText_uBuf : (s.closeText).uBuf = s.uBuf := rfl
@[simp] theorem closeText_uLen : (s.closeText).uLen = s.uLen := rfl
@[simp] theorem closeText_uState : (s.closeText).uState = s.uState := rfl
@[simp] theorem closeText_uCurUnit : (s.closeText).uCurUnit = s.uCurUnit := rfl
@[simp] theorem closeText_uCurOff : (s.closeText).uCurOff = s.uCurOff := rfl
@[simp] theorem closeText_patLen : (s.closeText).patLen = s.patLen := rfl
@[simp] theorem closeText_patVal : (s.closeText).patVal = s.patVal := rfl
@[simp] theorem closeText_uDiscard : (s.closeText).uDiscard = s.uDiscard := rfl
@[simp] theorem closeText_uCount : (s.closeText).uCount = s.uCount := rfl
@[simp] theorem closeText_host : (s.closeText).host = s.host := rfl
@[simp] theorem closeText_cls : (s.closeText).cls = s.cls := rfl
@[simp] theorem closeText_freeSeq : (s.closeText).freeSeq = s.freeSeq := rfl

/-! A descriptor is appended. -/

@[simp] theorem appendDesc_cfg (d : Desc) : (s.appendDesc d).cfg = s.cfg := rfl
@[simp] theorem appendDesc_fault (d : Desc) : (s.appendDesc d).fault = s.fault := rfl
@[simp] theorem appendDesc_faultCode (d : Desc) : (s.appendDesc d).faultCode = s.faultCode := rfl
@[simp] theorem appendDesc_lastErr (d : Desc) : (s.appendDesc d).lastErr = s.lastErr := rfl
@[simp] theorem appendDesc_desc (d : Desc) : (s.appendDesc d).desc = s.desc.write s.dCount.toNat d := rfl
@[simp] theorem appendDesc_dCount (d : Desc) : (s.appendDesc d).dCount = s.dCount + 1 := rfl
@[simp] theorem appendDesc_tAct (d : Desc) : (s.appendDesc d).tAct = s.tAct := rfl
@[simp] theorem appendDesc_tLen (d : Desc) : (s.appendDesc d).tLen = s.tLen := rfl
@[simp] theorem appendDesc_tVal (d : Desc) : (s.appendDesc d).tVal = s.tVal := rfl
@[simp] theorem appendDesc_tBad (d : Desc) : (s.appendDesc d).tBad = s.tBad := rfl
@[simp] theorem appendDesc_tOver (d : Desc) : (s.appendDesc d).tOver = s.tOver := rfl
@[simp] theorem appendDesc_buf (d : Desc) : (s.appendDesc d).buf = s.buf := rfl
@[simp] theorem appendDesc_bLen (d : Desc) : (s.appendDesc d).bLen = s.bLen := rfl
@[simp] theorem appendDesc_pBits (d : Desc) : (s.appendDesc d).pBits = s.pBits := rfl
@[simp] theorem appendDesc_pCurUnit (d : Desc) : (s.appendDesc d).pCurUnit = s.pCurUnit := rfl
@[simp] theorem appendDesc_pCurOff (d : Desc) : (s.appendDesc d).pCurOff = s.pCurOff := rfl
@[simp] theorem appendDesc_uBuf (d : Desc) : (s.appendDesc d).uBuf = s.uBuf := rfl
@[simp] theorem appendDesc_uLen (d : Desc) : (s.appendDesc d).uLen = s.uLen := rfl
@[simp] theorem appendDesc_uState (d : Desc) : (s.appendDesc d).uState = s.uState := rfl
@[simp] theorem appendDesc_uCurUnit (d : Desc) : (s.appendDesc d).uCurUnit = s.uCurUnit := rfl
@[simp] theorem appendDesc_uCurOff (d : Desc) : (s.appendDesc d).uCurOff = s.uCurOff := rfl
@[simp] theorem appendDesc_patLen (d : Desc) : (s.appendDesc d).patLen = s.patLen := rfl
@[simp] theorem appendDesc_patVal (d : Desc) : (s.appendDesc d).patVal = s.patVal := rfl
@[simp] theorem appendDesc_uDiscard (d : Desc) : (s.appendDesc d).uDiscard = s.uDiscard := rfl
@[simp] theorem appendDesc_uCount (d : Desc) : (s.appendDesc d).uCount = s.uCount := rfl
@[simp] theorem appendDesc_host (d : Desc) : (s.appendDesc d).host = s.host := rfl
@[simp] theorem appendDesc_cls (d : Desc) : (s.appendDesc d).cls = s.cls := rfl
@[simp] theorem appendDesc_freeSeq (d : Desc) : (s.appendDesc d).freeSeq = s.freeSeq := rfl

/-! Step() up to its query. -/

@[simp] theorem takeBit_cfg : (s.takeBit).cfg = s.cfg := rfl
@[simp] theorem takeBit_fault : (s.takeBit).fault = s.fault := rfl
@[simp] theorem takeBit_faultCode : (s.takeBit).faultCode = s.faultCode := rfl
@[simp] theorem takeBit_lastErr : (s.takeBit).lastErr = s.lastErr := rfl
@[simp] theorem takeBit_desc : (s.takeBit).desc = s.desc := rfl
@[simp] theorem takeBit_dCount : (s.takeBit).dCount = s.dCount := rfl
@[simp] theorem takeBit_tAct : (s.takeBit).tAct = s.tAct := rfl
@[simp] theorem takeBit_tLen : (s.takeBit).tLen = s.tLen := rfl
@[simp] theorem takeBit_tVal : (s.takeBit).tVal = s.tVal := rfl
@[simp] theorem takeBit_tBad : (s.takeBit).tBad = s.tBad := rfl
@[simp] theorem takeBit_tOver : (s.takeBit).tOver = s.tOver := rfl
@[simp] theorem takeBit_buf : (s.takeBit).buf = s.buf := rfl
@[simp] theorem takeBit_bLen : (s.takeBit).bLen = s.bLen := rfl
@[simp] theorem takeBit_pBits : (s.takeBit).pBits = s.pBits := rfl
@[simp] theorem takeBit_pCurUnit : (s.takeBit).pCurUnit = s.pCurUnit := rfl
@[simp] theorem takeBit_pCurOff : (s.takeBit).pCurOff = s.pCurOff := rfl
@[simp] theorem takeBit_uBuf : (s.takeBit).uBuf = s.uBuf := rfl
@[simp] theorem takeBit_uLen : (s.takeBit).uLen = s.uLen := rfl
@[simp] theorem takeBit_uState : (s.takeBit).uState = s.uState := rfl
@[simp] theorem takeBit_uCurUnit : (s.takeBit).uCurUnit = if s.uCurOff = 7 then s.uCurUnit + 1 else s.uCurUnit := rfl
@[simp] theorem takeBit_uCurOff : (s.takeBit).uCurOff = s.uCurOff + 1 := rfl
@[simp] theorem takeBit_patLen : (s.takeBit).patLen = s.patLen + 1 := rfl
@[simp] theorem takeBit_patVal : (s.takeBit).patVal = 2 * s.patVal + s.nextBit.toNat := rfl
@[simp] theorem takeBit_uDiscard : (s.takeBit).uDiscard = s.uDiscard := rfl
@[simp] theorem takeBit_uCount : (s.takeBit).uCount = s.uCount := rfl
@[simp] theorem takeBit_host : (s.takeBit).host = s.host := rfl
@[simp] theorem takeBit_cls : (s.takeBit).cls =
    { s.cls with queries := s.cls.queries ++ [⟨s.patLen + 1, 2 * s.patVal + s.nextBit.toNat⟩], pending := some ⟨s.patLen + 1, 2 * s.patVal + s.nextBit.toNat⟩ } := rfl
@[simp] theorem takeBit_freeSeq : (s.takeBit).freeSeq = s.freeSeq := rfl

/-! An answer arrives. -/

@[simp] theorem answered_cfg (l : List ClsAnswer) : (s.answered l).cfg = s.cfg := rfl
@[simp] theorem answered_fault (l : List ClsAnswer) : (s.answered l).fault = s.fault := rfl
@[simp] theorem answered_faultCode (l : List ClsAnswer) : (s.answered l).faultCode = s.faultCode := rfl
@[simp] theorem answered_lastErr (l : List ClsAnswer) : (s.answered l).lastErr = s.lastErr := rfl
@[simp] theorem answered_desc (l : List ClsAnswer) : (s.answered l).desc = s.desc := rfl
@[simp] theorem answered_dCount (l : List ClsAnswer) : (s.answered l).dCount = s.dCount := rfl
@[simp] theorem answered_tAct (l : List ClsAnswer) : (s.answered l).tAct = s.tAct := rfl
@[simp] theorem answered_tLen (l : List ClsAnswer) : (s.answered l).tLen = s.tLen := rfl
@[simp] theorem answered_tVal (l : List ClsAnswer) : (s.answered l).tVal = s.tVal := rfl
@[simp] theorem answered_tBad (l : List ClsAnswer) : (s.answered l).tBad = s.tBad := rfl
@[simp] theorem answered_tOver (l : List ClsAnswer) : (s.answered l).tOver = s.tOver := rfl
@[simp] theorem answered_buf (l : List ClsAnswer) : (s.answered l).buf = s.buf := rfl
@[simp] theorem answered_bLen (l : List ClsAnswer) : (s.answered l).bLen = s.bLen := rfl
@[simp] theorem answered_pBits (l : List ClsAnswer) : (s.answered l).pBits = s.pBits := rfl
@[simp] theorem answered_pCurUnit (l : List ClsAnswer) : (s.answered l).pCurUnit = s.pCurUnit := rfl
@[simp] theorem answered_pCurOff (l : List ClsAnswer) : (s.answered l).pCurOff = s.pCurOff := rfl
@[simp] theorem answered_uBuf (l : List ClsAnswer) : (s.answered l).uBuf = s.uBuf := rfl
@[simp] theorem answered_uLen (l : List ClsAnswer) : (s.answered l).uLen = s.uLen := rfl
@[simp] theorem answered_uState (l : List ClsAnswer) : (s.answered l).uState = s.uState := rfl
@[simp] theorem answered_uCurUnit (l : List ClsAnswer) : (s.answered l).uCurUnit = s.uCurUnit := rfl
@[simp] theorem answered_uCurOff (l : List ClsAnswer) : (s.answered l).uCurOff = s.uCurOff := rfl
@[simp] theorem answered_patLen (l : List ClsAnswer) : (s.answered l).patLen = s.patLen := rfl
@[simp] theorem answered_patVal (l : List ClsAnswer) : (s.answered l).patVal = s.patVal := rfl
@[simp] theorem answered_uDiscard (l : List ClsAnswer) : (s.answered l).uDiscard = s.uDiscard := rfl
@[simp] theorem answered_uCount (l : List ClsAnswer) : (s.answered l).uCount = s.uCount := rfl
@[simp] theorem answered_host (l : List ClsAnswer) : (s.answered l).host = s.host := rfl
@[simp] theorem answered_cls (l : List ClsAnswer) : (s.answered l).cls =
    { s.cls with answers := l, pending := none } := rfl
@[simp] theorem answered_freeSeq (l : List ClsAnswer) : (s.answered l).freeSeq = s.freeSeq := rfl

/-! A value is emitted. -/

@[simp] theorem emit_cfg (t : Val) : (s.emit t).cfg = s.cfg := rfl
@[simp] theorem emit_fault (t : Val) : (s.emit t).fault = s.fault := rfl
@[simp] theorem emit_faultCode (t : Val) : (s.emit t).faultCode = s.faultCode := rfl
@[simp] theorem emit_lastErr (t : Val) : (s.emit t).lastErr = s.lastErr := rfl
@[simp] theorem emit_desc (t : Val) : (s.emit t).desc = s.desc := rfl
@[simp] theorem emit_dCount (t : Val) : (s.emit t).dCount = s.dCount := rfl
@[simp] theorem emit_tAct (t : Val) : (s.emit t).tAct = s.tAct := rfl
@[simp] theorem emit_tLen (t : Val) : (s.emit t).tLen = s.tLen := rfl
@[simp] theorem emit_tVal (t : Val) : (s.emit t).tVal = s.tVal := rfl
@[simp] theorem emit_tBad (t : Val) : (s.emit t).tBad = s.tBad := rfl
@[simp] theorem emit_tOver (t : Val) : (s.emit t).tOver = s.tOver := rfl
@[simp] theorem emit_buf (t : Val) : (s.emit t).buf = s.buf := rfl
@[simp] theorem emit_bLen (t : Val) : (s.emit t).bLen = s.bLen := rfl
@[simp] theorem emit_pBits (t : Val) : (s.emit t).pBits = s.pBits := rfl
@[simp] theorem emit_pCurUnit (t : Val) : (s.emit t).pCurUnit = s.pCurUnit := rfl
@[simp] theorem emit_pCurOff (t : Val) : (s.emit t).pCurOff = s.pCurOff := rfl
@[simp] theorem emit_uBuf (t : Val) : (s.emit t).uBuf = s.uBuf := rfl
@[simp] theorem emit_uLen (t : Val) : (s.emit t).uLen = s.uLen := rfl
@[simp] theorem emit_uState (t : Val) : (s.emit t).uState = s.uState := rfl
@[simp] theorem emit_uCurUnit (t : Val) : (s.emit t).uCurUnit = s.uCurUnit := rfl
@[simp] theorem emit_uCurOff (t : Val) : (s.emit t).uCurOff = s.uCurOff := rfl
@[simp] theorem emit_patLen (t : Val) : (s.emit t).patLen = 0 := rfl
@[simp] theorem emit_patVal (t : Val) : (s.emit t).patVal = 0 := rfl
@[simp] theorem emit_uDiscard (t : Val) : (s.emit t).uDiscard = s.uDiscard := rfl
@[simp] theorem emit_uCount (t : Val) : (s.emit t).uCount = s.uCount + 1 := rfl
@[simp] theorem emit_host (t : Val) : (s.emit t).host =
    { s.host with output := s.host.output ++ [rspWord .ok 0 (portValue s.cfg t)] } := rfl
@[simp] theorem emit_cls (t : Val) : (s.emit t).cls = s.cls := rfl
@[simp] theorem emit_freeSeq (t : Val) : (s.emit t).freeSeq = s.freeSeq := rfl

/-! The session ends. -/

@[simp] theorem endSession_cfg : (s.endSession).cfg = s.cfg := rfl
@[simp] theorem endSession_fault : (s.endSession).fault = s.fault := rfl
@[simp] theorem endSession_faultCode : (s.endSession).faultCode = s.faultCode := rfl
@[simp] theorem endSession_lastErr : (s.endSession).lastErr = s.lastErr := rfl
@[simp] theorem endSession_desc : (s.endSession).desc = s.desc := rfl
@[simp] theorem endSession_dCount : (s.endSession).dCount = s.dCount := rfl
@[simp] theorem endSession_tAct : (s.endSession).tAct = s.tAct := rfl
@[simp] theorem endSession_tLen : (s.endSession).tLen = s.tLen := rfl
@[simp] theorem endSession_tVal : (s.endSession).tVal = s.tVal := rfl
@[simp] theorem endSession_tBad : (s.endSession).tBad = s.tBad := rfl
@[simp] theorem endSession_tOver : (s.endSession).tOver = s.tOver := rfl
@[simp] theorem endSession_buf : (s.endSession).buf = s.buf := rfl
@[simp] theorem endSession_bLen : (s.endSession).bLen = s.bLen := rfl
@[simp] theorem endSession_pBits : (s.endSession).pBits = s.pBits := rfl
@[simp] theorem endSession_pCurUnit : (s.endSession).pCurUnit = s.pCurUnit := rfl
@[simp] theorem endSession_pCurOff : (s.endSession).pCurOff = s.pCurOff := rfl
@[simp] theorem endSession_uBuf : (s.endSession).uBuf = s.uBuf := rfl
@[simp] theorem endSession_uLen : (s.endSession).uLen = s.uLen := rfl
@[simp] theorem endSession_uState : (s.endSession).uState = .exhausted := rfl
@[simp] theorem endSession_uCurUnit : (s.endSession).uCurUnit = s.uCurUnit := rfl
@[simp] theorem endSession_uCurOff : (s.endSession).uCurOff = s.uCurOff := rfl
@[simp] theorem endSession_patLen : (s.endSession).patLen = 0 := rfl
@[simp] theorem endSession_patVal : (s.endSession).patVal = 0 := rfl
@[simp] theorem endSession_uDiscard : (s.endSession).uDiscard = s.patLen := rfl
@[simp] theorem endSession_uCount : (s.endSession).uCount = s.uCount := rfl
@[simp] theorem endSession_host : (s.endSession).host =
    { s.host with output := s.host.output ++ [rspWord .endOfSeq 0 0] } := rfl
@[simp] theorem endSession_cls : (s.endSession).cls = s.cls := rfl
@[simp] theorem endSession_freeSeq : (s.endSession).freeSeq = s.freeSeq := rfl

end Updates

/-! One character of the open text (40_descriptor.md R133). -/

/-- `addChar` changes TLEN, TVAL, TBAD and TOVER and nothing else. -/
theorem addChar_eq (s : State) (c : BitVec 8) :
    s.addChar c = { s with
      tLen := (s.addChar c).tLen, tVal := (s.addChar c).tVal, tBad := (s.addChar c).tBad, tOver := (s.addChar c).tOver } := by
  unfold addChar addDigit
  split
  · split <;> rfl
  · rfl

@[simp] theorem addChar_cfg (s : State) (c : BitVec 8) : (s.addChar c).cfg = s.cfg := by rw [addChar_eq]
@[simp] theorem addChar_fault (s : State) (c : BitVec 8) : (s.addChar c).fault = s.fault := by rw [addChar_eq]
@[simp] theorem addChar_faultCode (s : State) (c : BitVec 8) : (s.addChar c).faultCode = s.faultCode := by rw [addChar_eq]
@[simp] theorem addChar_lastErr (s : State) (c : BitVec 8) : (s.addChar c).lastErr = s.lastErr := by rw [addChar_eq]
@[simp] theorem addChar_desc (s : State) (c : BitVec 8) : (s.addChar c).desc = s.desc := by rw [addChar_eq]
@[simp] theorem addChar_dCount (s : State) (c : BitVec 8) : (s.addChar c).dCount = s.dCount := by rw [addChar_eq]
@[simp] theorem addChar_tAct (s : State) (c : BitVec 8) : (s.addChar c).tAct = s.tAct := by rw [addChar_eq]
@[simp] theorem addChar_buf (s : State) (c : BitVec 8) : (s.addChar c).buf = s.buf := by rw [addChar_eq]
@[simp] theorem addChar_bLen (s : State) (c : BitVec 8) : (s.addChar c).bLen = s.bLen := by rw [addChar_eq]
@[simp] theorem addChar_pBits (s : State) (c : BitVec 8) : (s.addChar c).pBits = s.pBits := by rw [addChar_eq]
@[simp] theorem addChar_pCurUnit (s : State) (c : BitVec 8) : (s.addChar c).pCurUnit = s.pCurUnit := by rw [addChar_eq]
@[simp] theorem addChar_pCurOff (s : State) (c : BitVec 8) : (s.addChar c).pCurOff = s.pCurOff := by rw [addChar_eq]
@[simp] theorem addChar_uBuf (s : State) (c : BitVec 8) : (s.addChar c).uBuf = s.uBuf := by rw [addChar_eq]
@[simp] theorem addChar_uLen (s : State) (c : BitVec 8) : (s.addChar c).uLen = s.uLen := by rw [addChar_eq]
@[simp] theorem addChar_uState (s : State) (c : BitVec 8) : (s.addChar c).uState = s.uState := by rw [addChar_eq]
@[simp] theorem addChar_uCurUnit (s : State) (c : BitVec 8) : (s.addChar c).uCurUnit = s.uCurUnit := by rw [addChar_eq]
@[simp] theorem addChar_uCurOff (s : State) (c : BitVec 8) : (s.addChar c).uCurOff = s.uCurOff := by rw [addChar_eq]
@[simp] theorem addChar_patLen (s : State) (c : BitVec 8) : (s.addChar c).patLen = s.patLen := by rw [addChar_eq]
@[simp] theorem addChar_patVal (s : State) (c : BitVec 8) : (s.addChar c).patVal = s.patVal := by rw [addChar_eq]
@[simp] theorem addChar_uDiscard (s : State) (c : BitVec 8) : (s.addChar c).uDiscard = s.uDiscard := by rw [addChar_eq]
@[simp] theorem addChar_uCount (s : State) (c : BitVec 8) : (s.addChar c).uCount = s.uCount := by rw [addChar_eq]
@[simp] theorem addChar_host (s : State) (c : BitVec 8) : (s.addChar c).host = s.host := by rw [addChar_eq]
@[simp] theorem addChar_cls (s : State) (c : BitVec 8) : (s.addChar c).cls = s.cls := by rw [addChar_eq]
@[simp] theorem addChar_freeSeq (s : State) (c : BitVec 8) : (s.addChar c).freeSeq = s.freeSeq := by rw [addChar_eq]

end Sys2Proof.Machine.State
end

