-- ==== Sys2Proof/Laws/Ops.lean ====
section
/-! SUPPORT. The shared operations: how a command ends, bit strings and their values, bits of units and of streams. -/

namespace Sys2Proof.Machine

/-! ## How a command ends -/

theorem respond_eq (st : Status) (aux : BitVec 8) (data : Val) (s : State) :
    respond st aux data s = .next (s.reply (rspWord st aux data)) := rfl

theorem raiseError_eq (st : Status) (info : Val) (s : State) :
    raiseError st info s =
      .next (State.reply { s with lastErr := st.code } (rspWord st 0 (st.raisedData info))) := rfl

theorem raiseFault_eq (st : Status) (info : Val) (s : State) :
    raiseFault st info s =
      .next (State.reply { s with fault := true, faultCode := st.code, lastErr := st.code }
        (rspWord st st.code (st.raisedData info))) := rfl

theorem unlessFaulted_of_faulted {s : State} (h : s.fault = true) (o : Host.Outcome State Fault Refusal) :
    unlessFaulted s o = .next (s.reply (rspWord .faulted s.faultCode 0)) := by
  simp [unlessFaulted, h, respond]

theorem unlessFaulted_of_not_faulted {s : State} (h : s.fault = false) (o : Host.Outcome State Fault Refusal) :
    unlessFaulted s o = o := by
  simp [unlessFaulted, h]

/-- What the check before a command can answer: the refusal, or what the command answers. -/
theorem unlessFaulted_next {s t : State} {o : Host.Outcome State Fault Refusal} (h : unlessFaulted s o = .next t) :
    (s.fault = true ∧ t = s.reply (rspWord .faulted s.faultCode 0)) ∨ (s.fault = false ∧ o = .next t) := by
  cases hf : s.fault with
  | true => rw [unlessFaulted_of_faulted hf] at h; exact .inl ⟨rfl, (Host.Outcome.next.inj h).symm⟩
  | false => rw [unlessFaulted_of_not_faulted hf] at h; exact .inr ⟨rfl, h⟩

/-! ## The response word -/

theorem rspWord_toNat (st : Status) (aux : BitVec 8) (data : Val) :
    (rspWord st aux data).toNat = st.code.toNat * 2 ^ 56 + aux.toNat * 2 ^ 48 + data.toNat := by
  have h1 : (st.code ++ aux).toNat = st.code.toNat * 2 ^ 8 + aux.toNat := by
    rw [BitVec.toNat_append, ← Nat.shiftLeft_add_eq_or_of_lt aux.isLt, Nat.shiftLeft_eq]
  have h2 : (st.code ++ aux ++ 0#16).toNat = (st.code ++ aux).toNat * 2 ^ 16 + 0 := by
    rw [BitVec.toNat_append, ← Nat.shiftLeft_add_eq_or_of_lt (0#16).isLt, Nat.shiftLeft_eq]
    rfl
  have h3 : (st.code ++ aux ++ 0#16 ++ data).toNat = (st.code ++ aux ++ 0#16).toNat * 2 ^ 32 + data.toNat := by
    rw [BitVec.toNat_append, ← Nat.shiftLeft_add_eq_or_of_lt data.isLt, Nat.shiftLeft_eq]
  show (st.code ++ aux ++ 0#16 ++ data).toNat = _
  rw [h3, h2, h1]
  ring

/-- The ST field of a response word (30_encoding.md R92). -/
theorem rspWord_st (st : Status) (aux : BitVec 8) (data : Val) : (rspWord st aux data).extractLsb' 56 8 = st.code := by
  apply BitVec.eq_of_toNat_eq
  rw [BitVec.extractLsb'_toNat, Nat.shiftRight_eq_div_pow, rspWord_toNat]
  have := st.code.isLt; have := aux.isLt; have := data.isLt
  omega

/-! ## Bit strings -/

@[simp] theorem bitsVal_nil : bitsVal [] = 0 := rfl

/-- A bit appended at the end: the value doubles and the bit is added (00_scope.md R10, 43_unpacker.md R214). -/
theorem bitsVal_append_one (bs : List Bool) (b : Bool) : bitsVal (bs ++ [b]) = 2 * bitsVal bs + b.toNat := by
  induction bs with
  | nil => simp [bitsVal]
  | cons a bs ih =>
    simp only [List.cons_append, bitsVal, List.length_append, List.length_singleton, ih, pow_succ]
    ring

theorem bitsVal_lt (bs : List Bool) : bitsVal bs < 2 ^ bs.length := by
  induction bs with
  | nil => simp
  | cons b bs ih =>
    simp only [bitsVal, List.length_cons, pow_succ]
    have : b.toNat ≤ 1 := Bool.toNat_le b
    nlinarith

@[simp] theorem bitsOf_length (n v : Nat) : (bitsOf n v).length = n := by simp [bitsOf]

theorem bitsOf_getD (n v k : Nat) : (bitsOf n v).getD k false = (decide (k < n) && v.testBit (n - 1 - k)) := by
  by_cases h : k < n <;> simp [bitsOf, List.getD_eq_getElem?_getD, h]

/-! ## Masks, units and streams -/

theorem getLsbD_lowMask (n i : Nat) : (lowMask n).getLsbD i = (decide (i < 32) && decide (i < n)) := by
  simp [lowMask, BitVec.getLsbD_ofNat, Nat.shiftLeft_eq, Nat.testBit_two_pow_sub_one]

theorem unitBit_or (u v : Byte) (i : Nat) : unitBit (u ||| v) i = (unitBit u i || unitBit v i) := by
  simp [unitBit]

@[simp] theorem unitBit_zero (i : Nat) : unitBit 0 i = false := by simp [unitBit]

theorem Memory.streamBit_orAt {m : Memory} (h : m.wf = true) (u : Nat) (x : Byte) (k : Nat) :
    (m.orAt u x).streamBit k = (m.streamBit k || (decide (k / 8 = u) && unitBit x (k % 8))) := by
  unfold Memory.streamBit
  rw [Memory.read_orAt h]
  by_cases hk : k / 8 = u
  · simp [hk, unitBit_or]
  · simp [hk]

end Sys2Proof.Machine
end

