-- ==== Sys2Proof/Laws/Unpacker.lean ====
section
/-! SUPPORT. The unpacker's loop: its induction, packaged once, and what one bit does to the cursor. -/

namespace Sys2Proof.Machine

/-- Everything a UNEXT's loop can do, as one induction (43_unpacker.md R213-R218): `P` holds between bits, `R` of what
the loop answers. It goes on after a non-match, and it ends at the end of the stream, with a value, or waiting. -/
theorem unextLoop_induction {P R : State → Prop}
    (goes_on : ∀ s rest, P s → s.uCurUnit ≠ s.uLen → P ((s.takeBit).answered rest))
    (ends : ∀ s, P s → s.uCurUnit = s.uLen → R s.endSession)
    (emits : ∀ s rest t, P s → s.uCurUnit ≠ s.uLen → R (((s.takeBit).answered rest).emit t))
    (waits : ∀ s, P s → s.uCurUnit ≠ s.uLen → R s.takeBit) :
    ∀ (as : List ClsAnswer) (s : State), P s → R (unextLoop as s) := by
  intro as
  induction as with
  | nil =>
    intro s hs
    unfold unextLoop
    split
    · exact ends s hs ‹_›
    · exact waits s hs ‹_›
  | cons a rest ih =>
    intro s hs
    unfold unextLoop
    split
    · exact ends s hs ‹_›
    · split
      · exact emits s rest a.t hs ‹_›
      · exact ih _ (goes_on s rest hs ‹_›)

/-- A UNEXT that waits: no answer yet, or one that ends the command, or one that sends the loop on. -/
theorem resumeUnext_cases (s : State) :
    (s.cls.answers = [] ∧ resumeUnext s = s)
    ∨ (∃ a rest, s.cls.answers = a :: rest ∧ a.isMatch = true ∧ resumeUnext s = (s.answered rest).emit a.t)
    ∨ (∃ a rest, s.cls.answers = a :: rest ∧ a.isMatch = false ∧ resumeUnext s = unextLoop rest (s.answered rest)) := by
  cases h : s.cls.answers with
  | nil => exact .inl ⟨rfl, by simp [resumeUnext, h]⟩
  | cons a rest =>
    cases hm : a.isMatch with
    | true => exact .inr (.inl ⟨a, rest, rfl, hm, by simp [resumeUnext, h, hm]⟩)
    | false => exact .inr (.inr ⟨a, rest, rfl, hm, by simp [resumeUnext, h, hm]⟩)

/-- `UCUR_OFF` after one bit: it rolls over at 8 (R214). -/
theorem off_add_one_toNat (o : BitVec 3) : (o + 1).toNat = if o = 7 then 0 else o.toNat + 1 := by
  revert o
  decide

/-- `UCUR_UNIT` counts up without wrapping below ULEN. -/
theorem unit_add_one_toNat {u l : BitVec 16} (h : u.toNat < l.toNat) : (u + 1).toNat = u.toNat + 1 := by
  have := l.isLt
  have one : (1 : BitVec 16).toNat = 1 := rfl
  rw [BitVec.toNat_add, one]
  omega

/-- One bit moves the decode cursor by one stream position (R31, R214). -/
theorem takeBit_position {s : State} (h : s.uCurUnit.toNat < s.uLen.toNat) :
    8 * (s.takeBit).uCurUnit.toNat + (s.takeBit).uCurOff.toNat = 8 * s.uCurUnit.toNat + s.uCurOff.toNat + 1 := by
  rw [State.takeBit_uCurUnit, State.takeBit_uCurOff, off_add_one_toNat]
  by_cases h7 : s.uCurOff = 7
  · have : (7 : BitVec 3).toNat = 7 := rfl
    simp only [h7, if_true, unit_add_one_toNat h, this]
    omega
  · simp only [h7, if_false]
    omega

/-- The cursor's bit is the bit at its stream position (00_scope.md R9). -/
theorem nextBit_eq_streamBit (s : State) :
    s.nextBit = s.uBuf.streamBit (8 * s.uCurUnit.toNat + s.uCurOff.toNat) := by
  have := s.uCurOff.isLt
  have e1 : (8 * s.uCurUnit.toNat + s.uCurOff.toNat) / 8 = s.uCurUnit.toNat := by omega
  have e2 : (8 * s.uCurUnit.toNat + s.uCurOff.toNat) % 8 = s.uCurOff.toNat := by omega
  rw [State.nextBit, Memory.streamBit, e1, e2]

end Sys2Proof.Machine
end

