-- ==== Sys2Proof/Laws/Invariant.lean ====
section
/-! SUPPORT. What each shared operation does to the invariant `State.Inv` (10_state.md R22-R33). -/

namespace Sys2Proof.Machine

/-- A response leaves the invariant. -/
theorem State.Inv.reply {s : State} (h : s.Inv) (r : RspWord) : (s.reply r).Inv := h

/-- So does taking a word off the command port. -/
theorem State.Inv.withInput {s : State} (h : s.Inv) (rest : List HostEvent) : (s.withInput rest).Inv := h

/-- Error entry writes a listed code to LASTERR. -/
theorem State.Inv.lastErr {s : State} (h : s.Inv) (e : BitVec 8)
    (he : e ∈ [0, Status.errIllegal.code, Status.errMalformed.code, Status.errCapacity.code, Status.errRange.code,
      Status.errSeq.code, Status.faultWidth.code, Status.faultBounds.code]) : State.Inv { s with lastErr := e } := by
  obtain ⟨⟨a, b, _⟩, h⟩ := h
  exact ⟨⟨a, b, he⟩, h⟩

/-- Fault entry, with no query pending. -/
theorem State.Inv.faultEntry {s : State} (h : s.Inv) (hp : s.cls.pending = none) (st : Status)
    (hst : st = .faultWidth ∨ st = .faultBounds) :
    State.Inv { s with fault := true, faultCode := st.code, lastErr := st.code } := by
  obtain ⟨_, h1, h2, h3, h4, h5, h6, _⟩ := h
  refine ⟨⟨by simp, fun _ => ?_, ?_⟩, h1, h2, h3, h4, h5, h6, ?_⟩
  · rcases hst with rfl | rfl <;> simp
  · rcases hst with rfl | rfl <;> simp
  · intro q hq
    simp [hp] at hq

/-- RST establishes it. -/
theorem State.afterReset_inv (s : State) : s.afterReset.Inv := by
  refine ⟨?_, ?_, ?_, ?_, ?_, ?_, ?_⟩ <;>
    simp [State.ErrorsOk, State.TableOk, State.TextOk, State.BufferOk, State.PackerOk, State.UnpackerOk,
      State.PortOk, State.decodeCursor, Cursor.position]

/-- CLR keeps it. -/
theorem State.Inv.cleared {s : State} (h : s.Inv) : s.cleared.Inv := by
  obtain ⟨⟨a, b, _⟩, _⟩ := h
  refine ⟨⟨a, b, by simp⟩, ?_, ?_, ?_, ?_, ?_, ?_⟩ <;>
    simp [State.TableOk, State.TextOk, State.BufferOk, State.PackerOk, State.UnpackerOk,
      State.PortOk, State.decodeCursor, Cursor.position]

theorem State.Inv.openText {s : State} (h : s.Inv) : s.openText.Inv := by
  obtain ⟨h0, h1, _, h3, h4, h5, h6⟩ := h
  exact ⟨h0, h1, by simp [State.TextOk], h3, h4, h5, h6⟩

theorem State.Inv.closeText {s : State} (h : s.Inv) : s.closeText.Inv := by
  obtain ⟨h0, h1, _, h3, h4, h5, h6⟩ := h
  exact ⟨h0, h1, by simp [State.TextOk], h3, h4, h5, h6⟩

/-- An append to a table that is not full (40_descriptor.md R131, R134). -/
theorem State.Inv.appendDesc {s : State} (h : s.Inv) (hf : s.dCount.toNat ≠ s.cfg.descMax) (d : Desc)
    (hd : d.w.toNat ≤ 32) : (s.appendDesc d).Inv := by
  obtain ⟨h0, ⟨a, b, c⟩, h2, h3, h4, h5, h6⟩ := h
  have hm := s.cfg.descMax_ok
  have e : (s.dCount + 1).toNat = s.dCount.toNat + 1 := by
    have one : (1 : BitVec 14).toNat = 1 := rfl
    rw [BitVec.toNat_add, one]
    have := hm.2
    omega
  refine ⟨h0, ⟨DescTable.wf_write a _ _, ?_, ?_⟩, h2, h3, h4, h5, h6⟩
  · intro e' he
    simp only [State.appendDesc_desc, State.appendDesc_dCount, e] at he ⊢
    rcases DescTable.mem_write he with rfl | he
    · exact ⟨by simp, hd⟩
    · have := b _ he
      exact ⟨by omega, this.2⟩
  · simp only [State.appendDesc_cfg, State.appendDesc_dCount, e]
    omega

/-- A character of an open text (40_descriptor.md R133). -/
theorem State.Inv.addChar {s : State} (h : s.Inv) (hact : s.tAct = true) (c : BitVec 8) : (s.addChar c).Inv := by
  obtain ⟨h0, h1, ⟨a, b, c1, _⟩, h3, h4, h5, h6⟩ := h
  rw [State.addChar_eq]
  refine ⟨h0, h1, ?_, h3, h4, h5, h6⟩
  unfold State.addChar State.addDigit
  split
  · rename_i dd hd
    split
    · rename_i h32
      exact ⟨a, b, fun _ => h32, fun hh => by simp [hact] at hh⟩
    · rename_i h32
      have h32' : s.tLen.toNat ≠ 32 := h32
      have e : (s.tLen + 1).toNat = s.tLen.toNat + 1 := by
        have one : (1 : BitVec 6).toNat = 1 := rfl
        rw [BitVec.toNat_add, one]
        omega
      have ev : ((s.tVal <<< 1) ||| (BitVec.ofBool dd).setWidth 32).toNat = 2 * s.tVal.toNat + dd.toNat := by
        have hv : s.tVal.toNat < 2 ^ 31 := lt_of_lt_of_le b (Nat.pow_le_pow_right (by decide) (by omega))
        have hb : (BitVec.setWidth 32 (BitVec.ofBool dd)).toNat = dd.toNat := by cases dd <;> rfl
        rw [BitVec.toNat_or, BitVec.toNat_shiftLeft, hb, Nat.shiftLeft_eq, Nat.mod_eq_of_lt (by omega),
          ← Nat.shiftLeft_eq, ← Nat.shiftLeft_add_eq_or_of_lt (by cases dd <;> decide), Nat.shiftLeft_eq]
        omega
      refine ⟨?_, ?_, fun ho => absurd (c1 ho) h32', fun hh => by simp [hact] at hh⟩
      · simp only [e]
        omega
      · simp only [e, ev, pow_succ]
        have := Bool.toNat_le dd
        omega
  · exact ⟨a, b, c1, fun hh => by simp [hact] at hh⟩

/-- Every valid entry is at most 32 bits wide. -/
theorem State.Inv.width_le {s : State} (h : s.Inv) : ∀ d ∈ s.descriptors, d.w.toNat ≤ 32 := by
  intro d hd
  simp only [State.descriptors, List.mem_map] at hd
  obtain ⟨k, _, rfl⟩ := hd
  exact DescTable.read_width_le (fun c hc => (h.2.1.2.1 c hc).2) k

/-- One bit read before the end of the snapshot (43_unpacker.md R214): where the cursor and the pattern stand. -/
theorem State.Inv.takeBit_facts {s : State} (h : s.Inv) (hne : s.uCurUnit ≠ s.uLen) :
    (s.takeBit).uCurUnit.toNat ≤ s.uLen.toNat ∧ ((s.takeBit).uCurUnit = s.uLen → (s.takeBit).uCurOff = 0)
    ∧ (s.takeBit).patVal < 2 ^ (s.takeBit).patLen.toNat ∧ (s.takeBit).patLen.toNat = s.patLen.toNat + 1
    ∧ s.uCount.toNat + (s.takeBit).patLen.toNat + s.uDiscard.toNat ≤ (s.takeBit).decodeCursor.position := by
  obtain ⟨_, _, _, _, _, ⟨_, _, a3, a4, _, a6, a7, _, _⟩, _⟩ := h
  have hlt : s.uCurUnit.toNat < s.uLen.toNat := by
    have : s.uCurUnit.toNat ≠ s.uLen.toNat := fun hh => hne (BitVec.eq_of_toNat_eq hh)
    omega
  have hpos := takeBit_position hlt
  have hb := s.cfg.bufUnits_ok
  simp only [State.decodeCursor, Cursor.position] at a7 ⊢
  have hol := s.uCurOff.isLt
  have hol' := (s.takeBit).uCurOff.isLt
  have e : (s.takeBit).patLen.toNat = s.patLen.toNat + 1 := by
    have one : (1 : BitVec 20).toNat = 1 := rfl
    rw [State.takeBit_patLen, BitVec.toNat_add, one]
    have := hb.2
    omega
  refine ⟨by omega, ?_, ?_, e, by omega⟩
  · intro hh
    have h7 : s.uCurOff = 7 := by
      by_contra h7
      rw [State.takeBit_uCurUnit, if_neg h7] at hh
      exact hne hh
    rw [State.takeBit_uCurOff, h7]
    rfl
  · rw [e, State.takeBit_patVal, pow_succ]
    have := Bool.toNat_le s.nextBit
    omega

/-- One bit read by a Scanning unpacker that is not halted: the query it makes is pending. -/
theorem State.Inv.takeBit {s : State} (h : s.Inv) (hf : s.fault = false) (hs : s.uState = .scanning)
    (hne : s.uCurUnit ≠ s.uLen) : s.takeBit.Inv := by
  obtain ⟨b1, b2, b3, b4, b5⟩ := h.takeBit_facts hne
  obtain ⟨h0, h1, h2, h3, h4, ⟨a1, a2, a3, _, _, _, _, a8, _⟩, _⟩ := h
  refine ⟨h0, h1, h2, h3, h4, ⟨a1, a2, a3, b1, b2, b3, b5, a8, ?_⟩, ?_⟩
  · intro hh
    simp [hs] at hh
  · refine ⟨by simp, ?_⟩
    intro q hq
    simp only [State.takeBit_cls, Option.mem_def, Option.some.injEq] at hq
    refine ⟨by rw [← hq]; simp, ?_, hs, hf⟩
    intro h0
    have := congrArg BitVec.toNat h0
    rw [b4] at this
    simp at this

end Sys2Proof.Machine
end

