-- ==== Sys2Proof/Laws/Packer.lean ====
section
/-! SUPPORT. The packer's write loop: which bits of the stream one field sets (41_packer.md R162-R166), and what a
whole table leaves (R167, R168). -/

namespace Sys2Proof.Machine

/-- The bits of a chunk that fits (R163): the `n` low bits of `v`, the first at unit bit index `8 - r`. -/
theorem unitBit_fitChunk (v : Val) {n r i : Nat} (hn : n ≤ r) (hr : r ≤ 8) (hi : i < 8) :
    unitBit (fitChunk v n r) i =
      (decide (8 - r ≤ i ∧ i < 8 - r + n) && v.getLsbD (n - 1 - (i - (8 - r)))) := by
  simp only [unitBit, fitChunk, BitVec.getLsbD_setWidth, BitVec.getLsbD_shiftLeft, BitVec.getLsbD_and, getLsbD_lowMask]
  by_cases h : 8 - r ≤ i ∧ i < 8 - r + n
  · have e : 7 - i - (r - n) = n - 1 - (i - (8 - r)) := by omega
    have h1 : 7 - i < 8 := by omega
    have h2 : 7 - i < 32 := by omega
    have h3 : ¬ 7 - i < r - n := by omega
    have h4 : n - 1 - (i - (8 - r)) < 32 := by omega
    have h5 : n - 1 - (i - (8 - r)) < n := by omega
    simp [e, h, h1, h2, h3, h4, h5]
  · rw [decide_eq_false h]
    by_cases h3 : 7 - i < r - n
    · simp [h3]
    · have h5 : ¬ 7 - i - (r - n) < n := by omega
      simp [h5]

/-- The bits of a chunk that spans (R164): the highest `r` of the `n` unwritten bits, the first at unit bit index
`8 - r`. -/
theorem unitBit_spanChunk (v : Val) {n r i : Nat} (hn : r < n) (hr1 : 1 ≤ r) (hr : r ≤ 8) (hi : i < 8) :
    unitBit (spanChunk v n r) i = (decide (8 - r ≤ i) && v.getLsbD (n - 1 - (i - (8 - r)))) := by
  simp only [unitBit, spanChunk, BitVec.getLsbD_setWidth, BitVec.getLsbD_and, BitVec.getLsbD_ushiftRight,
    getLsbD_lowMask]
  by_cases h : 8 - r ≤ i
  · have e : n - r + (7 - i) = n - 1 - (i - (8 - r)) := by omega
    have h1 : 7 - i < 8 := by omega
    have h2 : 7 - i < 32 := by omega
    have h3 : 7 - i < r := by omega
    simp [e, h, h1, h2, h3]
  · have h3 : ¬ 7 - i < r := by omega
    simp [h, h3]

/-- The bit that a field of `n` bits with value `v`, standing at stream position `p`, has at stream position `k`: its
bits from the most significant on; none outside it. -/
def fieldBit (v : Val) (n p k : Nat) : Bool := decide (p ≤ k ∧ k < p + n) && v.getLsbD (n - 1 - (k - p))

theorem fieldBit_inside {v : Val} {n p k : Nat} (h1 : p ≤ k) (h2 : k < p + n) :
    fieldBit v n p k = v.getLsbD (n - 1 - (k - p)) := by simp [fieldBit, h1, h2]

theorem fieldBit_outside {v : Val} {n p k : Nat} (h : ¬ (p ≤ k ∧ k < p + n)) : fieldBit v n p k = false := by
  simp only [fieldBit, decide_eq_false h, Bool.false_and]

theorem Cursor.position_mk (u o : Nat) : Cursor.position ⟨u, o⟩ = 8 * u + o := rfl

/-- The unit at which a fitting field starts gets the field's bits. -/
theorem fitChunk_fieldBit (v : Val) {n co : Nat} (hco : co < 8) (hn : n ≤ 8 - co) (cu k : Nat) :
    (decide (k / 8 = cu) && unitBit (fitChunk v n (8 - co)) (k % 8)) = fieldBit v n (8 * cu + co) k := by
  rw [unitBit_fitChunk v hn (by omega) (by omega)]
  by_cases h : 8 * cu + co ≤ k ∧ k < 8 * cu + co + n
  · have a1 : k / 8 = cu := by omega
    have a2 : 8 - (8 - co) ≤ k % 8 ∧ k % 8 < 8 - (8 - co) + n := by omega
    have a3 : k % 8 - (8 - (8 - co)) = k - (8 * cu + co) := by omega
    rw [fieldBit_inside h.1 h.2, decide_eq_true a1, decide_eq_true a2, a3]
    rfl
  · rw [fieldBit_outside h]
    by_cases a1 : k / 8 = cu
    · have a2 : ¬ (8 - (8 - co) ≤ k % 8 ∧ k % 8 < 8 - (8 - co) + n) := by omega
      simp only [decide_eq_false a2, Bool.false_and, Bool.and_false]
    · simp only [decide_eq_false a1, Bool.false_and]

/-- The unit at which a spanning field starts gets the field's first bits; the rest of the field starts at the next
unit. -/
theorem spanChunk_fieldBit (v : Val) {n co : Nat} (hco : co < 8) (hn : 8 - co < n) (cu k : Nat) :
    (decide (k / 8 = cu) && unitBit (spanChunk v n (8 - co)) (k % 8) || fieldBit v (n - (8 - co)) (8 * (cu + 1)) k)
      = fieldBit v n (8 * cu + co) k := by
  rw [unitBit_spanChunk v hn (by omega) (by omega) (by omega)]
  by_cases h : 8 * cu + co ≤ k ∧ k < 8 * cu + co + n
  · rw [fieldBit_inside h.1 h.2]
    by_cases a1 : k / 8 = cu
    · have a2 : 8 - (8 - co) ≤ k % 8 := by omega
      have a3 : k % 8 - (8 - (8 - co)) = k - (8 * cu + co) := by omega
      rw [fieldBit_outside (by omega), decide_eq_true a1, decide_eq_true a2, a3]
      simp
    · have a5 : n - (8 - co) - 1 - (k - 8 * (cu + 1)) = n - 1 - (k - (8 * cu + co)) := by omega
      rw [fieldBit_inside (by omega) (by omega), decide_eq_false a1, a5]
      simp
  · rw [fieldBit_outside h, fieldBit_outside (by omega)]
    by_cases a1 : k / 8 = cu
    · have a2 : ¬ 8 - (8 - co) ≤ k % 8 := by omega
      simp [a2]
    · simp [a1]

/-- What `Write` leaves when the buffer is long enough (R162-R165, R167): the cursor has moved by `n` bits, and
exactly the stream positions of the field have its bits ORed in. -/
theorem writeField_spec (bLen : Nat) (v : Val) (fuel : Nat) :
    ∀ (n : Nat) (c : Cursor) (m : Memory), m.wf = true → c.off < 8 → n ≤ fuel → c.position + n ≤ 8 * bLen →
      (∀ e ∈ m, e.1 < bLen) →
      ∃ m', writeField bLen v fuel n c m = .ok (⟨(c.position + n) / 8, (c.position + n) % 8⟩, m') ∧ m'.wf = true ∧
        (∀ e ∈ m', e.1 < bLen) ∧ ∀ k, m'.streamBit k = (m.streamBit k || fieldBit v n c.position k) := by
  induction fuel with
  | zero =>
    intro n c m hm hoff hn _ hlt
    obtain rfl : n = 0 := by omega
    refine ⟨m, ?_, hm, hlt, fun k => ?_⟩
    · have e1 : (8 * c.unit + c.off) / 8 = c.unit := by omega
      simp [writeField, Cursor.position, e1, Nat.mod_eq_of_lt hoff]
    · rw [fieldBit_outside (by omega), Bool.or_false]
  | succ fuel ih =>
    intro n c m hm hoff hn hfit hlt
    obtain ⟨cu, co⟩ := c
    rw [Cursor.position_mk] at hfit ⊢
    have hco : co < 8 := hoff
    by_cases hn0 : n = 0
    · subst hn0
      refine ⟨m, ?_, hm, hlt, fun k => ?_⟩
      · have e1 : (8 * cu + co) / 8 = cu := by omega
        simp [writeField, e1, Nat.mod_eq_of_lt hco]
      · rw [fieldBit_outside (by omega), Bool.or_false]
    · have hcu : ¬ bLen ≤ cu := by omega
      have hor : ∀ x : Byte, ∀ e ∈ m.orAt cu x, e.1 < bLen := by
        intro x e he
        rcases Memory.mem_write he with rfl | he
        · exact Nat.lt_of_not_le hcu
        · exact hlt e he
      by_cases hr : n ≤ 8 - co
      · refine ⟨m.orAt cu (fitChunk v n (8 - co)), ?_, Memory.wf_orAt hm _ _, hor _, fun k => ?_⟩
        · by_cases h8 : co + n = 8
          · have e1 : (8 * cu + co + n) / 8 = cu + 1 := by omega
            have e2 : (8 * cu + co + n) % 8 = 0 := by omega
            simp [writeField, hn0, hcu, hr, h8, e1, e2]
          · have e1 : (8 * cu + co + n) / 8 = cu := by omega
            have e2 : (8 * cu + co + n) % 8 = co + n := by omega
            simp [writeField, hn0, hcu, hr, h8, e1, e2]
        · rw [Memory.streamBit_orAt hm, fitChunk_fieldBit v hco hr]
      · obtain ⟨m', hw, hwf, hlt', hbits⟩ := ih (n - (8 - co)) ⟨cu + 1, 0⟩ (m.orAt cu (spanChunk v n (8 - co)))
          (Memory.wf_orAt hm _ _) (Nat.zero_lt_succ 7) (by omega) (by rw [Cursor.position_mk]; omega) (hor _)
        rw [Cursor.position_mk] at hw hbits
        refine ⟨m', ?_, hwf, hlt', fun k => ?_⟩
        · have e : 8 * (cu + 1) + 0 + (n - (8 - co)) = 8 * cu + co + n := by omega
          rw [e] at hw
          simp only [writeField, hn0, hcu, hr, if_false]
          exact hw
        · rw [hbits, Memory.streamBit_orAt hm, Bool.or_assoc, Nat.add_zero, spanChunk_fieldBit v hco (by omega)]

/-- The bits of a table whose first field stands at stream position `p`. -/
def tableBit : List Desc → (p k : Nat) → Bool
  | [], _, _ => false
  | d :: ds, p, k => fieldBit d.v d.w.toNat p k || tableBit ds (p + d.w.toNat) k

@[simp] theorem totalWidth_nil : totalWidth [] = 0 := rfl

@[simp] theorem totalWidth_cons (d : Desc) (ds : List Desc) : totalWidth (d :: ds) = d.w.toNat + totalWidth ds := by
  simp [totalWidth]

/-- What the packer's fold leaves when the buffer is long enough (R161, R167): no bounds fault, the cursor past the
last field, and every field's bits ORed in at its place. -/
theorem writeFields_spec (bLen : Nat) (ds : List Desc) :
    ∀ (c : Cursor) (m : Memory), m.wf = true → c.off < 8 → c.position + totalWidth ds ≤ 8 * bLen →
      (∀ e ∈ m, e.1 < bLen) →
      ∃ m', writeFields bLen ds c m =
          .ok (⟨(c.position + totalWidth ds) / 8, (c.position + totalWidth ds) % 8⟩, m') ∧ m'.wf = true ∧
        (∀ e ∈ m', e.1 < bLen) ∧ ∀ k, m'.streamBit k = (m.streamBit k || tableBit ds c.position k) := by
  induction ds with
  | nil =>
    intro c m hm hoff _ hlt
    refine ⟨m, ?_, hm, hlt, fun k => by simp [tableBit]⟩
    have e1 : (8 * c.unit + c.off) / 8 = c.unit := by omega
    simp [writeFields, Cursor.position, e1, Nat.mod_eq_of_lt hoff]
  | cons d ds ih =>
    intro c m hm hoff hfit hlt
    rw [totalWidth_cons] at hfit ⊢
    obtain ⟨m1, hw1, hwf1, hlt1, hb1⟩ := writeField_spec bLen d.v d.w.toNat d.w.toNat c m hm hoff le_rfl (by omega) hlt
    have hpos : Cursor.position ⟨(c.position + d.w.toNat) / 8, (c.position + d.w.toNat) % 8⟩
        = c.position + d.w.toNat := by
      rw [Cursor.position_mk]
      omega
    obtain ⟨m2, hw2, hwf2, hlt2, hb2⟩ := ih ⟨(c.position + d.w.toNat) / 8, (c.position + d.w.toNat) % 8⟩ m1 hwf1
      (Nat.mod_lt _ (by decide)) (by rw [hpos]; omega) hlt1
    rw [hpos] at hw2 hb2
    refine ⟨m2, ?_, hwf2, hlt2, fun k => ?_⟩
    · rw [writeFields, hw1]
      simp only [hw2, Nat.add_assoc]
    · rw [hb2, hb1, Bool.or_assoc, tableBit]

/-- The buffer holds the table's bits: `8 * size` is at least the total (R160). -/
theorem totalWidth_le_units (n : Nat) : n ≤ 8 * unitsFor n := by
  unfold unitsFor
  omega

end Sys2Proof.Machine
end

