-- ==== Sys2Proof/Laws/Step.lean ====
section
/-! SUPPORT. Everything one step can do. -/

namespace Sys2Proof.Machine

/-- The inversion of `step`: nothing presented; RST; a command that decodes; a word that does not; a UNEXT that waits. -/
theorem step_next {s t : State} (h : step s = .next t) :
    (s.cls.pending = none ∧ s.host.input = [] ∧ t = s)
    ∨ (∃ rest, s.host.input = .reset :: rest ∧ t = (s.withInput rest).afterReset)
    ∨ (∃ w rest i, s.cls.pending = none ∧ s.host.input = .command w :: rest ∧ decode w = .ok i
        ∧ exec i (s.withInput rest) = .next t)
    ∨ (∃ w rest e, s.cls.pending = none ∧ s.host.input = .command w :: rest ∧ decode w = .error e
        ∧ performIllegal (s.withInput rest) = .next t)
    ∨ (∃ q, s.cls.pending = some q ∧ (∀ rest, s.host.input ≠ .reset :: rest) ∧ t = resumeUnext s) := by
  unfold step advance at h
  cases hp : s.cls.pending with
  | none =>
    rw [hp] at h
    simp only [takeEvent] at h
    cases hi : s.host.input with
    | nil => rw [hi] at h; exact .inl ⟨rfl, rfl, (Host.Outcome.next.inj h).symm⟩
    | cons e rest =>
      rw [hi] at h
      cases e with
      | reset => exact .inr (.inl ⟨rest, rfl, (Host.Outcome.next.inj h).symm⟩)
      | command w =>
        simp only [performWord] at h
        cases hd : decode w with
        | ok i => rw [hd] at h; exact .inr (.inr (.inl ⟨w, rest, i, rfl, rfl, hd, h⟩))
        | error e => rw [hd] at h; exact .inr (.inr (.inr (.inl ⟨w, rest, e, rfl, rfl, hd, h⟩)))
  | some q =>
    rw [hp] at h
    simp only [waitOrReset] at h
    cases hi : s.host.input with
    | nil =>
      rw [hi] at h
      exact .inr (.inr (.inr (.inr ⟨q, rfl, fun _ => (List.cons_ne_nil _ _).symm, (Host.Outcome.next.inj h).symm⟩)))
    | cons e rest =>
      rw [hi] at h
      cases e with
      | reset => exact .inr (.inl ⟨rest, rfl, (Host.Outcome.next.inj h).symm⟩)
      | command w =>
        refine .inr (.inr (.inr (.inr ⟨q, rfl, fun rest' h' => ?_, (Host.Outcome.next.inj h).symm⟩)))
        cases h'

end Sys2Proof.Machine
end

