-- ==== Sys2Proof/Tests/Slice0.lean ====
section
/-! SUPPORT. The model's own tests. The expected words and values are those of 95_test_vectors.md (the vector is named
beside each) or of the rule that is named; none comes from a run of the model. The witnesses at the end show, for each
statement with hypotheses, a concrete state and operands that meet them. -/

namespace Sys2Proof.Tests

open Sys2Proof Sys2Proof.Machine

/-! ## WellFormed: each constraint of 00_scope.md R7 refuses what breaks it -/

theorem test_params_accepted : (Config.Params.check 16 64 8).isSome = true := by decide
theorem test_params_largest_accepted : (Config.Params.check 16383 65535 32).isSome = true := by decide
theorem test_params_desc_max_zero_refused : Config.Params.check 0 64 8 = none := by decide
theorem test_params_desc_max_too_big_refused : Config.Params.check 16384 65535 8 = none := by decide
theorem test_params_buf_units_too_small_refused : Config.Params.check 16 63 8 = none := by decide
theorem test_params_buf_units_too_big_refused : Config.Params.check 16 65536 8 = none := by decide
theorem test_params_t_w_zero_refused : Config.Params.check 16 64 0 = none := by decide
theorem test_params_t_w_too_big_refused : Config.Params.check 16 64 33 = none := by decide

/-- 30_encoding.md R95: "a value of a used field is never an illegal encoding by itself", so no command is ill formed. -/
theorem test_well_formed_all : ∀ i : Instr, i.wellFormed = true := by intro i; cases i <;> rfl

/-! ## Decoding: words written out from 30_encoding.md R91, R93, R98 and 95_test_vectors.md 2.1, 3 -/

theorem test_decode_nop : decode 0x0000000000000000 = .ok .nop := by decide
theorem test_decode_clr : decode 0x0100000000000000 = .ok .clr := by decide
theorem test_decode_rdreg : decode 0x0213000000000000 = .ok (.rdreg 0x13) := by decide
theorem test_decode_dpush : decode 0x100A0000000003FF = .ok (.dpush 10 0x3FF) := by decide
theorem test_decode_tbegin : decode 0x1100000000000000 = .ok .tbegin := by decide
theorem test_decode_tchar : decode 0x1278000000000000 = .ok (.tchar 0x78) := by decide
theorem test_decode_tend : decode 0x1300000000000000 = .ok .tend := by decide
theorem test_decode_drd : decode 0x1400000300000000 = .ok (.drd 3) := by decide
theorem test_decode_pack : decode 0x2000000000000000 = .ok .pack := by decide
theorem test_decode_bufrd : decode 0x3000000200000000 = .ok (.bufrd 2) := by decide
theorem test_decode_bufwr : decode 0x31000002000000FB = .ok (.bufwr 2 0xFB) := by decide
theorem test_decode_setlen : decode 0x3200000400000000 = .ok (.setlen 4) := by decide
theorem test_decode_uopen : decode 0x4000000000000000 = .ok .uopen := by decide
theorem test_decode_unext : decode 0x4100000000000000 = .ok .unext := by decide
theorem test_decode_reserved_bit_nop : decode 0x0000000000000001 = .error .reservedNotZero := by decide
theorem test_decode_undefined_ff : decode 0xFF00000000000000 = .error .undefinedOpcode := by decide
theorem test_decode_undefined_03 : decode 0x0300000000000000 = .error .undefinedOpcode := by decide
theorem test_decode_dpush_b : decode 0x1000000100000000 = .error .reservedNotZero := by decide
theorem test_decode_bufwr_v8 : decode 0x3100000000000100 = .error .reservedNotZero := by decide
theorem test_encode_dpush : encode (.dpush 32 0xFFFFFFFF) = 0x10200000FFFFFFFF := by decide
theorem test_encode_bufwr : encode (.bufwr 3 0x80) = 0x3100000300000080 := by decide
theorem test_decode_table_word : decodeTableWord 64 0x3100000300000080 = some (.bufwr 3 0x80) := by decide

/-! ## The notation of 30_encoding.md R98, R99 -/

theorem test_asm_dpush : assembleLine "DPUSH 10, 0x3FF ; ten ones".toList = some [.dpush 10 0x3FF] := by decide
theorem test_asm_tchar : assembleLine "TCHAR 'x'".toList = some [.tchar 0x78] := by decide
theorem test_asm_rdreg_name : assembleLine "RDREG PCUR_OFF".toList = some [.rdreg 7] := by decide
theorem test_asm_dbits : assembleLine "DBITS \"101\"".toList = some [.dpush 3 5] := by decide
/-- R99 defines DBITS over {0,1} only: U+0131, whose code ends in 0x31, is no digit (log entry 17). -/
theorem test_asm_dbits_other_refused : textBits [Char.ofNat 0x131] = none ∧ textBits ['2'] = none := by decide
theorem test_asm_dtext : assembleLine "DTEXT \"10\"".toList = some [.tbegin, .tchar 0x31, .tchar 0x30, .tend] := by decide
theorem test_asm_bufload : assembleLine "BUFLOAD 0xA1, 0b11111".toList
    = some [.setlen 2, .bufwr 0 0xA1, .bufwr 1 0x1F] := by decide
theorem test_asm_wide_refused : assembleLine "DPUSH 256, 0".toList = none := by decide

/-! ## Small states -/

/-- The state of an answer `next`. -/
def after : Host.Outcome State Fault Refusal → Option State
  | .next t => some t
  | .fault _ => none
  | .refused _ => none

/-- The response word that an answer `next` ends with. -/
def response (o : Host.Outcome State Fault Refusal) : Option RspWord :=
  (after o).bind (fun t => t.host.output.getLast?)

/-- What a step answers to the word `w`. -/
def answerTo (s : State) (w : Nat) : Option RspWord := response (step (s.withFetchWord 64 w))

/-- 95_test_vectors.md: "with `DESC_MAX = 1`". -/
def oneEntry : Config.Params := ⟨1, 64, 8, by decide, by decide, by decide⟩

/-- The table of V-P1. -/
def tableP1 : State :=
  { State.reset with
    desc := [(0, ⟨3, 5⟩), (1, ⟨8, 8⟩), (2, ⟨10, 0x3FF⟩), (3, ⟨1, 0⟩), (4, ⟨3, 7⟩)], dCount := 5 }

/-- DESC_MAX = 1 and the table full. -/
def fullTable : State := { State.resetWith oneEntry with desc := [(0, ⟨1, 1⟩)], dCount := 1 }

/-- DESC_MAX = 1 and the one entry is `d`. -/
def oneDesc (d : Desc) : State := { fullTable with desc := [(0, d)] }

/-- A text is open with 31 digits, all 1. -/
def text31 : State := { State.reset with tAct := true, tLen := 31, tVal := 0x7FFFFFFF }

/-- A text is open with 32 digits, all 1. -/
def text32 : State := { State.reset with tAct := true, tLen := 32, tVal := 0xFFFFFFFF }

/-- A text is open in which a bad character arrived. -/
def textBad : State := { State.reset with tAct := true, tBad := true }

/-- A text is open in which a 33rd digit arrived. -/
def textOver : State := { text32 with tOver := true }

/-- A text that is both malformed and too long (V-T8). -/
def textOverBad : State := { textOver with tBad := true }

/-- DESC_MAX = 1, the table full, and the text 1 open (V-X9). -/
def fullText : State := { fullTable with tAct := true, tLen := 1, tVal := 1 }

/-- The state after V-D4, a DPUSH of width 33. -/
def faulted : State := { State.reset with fault := true, faultCode := 0x20, lastErr := 0x20 }

/-- A buffer of four units, 80 at unit 3 (V-B2). -/
def buffer4 : State := { State.reset with buf := [(3, 0x80)], bLen := 4 }

/-- A session over the one unit 80 (V-U3). -/
def session80 (answers : List ClsAnswer) : State :=
  { State.reset with uBuf := [(0, 0x80)], uLen := 1, uState := .scanning, cls := ⟨answers, [], none⟩ }

/-- That session after a UNEXT that read one bit and waits for the answer to it. -/
def waiting (answers : List ClsAnswer) : State :=
  { session80 answers with uCurOff := 1, patLen := 1, patVal := 1, cls := ⟨answers, [⟨1, 1⟩], some ⟨1, 1⟩⟩ }

/-- A session whose bits are all read. -/
def sessionEnd : State := { session80 [] with uCurUnit := 1 }

/-! ## One step, against 95_test_vectors.md -/

theorem test_nop : answerTo State.reset 0x0000000000000000 = some 0x0000000000000000 := by decide -- V-C1
theorem test_nop_faulted : answerTo faulted 0x0000000000000000 = some 0x3F20000000000000 := by decide -- V-X1
theorem test_clr_faulted : answerTo faulted 0x0100000000000000 = some 0x3F20000000000000 := by decide -- V-X2
theorem test_clr_closes_text : (after (exec .clr text31)).map (fun t => (t.tAct, t.tLen, t.lastErr))
    = some (false, 0, 0) := by decide -- V-C4
theorem test_rdreg_status : answerTo textBad 0x0200000000000000 = some 6 := by decide -- V-T13
theorem test_rdreg_reserved : answerTo State.reset 0x0214000000000000 = some 0x1000000000000000 := by decide -- 2.1
theorem test_rdreg_faultcode_faulted : answerTo faulted 0x0202000000000000 = some 0x20 := by decide -- V-X4
theorem test_dpush_appends : (after (exec (.dpush 3 0xFF) State.reset)).map (fun t => (t.desc, t.dCount))
    = some ([(0, ⟨3, 0xFF⟩)], 1) := by decide -- V-D3
theorem test_dpush_33 : answerTo State.reset 0x1021000000000001 = some 0x2020000000000021 := by decide -- V-D4
theorem test_dpush_full : answerTo fullTable 0x1001000000000000 = some 0x1200000000000001 := by decide -- V-D6
theorem test_tbegin_discards : (after (exec .tbegin textOver)).map (fun t => (t.tAct, t.tLen, t.tVal, t.tOver))
    = some (true, 0, 0, false) := by decide -- V-T12, R132
theorem test_tchar_shifts_in : (after (exec (.tchar 0x31) { State.reset with tAct := true, tLen := 2, tVal := 2 })).map
    (fun t => (t.tLen, t.tVal)) = some (3, 5) := by decide -- R133 (1): "101" gives 5
theorem test_tchar_no_text : answerTo State.reset 0x1278000000000000 = some 0x1400000000000000 := by decide -- 2.1
theorem test_tend_32_digits : (after (exec .tend text32)).map (fun t => (t.desc, t.tAct))
    = some ([(0, ⟨32, 0xFFFFFFFF⟩)], false) := by decide -- V-T5
theorem test_tend_over : answerTo textOver 0x1300000000000000 = some 0x2020000000000021 := by decide -- V-T6
theorem test_tend_full_closes : (after (exec .tend fullText)).map
    (fun t => (t.host.output, t.tAct)) = some ([0x1200000000000001], false) := by decide -- V-X9
theorem test_drd : answerTo tableP1 0x1400000200000000 = some 0x000A0000000003FF := by decide -- V-D8
theorem test_drd_empty : answerTo State.reset 0x1400000000000000 = some 0x1300000000000000 := by decide -- V-D7
theorem test_pack_p1 : (after (exec .pack tableP1)).map (fun t => (t.buf, t.bLen, t.pBits, t.pCurUnit, t.pCurOff))
    = some ([(0, 0xA1), (1, 0x1F), (2, 0xFB), (3, 0x80)], 4, 25, 3, 1) := by decide -- V-P1
theorem test_pack_p3 : (after (exec .pack { State.reset with desc := [(0, ⟨1, 1⟩), (1, ⟨32, 0xFFFFFFFF⟩)], dCount := 2 })).map
    (fun t => (t.buf, t.bLen)) = some ([(0, 0xFF), (1, 0xFF), (2, 0xFF), (3, 0xFF), (4, 0x80)], 5) := by decide -- V-P3
theorem test_bufrd : answerTo buffer4 0x3000000300000000 = some 0x80 := by decide -- V-B2
theorem test_bufrd_range : answerTo buffer4 0x3000000400000000 = some 0x1300000000000004 := by decide -- V-B4
theorem test_bufwr_assigns : (after (exec (.bufwr 3 0x12) buffer4)).map (fun t => t.buf) = some [(3, 0x12)] := by decide -- V-B9
theorem test_bufwr_range : answerTo State.reset 0x3100000000000012 = some 0x1300000000000000 := by decide -- V-B5
theorem test_setlen_64 : (after (exec (.setlen 64) buffer4)).map (fun t => (t.buf, t.bLen)) = some ([], 64) := by decide -- V-B6
theorem test_setlen_65 : answerTo State.reset 0x3200004100000000 = some 0x1300000000000041 := by decide -- V-B7
theorem test_uopen : answerTo buffer4 0x4000000000000000 = some 0x0000000000000004 := by decide -- P3
theorem test_uopen_snapshot : (after (exec .uopen buffer4)).map (fun t => (t.uBuf, t.uLen, t.statusWord))
    = some ([(3, 0x80)], 4, 0x10) := by decide -- V-U15
theorem test_unext_match : (after (exec .unext (session80 [⟨true, 7⟩]))).map (fun t => (t.host.output, t.cls.queries))
    = some ([0x0000000000000007], [⟨1, 1⟩]) := by decide -- V-U3
theorem test_unext_end : (after (exec .unext { session80 (List.replicate 7 ⟨false, 0⟩) with uCurOff := 1 })).map
    (fun t => (t.host.output, t.uDiscard, t.cls.queries.length, t.uCurUnit)) = some ([0x0100000000000000], 7, 7, 1) := by
  decide -- V-U3
theorem test_unext_waits : after (exec .unext (session80 [])) = some (waiting []) := by decide -- R305
theorem test_illegal_beats_width : answerTo State.reset 0x1021000100000000 = some 0x1000000000000000 := by decide -- 2.1
theorem test_faulted_beats_illegal : answerTo faulted 0xFF00000000000000 = some 0x3F20000000000000 := by decide -- V-X3
theorem test_rst_clears_fault : after (step { faulted with host := ⟨[.reset], []⟩ }) = some State.reset := by decide -- V-X7
theorem test_reset_unext_ends : answerTo State.reset 0x4100000000000000 = some 0x0100000000000000 := by decide -- V-U11

/-! ## Witnesses: states and operands that meet the hypotheses of each statement

`Obligations.<Name>` has the witnesses `witness_<name>…`, one for each clause, at a boundary value where there is a
range. A hypothesis `step s = .next t` or `exec i s = .next t` is met by the state `t` that `after` shows. -/

/-- The reset state with the host's events `es` to come. -/
def presenting (es : List HostEvent) : State := { State.reset with host := ⟨es, []⟩ }

/-- The faulted state with the host's events `es` to come. -/
def faultedPresenting (es : List HostEvent) : State := { faulted with host := ⟨es, []⟩ }

/-- The waiting state with the host's events `es` to come. -/
def waitingPresenting (answers : List ClsAnswer) (es : List HostEvent) : State :=
  { waiting answers with host := ⟨es, []⟩ }

/-- An outcome is a next state. -/
def isNext (o : Host.Outcome State Fault Refusal) : Bool := (after o).isSome

theorem isNext_iff (o : Host.Outcome State Fault Refusal) : isNext o = true ↔ ∃ t, o = .next t := by
  cases o <;> simp [isNext, after]

/-! ### Encoding and the step -/

theorem witness_encodeDecodeRoundTrip : decode 0x10FF0000FFFFFFFF = .ok (.dpush 255 0xFFFFFFFF) := by decide

theorem witness_decodeMatchesOpcodeTable_row : ∃ row ∈ opcodeTable, (0x31000000000000FF : CmdWord) &&& row.mask = row.pattern := by
  decide

theorem witness_decodeMatchesOpcodeTable_illegal :
    State.reset.fault = false ∧ ∀ row ∈ opcodeTable, (0x3100000000000100 : CmdWord) &&& row.mask ≠ row.pattern := by
  decide

theorem witness_performRule_refused :
    faulted.fault = true ∧ ∀ r, decode 0x0214000000000000 = .ok (.rdreg r) → 0x13 < r.toNat := by
  refine ⟨by decide, fun r h => ?_⟩
  have h' : decode 0x0214000000000000 = .ok (.rdreg 0x14) := by decide
  rw [h'] at h
  injection h with h
  injection h with h
  subst h
  decide

theorem witness_performRule_illegal :
    State.reset.fault = false ∧ decode 0x0300000000000000 = .error .undefinedOpcode := by
  decide

theorem witness_performRule_performed :
    faulted.fault = true ∧ decode 0x0213000000000000 = .ok (.rdreg 0x13) ∧ ¬ 0x13 < (0x13 : BitVec 8).toNat := by
  decide

theorem witness_stepRunsDecodedCommand :
    (presenting [.command 0x1003000000000005, .reset]).cls.pending = none
    ∧ (presenting [.command 0x1003000000000005, .reset]).host.input = .command 0x1003000000000005 :: [.reset]
    ∧ decode 0x1003000000000005 = .ok (.dpush 3 5) := by
  decide

theorem witness_idleStepChangesNothing : buffer4.cls.pending = none ∧ buffer4.host.input = [] := by decide

theorem witness_idleStepChangesNothing_reset :
    (waitingPresenting [⟨true, 7⟩] [.reset, .command 0]).host.input = .reset :: [.command 0]
    ∧ isNext (step (waitingPresenting [⟨true, 7⟩] [.reset, .command 0])) = true := by
  decide

theorem witness_resetInputRestoresResetState :
    (waitingPresenting [] [.reset, .command 0]).host.input = .reset :: [.command 0]
    ∧ (waitingPresenting [] [.reset, .command 0]).cls.pending ≠ none ∧ decode 0 = .ok .nop := by
  decide

theorem witness_resetValues_clr : tableP1.Inv ∧ tableP1.fault = false := by decide

/-! ### Errors, faults and responses -/

theorem witness_faultedRefusesAllButRdreg_rdreg :
    faulted.fault = true ∧ decode 0x0213000000000000 = .ok (.rdreg 0x13) ∧ regOfNumber 0x13 = some .cfgTW := by
  decide

theorem witness_faultedRefusesAllButRdreg_refused :
    faulted.fault = true ∧ ∀ r, decode 0x0100000000000000 = .ok (.rdreg r) → 0x13 < r.toNat := by
  refine ⟨by decide, fun r h => ?_⟩
  have h' : decode 0x0100000000000000 = .ok .clr := by decide
  rw [h'] at h
  injection h with h
  cases h

theorem witness_faultedRefusesAllButRdreg_stays :
    (faultedPresenting [.command 0xFF00000000000000]).fault = true
    ∧ (∀ rest, (faultedPresenting [.command 0xFF00000000000000]).host.input ≠ .reset :: rest)
    ∧ isNext (step (faultedPresenting [.command 0xFF00000000000000])) = true := by
  refine ⟨by decide, fun rest h => ?_, by decide⟩
  cases h

theorem witness_faultLastsUntilReset :
    (faultedPresenting [.command 0x0100000000000000]).fault = true
    ∧ (∀ rest, (faultedPresenting [.command 0x0100000000000000]).host.input ≠ .reset :: rest)
    ∧ isNext (step (faultedPresenting [.command 0x0100000000000000])) = true := by
  refine ⟨by decide, fun rest h => ?_, by decide⟩
  cases h

theorem witness_faultLastsUntilReset_reset :
    (faultedPresenting [.reset]).fault = true ∧ (faultedPresenting [.reset]).host.input = .reset :: [] := by
  decide

theorem witness_onlyWidthViolationsFault_dpush :
    (presenting [.command 0x1021000000000001]).Inv ∧ (presenting [.command 0x1021000000000001]).fault = false
    ∧ (after (step (presenting [.command 0x1021000000000001]))).map (fun t => t.fault) = some true := by
  decide

theorem witness_onlyWidthViolationsFault_tend :
    (textOver.present 0x1300000000000000).Inv ∧ (textOver.present 0x1300000000000000).fault = false
    ∧ (after (step (textOver.present 0x1300000000000000))).map (fun t => t.fault) = some true := by
  decide

theorem witness_lastErrRecordsErrors_error :
    (buffer4.present 0x3000000400000000).cls.pending = none
    ∧ (after (step (buffer4.present 0x3000000400000000))).map (fun t => (t.host.output, t.lastErr))
      = some ([0x1300000000000004], 0x13) := by
  decide

theorem witness_lastErrRecordsErrors_clr :
    ({ buffer4 with lastErr := 0x13 }.present 0x0100000000000000).cls.pending = none
    ∧ (after (step ({ buffer4 with lastErr := 0x13 }.present 0x0100000000000000))).map
      (fun t => (t.host.output, t.lastErr)) = some ([0], 0) := by
  decide

theorem witness_lastErrRecordsErrors_ok :
    ({ buffer4 with lastErr := 0x13 }.present 0x3000000300000000).cls.pending = none
    ∧ (after (step ({ buffer4 with lastErr := 0x13 }.present 0x3000000300000000))).map
      (fun t => (t.host.output, t.lastErr)) = some ([0x80], 0x13) := by
  decide

theorem witness_lastErrRecordsErrors_faulted :
    (faulted.present 0).cls.pending = none
    ∧ (after (step (faulted.present 0))).map (fun t => (t.host.output, t.lastErr))
      = some ([0x3F20000000000000], 0x20) := by
  decide

theorem witness_lastErrRecordsErrors_no_response :
    ((session80 []).present 0x4100000000000000).cls.pending = none
    ∧ (after (step ((session80 []).present 0x4100000000000000))).map (fun t => t.host.output) = some [] := by
  decide

theorem witness_lastErrRecordsErrors_waiting :
    (waiting [⟨true, 7⟩]).cls.pending ≠ none ∧ (∀ rest, (waiting [⟨true, 7⟩]).host.input ≠ .reset :: rest)
    ∧ isNext (step (waiting [⟨true, 7⟩])) = true := by
  refine ⟨by decide, fun rest h => ?_, by decide⟩
  cases h

theorem witness_lastErrRecordsErrors_reset :
    ({ faultedPresenting [.reset] with lastErr := 0x20 }).host.input = .reset :: []
    ∧ isNext (step (faultedPresenting [.reset])) = true := by
  decide

theorem witness_oneResponsePerCommand_command :
    (presenting [.command 0x0000000000000000]).cls.pending = none
    ∧ (presenting [.command 0x0000000000000000]).host.input = .command 0x0000000000000000 :: []
    ∧ isNext (step (presenting [.command 0x0000000000000000])) = true := by
  decide

theorem witness_oneResponsePerCommand_waiting :
    (waitingPresenting [⟨true, 7⟩] [.command 0]).cls.pending ≠ none
    ∧ (∀ rest, (waitingPresenting [⟨true, 7⟩] [.command 0]).host.input ≠ .reset :: rest)
    ∧ isNext (step (waitingPresenting [⟨true, 7⟩] [.command 0])) = true := by
  refine ⟨by decide, fun rest h => ?_, by decide⟩
  cases h

theorem witness_responsesHaveListedStatus : isNext (step (faulted.present 0)) = true := by decide

/-! ### Invariants -/

theorem witness_stepKeepsInvariant :
    (tableP1.present 0x2000000000000000).Inv ∧ isNext (step (tableP1.present 0x2000000000000000)) = true := by
  decide

theorem witness_stepKeepsInvariant_waiting :
    (waiting [⟨false, 0⟩]).Inv ∧ isNext (step (waiting [⟨false, 0⟩])) = true := by
  decide

theorem witness_stepKeepsMemoriesCanonical :
    (tableP1.present 0x2000000000000000).buf.wf = true ∧ (tableP1.present 0x2000000000000000).uBuf.wf = true
    ∧ (tableP1.present 0x2000000000000000).desc.wf = true
    ∧ isNext (step (tableP1.present 0x2000000000000000)) = true := by
  decide

theorem witness_parametersAreConstant : isNext (step (presenting [.reset])) = true := by decide

theorem witness_unitsBeyondLengthAreZero :
    (buffer4.present 0x3200000200000000).Inv
    ∧ (after (step (buffer4.present 0x3200000200000000))).map (fun t => t.bLen.toNat) = some 2 := by
  decide

theorem witness_readsHaveNoSideEffect_read :
    isNext (exec (.bufrd 4) buffer4) = true ∧ isNext (exec (.drd 0) tableP1) = true
    ∧ isNext (exec (.rdreg 0x13) faulted) = true := by
  decide

/-- The three kinds of response: OK, an error, FAULTED. -/
theorem witness_readsHaveNoSideEffect_responses :
    (after (exec (.bufrd 3) buffer4)).map (fun t => t.host.output) = some [0x0000000000000080]
    ∧ (after (exec (.bufrd 4) buffer4)).map (fun t => t.host.output) = some [0x1300000000000004]
    ∧ (after (exec (.bufrd 3) faulted)).map (fun t => t.host.output) = some [0x3F20000000000000] := by
  decide

theorem witness_readsHaveNoSideEffect_bufwr :
    buffer4.buf.wf = true
    ∧ ((after (exec (.bufwr 3 0x12) buffer4)).bind (fun t => after (exec (.bufwr 3 0x12) t))).isSome = true := by
  decide

theorem witness_tableEntriesAreImmutable_append :
    (tableP1.present 0x1001000000000001).Inv
    ∧ (after (step (tableP1.present 0x1001000000000001))).map (fun t => t.dCount.toNat) = some 6 := by
  decide

theorem witness_tableEntriesAreImmutable_pack :
    (tableP1.present 0x2000000000000000).Inv
    ∧ (after (step (tableP1.present 0x2000000000000000))).map (fun t => t.dCount.toNat) = some 0 := by
  decide

/-! ### Control commands -/

theorem witness_nopRule : decode 0 = .ok .nop ∧ State.reset.fault = false ∧ faulted.fault = true := by decide

theorem witness_clrRule : tableP1.fault = false ∧ faulted.fault = true := by decide

theorem witness_rdregRule_defined : (0x13 : BitVec 8).toNat ≤ 0x13 ∧ regOfNumber 0x13 = some .cfgTW := by decide

theorem witness_rdregRule_reserved :
    0x13 < (0x14 : BitVec 8).toNat ∧ State.reset.fault = false ∧ faulted.fault = true := by
  decide

/-! ### Descriptor input -/

theorem witness_dpushRule_width :
    State.reset.fault = false ∧ State.reset.desc.wf = true ∧ 32 < (33 : BitVec 8).toNat := by decide

theorem witness_dpushRule_full :
    fullTable.fault = false ∧ fullTable.desc.wf = true ∧ (32 : BitVec 8).toNat ≤ 32 ∧ fullTable.dCount.toNat = fullTable.cfg.descMax := by
  decide

theorem witness_dpushRule_append :
    tableP1.fault = false ∧ tableP1.desc.wf = true ∧ (32 : BitVec 8).toNat ≤ 32 ∧ tableP1.dCount.toNat ≠ tableP1.cfg.descMax := by
  decide

theorem witness_tbeginRule : textOver.fault = false := by decide

theorem witness_tcharRule_no_text : State.reset.fault = false ∧ State.reset.tAct = false := by decide

theorem witness_tcharRule_over :
    text32.fault = false ∧ text32.tAct = true ∧ ((0x31 : BitVec 8) = 0x30 ∨ (0x31 : BitVec 8) = 0x31)
    ∧ text32.tLen.toNat = 32 := by
  decide

theorem witness_tcharRule_digit :
    text31.fault = false ∧ text31.tAct = true ∧ ((0x30 : BitVec 8) = 0x30 ∨ (0x30 : BitVec 8) = 0x31)
    ∧ text31.tLen.toNat ≠ 32 := by
  decide

theorem witness_tcharRule_bad :
    text32.fault = false ∧ text32.tAct = true ∧ (0x32 : BitVec 8) ≠ 0x30 ∧ (0x32 : BitVec 8) ≠ 0x31 := by
  decide

theorem witness_tendRule_no_text :
    State.reset.fault = false ∧ State.reset.desc.wf = true ∧ State.reset.tAct = false := by decide

theorem witness_tendRule_malformed :
    textOverBad.fault = false ∧ textOverBad.desc.wf = true ∧ textOverBad.tAct = true ∧ textOverBad.tBad = true := by
  decide

theorem witness_tendRule_over :
    textOver.fault = false ∧ textOver.desc.wf = true ∧ textOver.tAct = true ∧ textOver.tBad = false
    ∧ textOver.tOver = true := by
  decide

theorem witness_tendRule_full :
    fullText.fault = false ∧ fullText.desc.wf = true ∧ fullText.tAct = true ∧ fullText.tBad = false
    ∧ fullText.tOver = false ∧ fullText.dCount.toNat = fullText.cfg.descMax := by
  decide

theorem witness_tendRule_append :
    text32.fault = false ∧ text32.desc.wf = true ∧ text32.tAct = true ∧ text32.tBad = false ∧ text32.tOver = false
    ∧ text32.dCount.toNat ≠ text32.cfg.descMax := by
  decide

theorem witness_drdRule_range : tableP1.fault = false ∧ tableP1.dCount.toNat ≤ (5 : BitVec 16).toNat := by decide

theorem witness_drdRule_entry : tableP1.fault = false ∧ (4 : BitVec 16).toNat < tableP1.dCount.toNat := by decide

theorem witness_bitSequencePushesItsDescriptor_fits :
    tableP1.fault = false ∧ (List.replicate 32 true).length ≤ 32 ∧ tableP1.dCount.toNat ≠ tableP1.cfg.descMax := by
  decide

theorem witness_bitSequencePushesItsDescriptor_wide :
    tableP1.fault = false ∧ 32 < (List.replicate 33 true).length ∧ (List.replicate 33 true).length ≤ 255 := by
  decide

theorem witness_textPathEqualsFromText_digits :
    (presenting (commandsOf (dtextCodes [0x31, 0x30]) ++ [.reset])).fault = false
    ∧ (presenting (commandsOf (dtextCodes [0x31, 0x30]) ++ [.reset])).cls.pending = none
    ∧ ([0x31, 0x30] : List (BitVec 8)) = [true, false].map (fun b => if b then 0x31 else 0x30)
    ∧ [true, false].length ≤ 32
    ∧ (presenting (commandsOf (dtextCodes [0x31, 0x30]) ++ [.reset])).dCount.toNat ≠ State.reset.cfg.descMax := by
  decide

theorem witness_textPathEqualsFromText_malformed :
    (presenting (commandsOf (dtextCodes [0x78]))).fault = false
    ∧ (presenting (commandsOf (dtextCodes [0x78]))).cls.pending = none
    ∧ ∃ c ∈ ([0x78] : List (BitVec 8)), c ≠ 0x30 ∧ c ≠ 0x31 := by
  decide

theorem witness_textPathEqualsFromText_wide :
    (presenting (commandsOf (dtextCodes (List.replicate 33 0x31)))).fault = false
    ∧ (presenting (commandsOf (dtextCodes (List.replicate 33 0x31)))).cls.pending = none
    ∧ List.replicate 33 (0x31 : BitVec 8) = (List.replicate 33 true).map (fun b => if b then 0x31 else 0x30)
    ∧ 32 < (List.replicate 33 true).length := by
  decide

/-! ### The packer -/

theorem witness_packSizesAndCompletes : tableP1.Inv ∧ tableP1.fault = false ∧ totalWidth tableP1.descriptors = 25 := by
  decide

theorem witness_packSizesAndCompletes_full_table :
    (oneDesc ⟨32, 0xFF⟩).Inv
    ∧ (oneDesc ⟨32, 0xFF⟩).fault = false
    ∧ totalWidth (oneDesc ⟨32, 0xFF⟩).descriptors = 32 * oneEntry.descMax := by
  decide

theorem witness_packRoundTripIdentity : tableP1.Inv ∧ tableP1.fault = false ∧ tableP1.tableBits.length = 25 := by decide

/-- (3, 7) and (3, 0xFF): the values differ and agree modulo `2^3`. -/
theorem witness_packUsesLowBitsOnly :
    (oneDesc ⟨3, 7⟩).Inv ∧ (oneDesc ⟨3, 0xFF⟩).Inv
    ∧ (oneDesc ⟨3, 0xFF⟩).descriptors.map (fun d => (d.w, d.v.toNat % 2 ^ d.w.toNat))
      = (oneDesc ⟨3, 7⟩).descriptors.map (fun d => (d.w, d.v.toNat % 2 ^ d.w.toNat))
    ∧ isNext (exec .pack (oneDesc ⟨3, 7⟩)) = true
    ∧ isNext (exec .pack (oneDesc ⟨3, 0xFF⟩)) = true := by
  exact ⟨by decide, by decide, by decide, by decide, by decide⟩

theorem witness_writeLoopStepBound : (⟨4, 7⟩ : Cursor).off < 8 := by decide

/-! ### Buffer access -/

theorem witness_bufrdRule_range : buffer4.fault = false ∧ buffer4.bLen.toNat ≤ (4 : BitVec 16).toNat := by decide

theorem witness_bufrdRule_unit : buffer4.fault = false ∧ (3 : BitVec 16).toNat < buffer4.bLen.toNat := by decide

theorem witness_bufwrRule_range :
    buffer4.fault = false ∧ buffer4.buf.wf = true ∧ buffer4.bLen.toNat ≤ (4 : BitVec 16).toNat := by
  decide

theorem witness_bufwrRule_unit :
    buffer4.fault = false ∧ buffer4.buf.wf = true ∧ (3 : BitVec 16).toNat < buffer4.bLen.toNat := by
  decide

theorem witness_setlenRule_range : buffer4.fault = false ∧ buffer4.cfg.bufUnits < (65 : BitVec 16).toNat := by decide

theorem witness_setlenRule_length : buffer4.fault = false ∧ (64 : BitVec 16).toNat ≤ buffer4.cfg.bufUnits := by decide

theorem witness_bufloadLoadsTheBuffer :
    ({ buffer4 with host := ⟨commandsOf (bufload (List.replicate 64 0xA1)) ++ [.reset], []⟩ } : State).Inv
    ∧ (List.replicate 64 (0xA1 : Byte)).length ≤ buffer4.cfg.bufUnits ∧ buffer4.fault = false
    ∧ buffer4.cls.pending = none := by
  decide

/-! ### The unpacker -/

theorem witness_uopenRule : buffer4.fault = false ∧ buffer4.uBuf.wf = true := by decide

theorem witness_exhaustedStaysExhausted_unext : State.reset.fault = false ∧ State.reset.uState = .exhausted := by decide

theorem witness_exhaustedStaysExhausted_uopen :
    (buffer4.present 0x4000000000000000).Inv ∧ (buffer4.present 0x4000000000000000).uState = .exhausted
    ∧ (after (step (buffer4.present 0x4000000000000000))).map (fun t => t.uState) = some .scanning := by
  decide

theorem witness_exhaustedStaysExhausted_clr :
    (session80 []).fault = false ∧ isNext (exec .clr (session80 [])) = true := by
  decide

theorem witness_exhaustedStaysExhausted_reset :
    (waitingPresenting [] [.reset]).host.input = .reset :: []
    ∧ isNext (step (waitingPresenting [] [.reset])) = true := by
  decide

theorem witness_unextEndsWithNoBitLeft :
    sessionEnd.Inv ∧ sessionEnd.fault = false ∧ sessionEnd.cls.pending = none ∧ sessionEnd.uState = .scanning
    ∧ sessionEnd.uCurUnit = sessionEnd.uLen := by
  decide

/-- The last bit of the stream is the one that matches. -/
theorem witness_unextEmitsTheMatch :
    (session80 (List.replicate 7 ⟨false, 0⟩ ++ ⟨true, 9⟩ :: [])).Inv
    ∧ (session80 (List.replicate 7 ⟨false, 0⟩ ++ ⟨true, 9⟩ :: [])).fault = false
    ∧ (session80 (List.replicate 7 ⟨false, 0⟩ ++ ⟨true, 9⟩ :: [])).cls.pending = none
    ∧ (session80 (List.replicate 7 ⟨false, 0⟩ ++ ⟨true, 9⟩ :: [])).uState = .scanning
    ∧ (∀ x ∈ List.replicate 7 (⟨false, 0⟩ : ClsAnswer), x.isMatch = false)
    ∧ (List.replicate 7 (⟨false, 0⟩ : ClsAnswer)).length
      < (session80 (List.replicate 7 ⟨false, 0⟩ ++ ⟨true, 9⟩ :: [])).restOfStream.length := by
  decide

theorem witness_unextExhaustsTheStream :
    (session80 (List.replicate 8 ⟨false, 0⟩ ++ [])).Inv ∧ (session80 (List.replicate 8 ⟨false, 0⟩ ++ [])).fault = false
    ∧ (session80 (List.replicate 8 ⟨false, 0⟩ ++ [])).cls.pending = none
    ∧ (session80 (List.replicate 8 ⟨false, 0⟩ ++ [])).uState = .scanning
    ∧ (∀ x ∈ List.replicate 8 (⟨false, 0⟩ : ClsAnswer), x.isMatch = false)
    ∧ (List.replicate 8 (⟨false, 0⟩ : ClsAnswer)).length
      = (session80 (List.replicate 8 ⟨false, 0⟩ ++ [])).restOfStream.length := by
  decide

theorem witness_unextWaitsForTheClassifier :
    (session80 (List.replicate 7 ⟨false, 0⟩)).Inv ∧ (session80 (List.replicate 7 ⟨false, 0⟩)).fault = false
    ∧ (session80 (List.replicate 7 ⟨false, 0⟩)).cls.pending = none
    ∧ (session80 (List.replicate 7 ⟨false, 0⟩)).uState = .scanning
    ∧ (∀ x ∈ (session80 (List.replicate 7 ⟨false, 0⟩)).cls.answers, x.isMatch = false)
    ∧ (session80 (List.replicate 7 ⟨false, 0⟩)).cls.answers.length
      < (session80 (List.replicate 7 ⟨false, 0⟩)).restOfStream.length := by
  decide

theorem witness_silentClassifierHangsUntilReset_hangs :
    (waitingPresenting [] [.command 0]).cls.pending ≠ none ∧ (waitingPresenting [] [.command 0]).cls.answers = []
    ∧ ∀ rest, (waitingPresenting [] [.command 0]).host.input ≠ .reset :: rest := by
  refine ⟨by decide, by decide, fun rest h => ?_⟩
  cases h

theorem witness_silentClassifierHangsUntilReset_reset :
    (waitingPresenting [] [.reset]).cls.pending ≠ none ∧ (waitingPresenting [] [.reset]).host.input = .reset :: [] := by
  decide

theorem witness_lateAnswersChangeNothing :
    (session80 []).fault = false ∧ (session80 []).cls.pending = none ∧ (session80 []).uState = .scanning
    ∧ (∀ rest, (session80 []).host.input ≠ .reset :: rest)
    ∧ (after (exec .unext { session80 [] with cls := { (session80 []).cls with answers := [⟨false, 0⟩] } })).map
        (fun t => decide (t.cls.pending ≠ none)) = some true
    ∧ [(⟨true, 3⟩ : ClsAnswer)] ≠ [] := by
  refine ⟨by decide, by decide, by decide, fun rest h => ?_, by decide, by decide⟩
  cases h

theorem witness_oneQueryPerBit :
    (session80 [⟨false, 0⟩, ⟨true, 1⟩]).Inv ∧ (session80 [⟨false, 0⟩, ⟨true, 1⟩]).fault = false
    ∧ (session80 [⟨false, 0⟩, ⟨true, 1⟩]).cls.pending = none
    ∧ isNext (exec .unext (session80 [⟨false, 0⟩, ⟨true, 1⟩])) = true := by
  decide

/-- V-U3's classifier: the pattern 1 is 7, no other pattern matches. -/
def clsOne : Classifier := fun len val => if len = 1 ∧ val = 1 then some 7 else none

/-- V-U3: over the unit 80 the segmentation yields 7 and discards 7 bits. -/
theorem witness_segmentation_u3 : Segmentation clsOne (session80 []).restOfStream 0 [7] 7 := by
  have hs : (session80 []).restOfStream = true :: List.replicate 7 false := by decide
  rw [hs]
  refine .value 0 0 7 [] 7 (Nat.le_refl 0) (by decide) (by decide) (fun k' _ h => absurd h (Nat.not_lt_zero k')) ?_
  exact .stop 1 (by decide) (by decide)

theorem witness_decodedSequenceIsGreedySegmentation :
    ({ session80 (clsOne.answersOn 0 0 (session80 []).restOfStream ++ []) with
        host := ⟨commandsOf (drain 2) ++ [.reset], []⟩ } : State).Inv
    ∧ (session80 (clsOne.answersOn 0 0 (session80 []).restOfStream ++ [])).fault = false
    ∧ (session80 (clsOne.answersOn 0 0 (session80 []).restOfStream ++ [])).cls.pending = none
    ∧ (session80 (clsOne.answersOn 0 0 (session80 []).restOfStream ++ [])).uState = .scanning
    ∧ (session80 (clsOne.answersOn 0 0 (session80 []).restOfStream ++ [])).restOfStream
      = (session80 []).restOfStream := by
  decide

theorem witness_sessionReadsOnlyItsSnapshot_bufwr :
    isNext (exec (.bufwr 0 0) { session80 [] with buf := [(0, 0xA1)], bLen := 1 }) = true := by
  decide

/-- Two states that differ in BUF only. -/
theorem witness_sessionReadsOnlyItsSnapshot_unext :
    (session80 [⟨true, 7⟩]).SameSnapshot { session80 [⟨true, 7⟩] with buf := [(0, 0xA1)], bLen := 1 }
    ∧ (session80 [⟨true, 7⟩]).SameSession { session80 [⟨true, 7⟩] with buf := [(0, 0xA1)], bLen := 1 }
    ∧ (session80 [⟨true, 7⟩]).fault = false
    ∧ isNext (exec .unext (session80 [⟨true, 7⟩])) = true := by
  exact ⟨⟨rfl, fun _ => rfl⟩, by decide, by decide, by decide⟩

/-! ### Frames -/

theorem witness_frameDescriptorCommands :
    tableP1.desc.wf = true ∧ isNext (exec (.dpush 32 1) tableP1) = true ∧ isNext (exec .tbegin tableP1) = true
    ∧ isNext (exec (.tchar 0x30) tableP1) = true ∧ isNext (exec .tend tableP1) = true
    ∧ isNext (exec (.drd 4) tableP1) = true ∧ tableP1.tAct = false := by
  decide

theorem witness_frameBufferCommands :
    buffer4.buf.wf = true ∧ isNext (exec (.bufrd 3) buffer4) = true ∧ isNext (exec (.bufwr 3 1) buffer4) = true
    ∧ isNext (exec (.bufwr 4 1) buffer4) = true ∧ buffer4.bLen.toNat ≤ indexOf 4
    ∧ isNext (exec (.setlen 65) buffer4) = true ∧ buffer4.cfg.bufUnits < indexOf 65 := by
  decide

theorem witness_framePack : tableP1.Inv ∧ isNext (exec .pack tableP1) = true := by decide

theorem witness_frameUnpackerCommands :
    buffer4.uBuf.wf = true ∧ isNext (exec .uopen buffer4) = true ∧ isNext (exec .unext buffer4) = true := by
  decide

theorem witness_frameControlCommands :
    isNext (exec .nop tableP1) = true ∧ isNext (exec (.rdreg 0x13) tableP1) = true
    ∧ isNext (exec .clr tableP1) = true := by
  decide

end Sys2Proof.Tests
end

section
/-! Proofs about the block's state (10_state.md): how a command ends, as its response, LASTERR and the parameters show
it; the reset values; the three statements of this family. -/

namespace Sys2Proof.Machine

/-! ## One step, by what is presented -/

/-- RST is taken whether or not a UNEXT waits (70_reset_and_hazards.md R300). -/
theorem step_of_reset {s : State} {rest : List HostEvent} (hi : s.host.input = .reset :: rest) :
    step s = .next (s.withInput rest).afterReset := by
  unfold step advance
  cases hp : s.cls.pending with
  | none => simp only [takeEvent, hi]
  | some q => simp only [waitOrReset, hi]

/-- An idle block takes the host's word and performs it (30_encoding.md R97). -/
theorem step_of_command {s : State} {w : CmdWord} {rest : List HostEvent} (hp : s.cls.pending = none)
    (hi : s.host.input = .command w :: rest) : step s = performWord w (s.withInput rest) := by
  simp only [step, advance, hp, takeEvent, hi]

/-- A UNEXT in progress goes on (R305), whatever command the host presents meanwhile (R303). -/
theorem step_of_waiting {s : State} (hp : s.cls.pending ≠ none) (hi : ∀ rest, s.host.input ≠ .reset :: rest) :
    step s = .next (resumeUnext s) := by
  obtain ⟨q, hq⟩ := Option.ne_none_iff_exists'.mp hp
  simp only [step, advance, hq, waitOrReset]
  split
  case h_1 rest h => exact absurd h (hi rest)
  case h_2 => rfl
  case h_3 => rfl

theorem performWord_of_ok {w : CmdWord} {i : Instr} (hd : decode w = .ok i) (s : State) :
    performWord w s = exec i s := by
  simp only [performWord, hd]

theorem performWord_of_error {w : CmdWord} {e : DecodeError} (hd : decode w = .error e) (s : State) :
    performWord w s = performIllegal s := by
  simp only [performWord, hd]

/-! ## How a command ends -/

/-- LASTERR after a response of status `st`, where OK and END leave `quiet` and the refusal leaves `old`
(10_state.md R23, 60_exceptions.md R272-R274). -/
def Status.lastErrAfter (quiet old : BitVec 8) : Status → BitVec 8
  | .ok => quiet
  | .endOfSeq => quiet
  | .errIllegal => Status.errIllegal.code
  | .errMalformed => Status.errMalformed.code
  | .errCapacity => Status.errCapacity.code
  | .errRange => Status.errRange.code
  | .errSeq => Status.errSeq.code
  | .faultWidth => Status.faultWidth.code
  | .faultBounds => Status.faultBounds.code
  | .faulted => old

theorem Status.lastErrAfter_of_raised {st : Status} (h : 0x10 ≤ st.code.toNat ∧ st.code.toNat ≤ 0x21)
    (quiet old : BitVec 8) : st.lastErrAfter quiet old = st.code := by
  cases st with
  | ok => exact absurd h (by decide)
  | endOfSeq => exact absurd h (by decide)
  | faulted => exact absurd h (by decide)
  | _ => rfl

theorem Status.lastErrAfter_of_success {st : Status} (h : st.code = 0x00 ∨ st.code = 0x01) (quiet old : BitVec 8) :
    st.lastErrAfter quiet old = quiet := by
  cases st with
  | ok => rfl
  | endOfSeq => rfl
  | _ => exact absurd h (by decide)

theorem Status.lastErrAfter_of_refused {st : Status} (h : st.code = 0x3F) (quiet old : BitVec 8) :
    st.lastErrAfter quiet old = old := by
  cases st with
  | faulted => rfl
  | _ => exact absurd h (by decide)

/-- What a command that starts in `s` answers: one response, LASTERR as its status says (`quiet` after OK and END), or
a wait for the classifier. Nothing else reaches the command port, and the parameters stay (10_state.md R34). -/
inductive Ends (quiet : BitVec 8) (s : State) : Host.Outcome State Fault Refusal → Prop
  | answers {st : Status} {aux : BitVec 8} {data : Val} {u : State} (hcfg : u.cfg = s.cfg) (hhost : u.host = s.host)
      (hlast : u.lastErr = st.lastErrAfter quiet s.lastErr) : Ends quiet s (respond st aux data u)
  | waits {u : State} (hcfg : u.cfg = s.cfg) (hhost : u.host = s.host) (hlast : u.lastErr = s.lastErr) :
      Ends quiet s (.next u)

section Rules
variable {quiet : BitVec 8} {s t u : State} {o : Host.Outcome State Fault Refusal}

theorem Ends.raiseError {st : Status} {info : Val} (hcfg : u.cfg = s.cfg) (hhost : u.host = s.host)
    (hst : st.code = st.lastErrAfter quiet s.lastErr) : Ends quiet s (raiseError st info u) :=
  .answers hcfg hhost hst

theorem Ends.raiseFault {st : Status} {info : Val} (hcfg : u.cfg = s.cfg) (hhost : u.host = s.host)
    (hst : st.code = st.lastErrAfter quiet s.lastErr) : Ends quiet s (raiseFault st info u) :=
  .answers hcfg hhost hst

/-- The check before a command adds one ending, the refusal, which changes nothing (60_exceptions.md R274). -/
theorem Ends.unlessFaulted (h : Ends quiet s o) : Ends quiet s (unlessFaulted s o) := by
  cases hf : s.fault with
  | true => rw [unlessFaulted_of_faulted hf]; exact .answers rfl rfl rfl
  | false => rwa [unlessFaulted_of_not_faulted hf]

theorem Ends.ite {c : Prop} [Decidable c] {o' : Host.Outcome State Fault Refusal} (h : Ends quiet s o)
    (h' : Ends quiet s o') : Ends quiet s (if c then o else o') := by
  split
  · exact h
  · exact h'

/-- The two endings, read off the next state. -/
theorem Ends.next_cases (h : Ends quiet s (.next t)) :
    t.cfg = s.cfg ∧ t.host.input = s.host.input
    ∧ ((∃ st aux data, t.host.output = s.host.output ++ [rspWord st aux data]
          ∧ t.lastErr = st.lastErrAfter quiet s.lastErr)
        ∨ (t.host.output = s.host.output ∧ t.lastErr = s.lastErr)) := by
  generalize ho : Host.Outcome.next t = o at h
  cases h with
  | @answers st aux data u hcfg hhost hlast =>
    rw [respond_eq] at ho
    cases ho
    exact ⟨hcfg, by simp [hhost], .inl ⟨st, aux, data, by simp [hhost], hlast⟩⟩
  | waits hcfg hhost hlast =>
    cases ho
    exact ⟨hcfg, congrArg HostPort.input hhost, .inr ⟨congrArg HostPort.output hhost, hlast⟩⟩

end Rules

theorem performIllegal_ends (s : State) : Ends s.lastErr s (performIllegal s) :=
  .unlessFaulted (.raiseError rfl rfl rfl)

/-- The loop of UNEXT, entered from any `u` with the parameters, the command port and LASTERR of `s`: it emits, ends
the session or waits, none of which writes LASTERR. -/
theorem unextLoop_ends {s u : State} (as : List ClsAnswer) (hcfg : u.cfg = s.cfg) (hhost : u.host = s.host)
    (hlast : u.lastErr = s.lastErr) :
    Ends s.lastErr s (.next (unextLoop as u)) ∧ (unextLoop as u).lastErr = s.lastErr := by
  refine unextLoop_induction (P := fun v => v.cfg = s.cfg ∧ v.host = s.host ∧ v.lastErr = s.lastErr)
    (R := fun v => Ends s.lastErr s (.next v) ∧ v.lastErr = s.lastErr) ?goes_on ?ends ?emits ?waits
    as u ⟨hcfg, hhost, hlast⟩
  case goes_on => exact fun _ _ hv _ => hv
  case ends => exact fun _ ⟨h1, h2, h3⟩ _ => ⟨.answers (st := .endOfSeq) h1 h2 h3, h3⟩
  case emits => exact fun _ _ _ ⟨h1, h2, h3⟩ _ => ⟨.answers (st := .ok) h1 h2 h3, h3⟩
  case waits => exact fun _ ⟨h1, h2, h3⟩ _ => ⟨.waits h1 h2 h3, h3⟩

/-- A UNEXT that waits (70_reset_and_hazards.md R305) goes on waiting, emits, or goes round the loop. -/
theorem resumeUnext_ends (s : State) :
    Ends s.lastErr s (.next (resumeUnext s)) ∧ (resumeUnext s).lastErr = s.lastErr := by
  obtain ⟨_, h⟩ | ⟨a, rest, _, _, h⟩ | ⟨a, rest, _, _, h⟩ := resumeUnext_cases s <;> rw [h]
  · exact ⟨.waits rfl rfl rfl, rfl⟩
  · exact ⟨.answers (st := .ok) (u := { s.answered rest with patLen := 0, patVal := 0, uCount := s.uCount + 1 })
      rfl rfl rfl, rfl⟩
  · exact unextLoop_ends rest rfl rfl rfl

/-- LASTERR after an OK or END of each command: CLR resets it, every other command leaves it (10_state.md R23). -/
def quietLastErr (s : State) : Instr → BitVec 8
  | .clr => 0
  | _ => s.lastErr

theorem quietLastErr_of_ne_clr {i : Instr} (h : i ≠ .clr) (s : State) : quietLastErr s i = s.lastErr := by
  cases i with
  | clr => exact absurd rfl h
  | _ => rfl

theorem execPack_ends (s : State) : Ends s.lastErr s (execPack s) := by
  refine .unlessFaulted ?_
  dsimp only
  split
  case h_1 => exact .raiseFault rfl rfl rfl
  case h_2 => exact .answers rfl rfl rfl

theorem execTend_ends (s : State) : Ends s.lastErr s (execTend s) :=
  .unlessFaulted <|
    .ite (.raiseError rfl rfl rfl) <|
    .ite (.raiseError rfl rfl rfl) <|
    .ite (.raiseFault rfl rfl rfl) <|
    .ite (.raiseError rfl rfl rfl) (.answers rfl rfl rfl)

/-- The endings of all fourteen commands. -/
theorem exec_ends (i : Instr) (s : State) : Ends (quietLastErr s i) s (exec i s) := by
  cases i with
  | nop => exact .unlessFaulted (.answers rfl rfl rfl)
  | clr => exact .unlessFaulted (.answers rfl rfl rfl)
  | rdreg r =>
    show Ends s.lastErr s (execRdreg r s)
    unfold execRdreg
    split
    · exact .answers rfl rfl rfl
    · exact .unlessFaulted (.raiseError rfl rfl rfl)
  | dpush w v =>
    exact .unlessFaulted (.ite (.raiseFault rfl rfl rfl) (.ite (.raiseError rfl rfl rfl) (.answers rfl rfl rfl)))
  | tbegin => exact .unlessFaulted (.answers rfl rfl rfl)
  | tchar c =>
    exact .unlessFaulted (.ite (.answers (s.addChar_cfg c) (s.addChar_host c) (s.addChar_lastErr c))
      (.raiseError rfl rfl rfl))
  | tend => exact execTend_ends s
  | drd idx => exact .unlessFaulted (.ite (.raiseError rfl rfl rfl) (.answers rfl rfl rfl))
  | pack => exact execPack_ends s
  | bufrd idx => exact .unlessFaulted (.ite (.raiseError rfl rfl rfl) (.answers rfl rfl rfl))
  | bufwr idx u => exact .unlessFaulted (.ite (.raiseError rfl rfl rfl) (.answers rfl rfl rfl))
  | setlen n => exact .unlessFaulted (.ite (.raiseError rfl rfl rfl) (.answers rfl rfl rfl))
  | uopen => exact .unlessFaulted (.answers rfl rfl rfl)
  | unext =>
    refine .unlessFaulted ?_
    split
    · exact .answers rfl rfl rfl
    · exact (unextLoop_ends _ rfl rfl rfl).1

/-! ## LASTERR -/

/-- The clauses of R23 for the response `r`, read off the ending of a command. -/
theorem Ends.lastErr_of_response {quiet : BitVec 8} {s t : State} (h : Ends quiet s (.next t)) {r : RspWord}
    (hr : t.host.output = s.host.output ++ [r]) :
    (0x10 ≤ (r.extractLsb' 56 8).toNat ∧ (r.extractLsb' 56 8).toNat ≤ 0x21 → t.lastErr = r.extractLsb' 56 8)
    ∧ (r.extractLsb' 56 8 = 0x00 ∨ r.extractLsb' 56 8 = 0x01 → t.lastErr = quiet)
    ∧ (r.extractLsb' 56 8 = 0x3F → t.lastErr = s.lastErr) := by
  obtain ⟨_, _, ⟨st, aux, data, hout, hlast⟩ | ⟨hout, _⟩⟩ := h.next_cases
  · obtain rfl : rspWord st aux data = r := by simpa [hout] using hr
    rw [rspWord_st, hlast]
    exact ⟨fun hst => Status.lastErrAfter_of_raised hst _ _, fun hst => Status.lastErrAfter_of_success hst _ _,
      fun hst => Status.lastErrAfter_of_refused hst _ _⟩
  · simp [hout] at hr

/-- With no response yet, LASTERR is as before. -/
theorem Ends.lastErr_of_no_response {quiet : BitVec 8} {s t : State} (h : Ends quiet s (.next t))
    (ho : t.host.output = s.host.output) : t.lastErr = s.lastErr := by
  obtain ⟨_, _, ⟨st, aux, data, hout, _⟩ | ⟨_, hlast⟩⟩ := h.next_cases
  · simp [ho] at hout
  · exact hlast

/-- A command of the host ends as `exec_ends` or `performIllegal_ends` says; `quiet` is 0 for CLR only. -/
theorem step_of_command_ends {s t : State} {w : CmdWord} {rest : List HostEvent} (hp : s.cls.pending = none)
    (hi : s.host.input = .command w :: rest) (h : step s = .next t) :
    ∃ quiet, Ends quiet (s.withInput rest) (.next t) ∧ (decode w = .ok .clr → quiet = 0)
      ∧ (decode w ≠ .ok .clr → quiet = s.lastErr) := by
  rw [step_of_command hp hi] at h
  cases hd : decode w with
  | ok i =>
    rw [performWord_of_ok hd] at h
    refine ⟨quietLastErr (s.withInput rest) i, h ▸ exec_ends i _, fun hc => ?_, fun hc => ?_⟩
    · obtain rfl : i = .clr := Except.ok.inj hc
      rfl
    · exact quietLastErr_of_ne_clr (fun hi => hc (congrArg Except.ok hi)) _
  | error e =>
    rw [performWord_of_error hd] at h
    refine ⟨s.lastErr, h ▸ performIllegal_ends (s.withInput rest), fun hc => ?_, fun _ => rfl⟩
    cases hc

/-- Settles O15: each clause is read off how the command ends (`exec_ends`), the wait (`resumeUnext_ends`) or RST. -/
theorem lastErrRecordsErrors : Obligations.LastErrRecordsErrors := by
  refine ⟨fun s t w rest hp hi h => ?_, fun s t hp hi h => ?_, fun s t rest hi h => ?_⟩
  · obtain ⟨quiet, hends, hclr, hne⟩ := step_of_command_ends hp hi h
    refine ⟨hends.lastErr_of_no_response, fun r hr => ?_⟩
    obtain ⟨hraised, hquiet, hrefused⟩ := hends.lastErr_of_response hr
    exact ⟨hraised, fun hst hc => (hquiet hst).trans (hne hc), fun hc hst => (hquiet (.inl hst)).trans (hclr hc),
      hrefused⟩
  · rw [step_of_waiting hp hi] at h
    cases h
    exact (resumeUnext_ends s).2
  · rw [step_of_reset hi] at h
    cases h
    rfl

/-! ## The parameters -/

theorem Ends.cfg {quiet : BitVec 8} {s t : State} (h : Ends quiet s (.next t)) : t.cfg = s.cfg := h.next_cases.1

theorem step_cfg {s t : State} (h : step s = .next t) : t.cfg = s.cfg := by
  obtain ⟨_, _, rfl⟩ | ⟨rest, _, rfl⟩ | ⟨w, rest, i, _, _, _, h⟩ | ⟨w, rest, e, _, _, _, h⟩ | ⟨q, _, _, rfl⟩ :=
    step_next h
  · rfl
  · rfl
  · have hends := exec_ends i (s.withInput rest)
    rw [h] at hends
    exact hends.cfg
  · have hends := performIllegal_ends (s.withInput rest)
    rw [h] at hends
    exact hends.cfg
  · exact (resumeUnext_ends s).1.cfg

/-- RDREG of a defined register answers its value in every state (44_control.md R252). -/
theorem exec_rdreg_defined {r : BitVec 8} {reg : Reg} (hr : regOfNumber r = some reg) (s : State) :
    exec (.rdreg r) s = .next (s.reply (rspWord .ok 0 (s.readReg reg))) := by
  show execRdreg r s = _
  simp only [execRdreg, hr, respond_eq]

/-- Settles O21: no ending of a step changes the parameters, and the three registers read them. -/
theorem parametersAreConstant : Obligations.ParametersAreConstant :=
  ⟨fun _ _ => step_cfg, fun s => ⟨exec_rdreg_defined (reg := .cfgDescMax) rfl s,
    exec_rdreg_defined (reg := .cfgBufUnits) rfl s, exec_rdreg_defined (reg := .cfgTW) rfl s⟩⟩

/-! ## The reset values -/

theorem State.cleared_hasResetValues (s : State) : s.cleared.HasResetValues := by
  simp [State.HasResetValues, Desc.zero]

theorem State.afterReset_hasResetValues (s : State) : s.afterReset.HasResetValues := s.cleared_hasResetValues

theorem State.resetWith_hasResetValues (p : Config.Params) : (State.resetWith p).HasResetValues :=
  (State.resetWith p).afterReset_hasResetValues

theorem exec_clr_of_not_faulted {s : State} (hf : s.fault = false) :
    exec .clr s = .next (s.cleared.reply (rspWord .ok 0 0)) :=
  unlessFaulted_of_not_faulted hf _

/-- Settles O10: reset, RST and CLR all end in a state with the reset values; FAULTCODE is 0 before CLR by the
invariant. -/
theorem resetValues : Obligations.ResetValues := by
  refine ⟨fun p => ⟨State.resetWith_hasResetValues p, rfl, rfl⟩, fun s rest hi => ?_, fun s hinv hf => ?_⟩
  · exact ⟨_, step_of_reset hi, State.afterReset_hasResetValues _, rfl, rfl⟩
  · obtain ⟨⟨hcode, _, _⟩, _⟩ := hinv
    exact ⟨_, exec_clr_of_not_faulted hf, s.cleared_hasResetValues, hf, hcode hf⟩

end Sys2Proof.Machine
end

section
/-! Proofs about the encoding (30_encoding.md): each command has one word and each word that decodes is the word of its
command; the row of R94 that a command belongs to; the two statements of this family about the table and `perform`. -/

namespace Sys2Proof

open Laws.OpField (opcode)

/-! ## One word per command -/

theorem needZero_eq_ok_iff {z : Bool} {i j : Instr} : needZero z i = .ok j ↔ z = true ∧ i = j := by
  cases z <;> simp [needZero]

theorem decode_encode (i : Instr) : decode (encode i) = .ok i := by
  cases i with
  | bufwr idx u => simp [encode, decode_cmdWord, needZero, low_setWidth, high_setWidth]
  | _ => simp [encode, decode_cmdWord, needZero]

/-- By the opcode: the reserved-zero fields are zero (`needZero`), so the operands determine the word. -/
theorem encode_of_decode {w : CmdWord} {i : Instr} (h : decode w = .ok i) : encode i = w := by
  obtain ⟨op, a, b, v, rfl⟩ : ∃ op a b v, w = cmdWord op a b v := ⟨_, _, _, _, (cmdWord_fields w).symm⟩
  rw [decode_cmdWord] at h
  split at h
  case h_15 => cases h
  all_goals
    next hop =>
    simp only [needZero_eq_ok_iff, Bool.and_eq_true, beq_iff_eq] at h
    obtain ⟨hzero, rfl⟩ := h
    refine cmdWord_inj.mpr ⟨BitVec.eq_of_toNat_eq hop.symm, ?_⟩
    simp [hzero, setWidth_low_of_high_eq_zero]

theorem decode_eq_ok_iff {w : CmdWord} {i : Instr} : decode w = .ok i ↔ encode i = w :=
  ⟨encode_of_decode, fun h => h ▸ decode_encode i⟩

/-! ## The row of a command -/

/-- OP and the reserved-zero bits of a command (R94): every field but its operands. -/
def Instr.fixedBits : Instr → CmdWord
  | .rdreg _ | .tchar _ => cmdWord (.allOnes 8) 0 (.allOnes 16) (.allOnes 32)
  | .dpush _ _ => cmdWord (.allOnes 8) 0 (.allOnes 16) 0
  | .drd _ | .bufrd _ | .setlen _ => cmdWord (.allOnes 8) (.allOnes 8) 0 (.allOnes 32)
  | .bufwr _ _ => cmdWord (.allOnes 8) (.allOnes 8) 0 0xFFFFFF00
  | .nop | .clr | .tbegin | .tend | .pack | .uopen | .unext =>
    cmdWord (.allOnes 8) (.allOnes 8) (.allOnes 16) (.allOnes 32)

/-- The row of R94 for a command: "`mask` covers OP and every reserved-zero bit, and `match` has OP and zeros". -/
def Instr.opRow (i : Instr) : OpRow := ⟨i.mnemonic, i.fixedBits, cmdWord (opcode i) 0 0 0⟩

/-- The table of R94 is the rows of the fourteen commands, whatever their operands. -/
theorem opcodeTable_eq_opRows : opcodeTable =
    [Instr.nop, .clr, .rdreg 0, .dpush 0 0, .tbegin, .tchar 0, .tend, .drd 0, .pack, .bufrd 0, .bufwr 0 0, .setlen 0,
      .uopen, .unext].map Instr.opRow := by
  decide

theorem Instr.opRow_mem (i : Instr) : i.opRow ∈ opcodeTable := by
  rw [opcodeTable_eq_opRows]
  cases i <;> simp [Instr.opRow, Instr.mnemonic, Instr.fixedBits, opcode]

theorem exists_opRow_of_mem {row : OpRow} (h : row ∈ opcodeTable) : ∃ i : Instr, i.opRow = row := by
  rw [opcodeTable_eq_opRows] at h
  obtain ⟨i, -, hi⟩ := List.mem_map.mp h
  exact ⟨i, hi⟩

theorem opcodeTable_mnemonic_inj {r r' : OpRow} (h : r ∈ opcodeTable) (h' : r' ∈ opcodeTable)
    (he : r.mnemonic = r'.mnemonic) : r = r' :=
  List.inj_on_of_nodup_map (f := OpRow.mnemonic) (by decide) h h' he

/-! ## The rows are the decoder -/

theorem encode_matches_opRow (i : Instr) : encode i &&& i.opRow.mask = i.opRow.pattern := by
  simp only [Instr.opRow]
  cases i with
  | bufwr idx u =>
    have hhigh := (and_high_eq_zero (u.setWidth 32)).mpr (high_setWidth u)
    simp [encode, Instr.fixedBits, opcode, cmdWord_and, hhigh]
  | _ => simp [encode, Instr.fixedBits, opcode, cmdWord_and]

/-- The command of the row of `i` whose operands are the fields of `w` (R96). -/
def Instr.withFieldsOf (w : CmdWord) : Instr → Instr
  | .rdreg _ => .rdreg (fieldA w)
  | .dpush _ _ => .dpush (fieldA w) (fieldV w)
  | .tchar _ => .tchar (fieldA w)
  | .drd _ => .drd (fieldB w)
  | .bufrd _ => .bufrd (fieldB w)
  | .bufwr _ _ => .bufwr (fieldB w) (fieldVLow w)
  | .setlen _ => .setlen (fieldB w)
  | i => i

theorem Instr.opRow_withFieldsOf (i : Instr) (w : CmdWord) : (i.withFieldsOf w).opRow = i.opRow := by
  cases i <;> rfl

/-- A word that matches a command's row is the word of that row's command with the operands that the word holds. -/
theorem encode_withFieldsOf {i : Instr} {w : CmdWord} (h : w &&& i.opRow.mask = i.opRow.pattern) :
    encode (i.withFieldsOf w) = w := by
  obtain ⟨op, a, b, v, rfl⟩ : ∃ op a b v, w = cmdWord op a b v := ⟨_, _, _, _, (cmdWord_fields w).symm⟩
  simp only [Instr.opRow] at h
  cases i with
  | bufwr idx u =>
    simp only [Instr.fixedBits, opcode, cmdWord_and, cmdWord_inj, BitVec.and_allOnes] at h
    obtain ⟨rfl, rfl, -, hv⟩ := h
    simp [Instr.withFieldsOf, encode, fieldVLow_cmdWord,
      setWidth_low_of_high_eq_zero ((and_high_eq_zero v).mp hv)]
  | _ =>
    simp only [Instr.fixedBits, opcode, cmdWord_and, cmdWord_inj, BitVec.and_allOnes] at h
    simp [Instr.withFieldsOf, encode, h]

/-- R94's "exactly when", for one row of the table. -/
theorem decodes_as_iff_matches {row : OpRow} (hrow : row ∈ opcodeTable) (w : CmdWord) :
    (∃ i, decode w = .ok i ∧ i.mnemonic = row.mnemonic) ↔ w &&& row.mask = row.pattern := by
  constructor
  · rintro ⟨i, hi, hname⟩
    obtain rfl : i.opRow = row := opcodeTable_mnemonic_inj i.opRow_mem hrow hname
    rw [← encode_of_decode hi]
    exact encode_matches_opRow i
  · intro h
    obtain ⟨i, rfl⟩ := exists_opRow_of_mem hrow
    exact ⟨i.withFieldsOf w, decode_eq_ok_iff.mpr (encode_withFieldsOf h),
      congrArg OpRow.mnemonic (i.opRow_withFieldsOf w)⟩

theorem opcodeTable_disjoint : opcodeTable.Pairwise
    (fun r r' => ∀ w : CmdWord, ¬ (w &&& r.mask = r.pattern ∧ w &&& r'.mask = r'.pattern)) := by
  have hnodup : opcodeTable.Pairwise (fun r r' => r.mnemonic ≠ r'.mnemonic) := by decide
  refine hnodup.imp_of_mem fun hr hr' hne w ⟨h, h'⟩ => hne ?_
  obtain ⟨i, hi, hname⟩ := (decodes_as_iff_matches hr w).mpr h
  obtain ⟨i', hi', hname'⟩ := (decodes_as_iff_matches hr' w).mpr h'
  obtain rfl : i = i' := Except.ok.inj (hi.symm.trans hi')
  exact hname.symm.trans hname'

/-- A word is illegal exactly when it matches no row. -/
theorem decode_error_iff {w : CmdWord} :
    (∃ e, decode w = .error e) ↔ ∀ row ∈ opcodeTable, w &&& row.mask ≠ row.pattern := by
  constructor
  · rintro ⟨e, he⟩ row hrow h
    obtain ⟨i, hi, -⟩ := (decodes_as_iff_matches hrow w).mpr h
    rw [he] at hi
    cases hi
  · intro hnone
    cases hd : decode w with
    | error e => exact ⟨e, rfl⟩
    | ok i => exact absurd ((decodes_as_iff_matches i.opRow_mem w).mp ⟨i, hd, rfl⟩) (hnone _ i.opRow_mem)

/-- R97's `decode`: the first row that the word matches. -/
theorem decode_mnemonic_eq_find (w : CmdWord) : (decode w).toOption.map Instr.mnemonic =
    (opcodeTable.find? (fun row => w &&& row.mask == row.pattern)).map OpRow.mnemonic := by
  cases hfind : opcodeTable.find? (fun row => w &&& row.mask == row.pattern) with
  | none =>
    obtain ⟨e, he⟩ := (decode_error_iff (w := w)).mpr (by simpa using hfind)
    rw [he]
    rfl
  | some row =>
    obtain ⟨i, hi, hname⟩ := (decodes_as_iff_matches (List.mem_of_find?_eq_some hfind) w).mpr
      (by simpa using List.find?_some hfind)
    rw [hi]
    exact congrArg some hname

namespace Machine

/-! ## Illegal words and the refusal -/

theorem performIllegal_of_not_faulted {s : State} (hf : s.fault = false) :
    performIllegal s = .next (State.reply { s with lastErr := 0x10 } (rspWord .errIllegal 0 0)) :=
  unlessFaulted_of_not_faulted hf _

theorem regOfNumber_eq_none_of_lt {r : BitVec 8} (h : 0x13 < r.toNat) : regOfNumber r = none := by
  unfold regOfNumber
  split
  case h_21 => rfl
  all_goals omega

/-- Every command but RDREG begins with the check of FAULT, and RDREG of a reserved number has it too (R274). -/
theorem exec_of_faulted {s : State} (hf : s.fault = true) {i : Instr} (hi : ∀ r, i = .rdreg r → 0x13 < r.toNat) :
    exec i s = .next (s.reply (rspWord .faulted s.faultCode 0)) := by
  cases i with
  | rdreg r =>
    show execRdreg r s = _
    simp only [execRdreg, regOfNumber_eq_none_of_lt (hi r rfl)]
    exact unlessFaulted_of_faulted hf _
  | _ => exact unlessFaulted_of_faulted hf _

/-- Settles O4: a row is the commands whose words match it (`decodes_as_iff_matches`), so two rows share no word and a
word outside the table is illegal. -/
theorem decodeMatchesOpcodeTable : Obligations.DecodeMatchesOpcodeTable := by
  refine ⟨fun row hrow w => decodes_as_iff_matches hrow w, opcodeTable_disjoint, fun s w hf hnone => ?_⟩
  obtain ⟨e, he⟩ := decode_error_iff.mpr hnone
  rw [performWord_of_error he, performIllegal_of_not_faulted hf]
  rfl

/-- Settles O6: `decode` is the search of the table, and what `performWord` answers follows R97's order: the refusal
while faulted, then an illegal word, then the command. -/
theorem performRule : Obligations.PerformRule := by
  refine ⟨decode_mnemonic_eq_find, fun s w =>
    ⟨fun ⟨hf, hreg⟩ => ?refused, fun h => ⟨fun e he => ?illegal, fun i hi => performWord_of_ok hi s⟩⟩⟩
  case refused =>
    cases hd : decode w with
    | error e => rw [performWord_of_error hd]; exact unlessFaulted_of_faulted hf _
    | ok i =>
      rw [performWord_of_ok hd]
      exact exec_of_faulted hf fun r hi => hreg r (hd.trans (congrArg Except.ok hi))
  case illegal =>
    have hf : s.fault = false := Bool.eq_false_of_not_eq_true fun hf => h ⟨hf, fun r hr => by simp [he] at hr⟩
    rw [performWord_of_error he, performIllegal_of_not_faulted hf]

end Machine

end Sys2Proof
end

section
/-! Proofs about descriptor input (40_descriptor.md): the words of the five commands, what each of them answers in a
state without a fault, and the five rules R131 to R135. -/

namespace Sys2Proof

/-! ## The words of a command's row -/

/-- R94 for the row of one command: the words that match it are those that decode to it, with their own operands. -/
theorem matches_opRow_iff_decode (i : Instr) (w : CmdWord) :
    w &&& i.opRow.mask = i.opRow.pattern ↔ decode w = .ok (i.withFieldsOf w) := by
  constructor
  · exact fun h => decode_eq_ok_iff.mpr (encode_withFieldsOf h)
  · intro h
    have hmatch := encode_matches_opRow (i.withFieldsOf w)
    rwa [encode_of_decode h, i.opRow_withFieldsOf w] at hmatch

namespace Machine

theorem State.tableFull_iff {s : State} : s.tableFull = true ↔ s.dCount.toNat = s.cfg.descMax := decide_eq_true_iff

section Answers
variable {s : State} (hf : s.fault = false)
include hf

/-! ## DPUSH and DRD -/

theorem exec_dpush_of_too_wide {w : BitVec 8} (hw : 32 < w.toNat) (v : Val) :
    exec (.dpush w v) s = .next (State.reply { s with fault := true, faultCode := 0x20, lastErr := 0x20 }
      (rspWord .faultWidth 0x20 (w.setWidth 32))) :=
  (unlessFaulted_of_not_faulted hf _).trans (if_pos (decide_eq_true hw))

theorem exec_dpush_of_width_ok {w : BitVec 8} (hw : w.toNat ≤ 32) (v : Val) :
    exec (.dpush w v) s =
      if s.tableFull then raiseError .errCapacity (s.dCount.setWidth 32) s
      else respond .ok 0 (s.dCount.setWidth 32) (s.appendDesc ⟨w.setWidth 6, v⟩) := by
  have hfit : widthTooBig w = false := decide_eq_false (Nat.not_lt.mpr hw)
  have hdesc : descWidth w = w.setWidth 6 := (BitVec.setWidth_eq_extractLsb' (by decide)).symm
  rw [← hdesc]
  exact (unlessFaulted_of_not_faulted hf _).trans (if_neg (Bool.eq_false_iff.mp hfit))

theorem exec_drd (idx : BitVec 16) :
    exec (.drd idx) s =
      if s.dCount.toNat ≤ idx.toNat then raiseError .errRange (idx.setWidth 32) s
      else respond .ok ((s.desc.read idx.toNat).w.setWidth 8) (s.desc.read idx.toNat).v s :=
  unlessFaulted_of_not_faulted hf _

/-! ## The text: TBEGIN, TCHAR and TEND -/

theorem exec_tbegin : exec .tbegin s = .next (s.openText.reply (rspWord .ok 0 0)) :=
  unlessFaulted_of_not_faulted hf _

theorem exec_tchar (c : BitVec 8) :
    exec (.tchar c) s = if s.tAct then respond .ok 0 0 (s.addChar c) else raiseError .errSeq 0 s :=
  unlessFaulted_of_not_faulted hf _

theorem exec_tchar_of_open (hopen : s.tAct = true) (c : BitVec 8) :
    exec (.tchar c) s = .next ((s.addChar c).reply (rspWord .ok 0 0)) :=
  (exec_tchar hf c).trans (if_pos hopen)

theorem exec_tend_of_no_text (hopen : s.tAct = false) :
    exec .tend s = .next (State.reply { s with lastErr := 0x14 } (rspWord .errSeq 0 0)) :=
  (unlessFaulted_of_not_faulted hf _).trans (if_pos (by simp [hopen]))

/-- TEND with a text open: R134's checks from the second one on. -/
theorem exec_tend_of_open (hopen : s.tAct = true) :
    exec .tend s =
      if s.tBad then raiseError .errMalformed 0 s.closeText
      else if s.tOver then raiseFault .faultWidth 33 s
      else if s.tableFull then raiseError .errCapacity (s.dCount.setWidth 32) s.closeText
      else respond .ok 0 (s.dCount.setWidth 32) (s.appendDesc ⟨s.tLen, s.tVal⟩).closeText :=
  (unlessFaulted_of_not_faulted hf _).trans (if_neg (by simp [hopen]))

theorem exec_tend_of_bad (hopen : s.tAct = true) (hbad : s.tBad = true) :
    exec .tend s = .next (State.reply { s.closeText with lastErr := 0x11 } (rspWord .errMalformed 0 0)) :=
  (exec_tend_of_open hf hopen).trans (if_pos hbad)

theorem exec_tend_of_over (hopen : s.tAct = true) (hbad : s.tBad = false) (hover : s.tOver = true) :
    exec .tend s = .next (State.reply { s with fault := true, faultCode := 0x20, lastErr := 0x20 }
      (rspWord .faultWidth 0x20 33)) := by
  rw [exec_tend_of_open hf hopen, if_neg (by simp [hbad]), if_pos hover]
  rfl

/-- TEND of a text of at most 32 digits: R134's last check. -/
theorem exec_tend_of_digits (hopen : s.tAct = true) (hbad : s.tBad = false) (hover : s.tOver = false) :
    exec .tend s =
      if s.tableFull then raiseError .errCapacity (s.dCount.setWidth 32) s.closeText
      else respond .ok 0 (s.dCount.setWidth 32) (s.appendDesc ⟨s.tLen, s.tVal⟩).closeText := by
  rw [exec_tend_of_open hf hopen, if_neg (by simp [hbad]), if_neg (by simp [hover])]

theorem exec_tend_appends (hopen : s.tAct = true) (hbad : s.tBad = false) (hover : s.tOver = false)
    (hroom : s.dCount.toNat ≠ s.cfg.descMax) :
    exec .tend s =
      .next ((s.appendDesc ⟨s.tLen, s.tVal⟩).closeText.reply (rspWord .ok 0 (s.dCount.setWidth 32))) := by
  rw [exec_tend_of_digits hf hopen hbad hover, if_neg (mt State.tableFull_iff.mp hroom)]
  rfl

end Answers

/-! ## One character of the text -/

/-- The code of a binary digit: '0' or '1' (R133). -/
def digitCode (b : Bool) : BitVec 8 := if b then 0x31 else 0x30

@[simp] theorem addChar_digitCode (s : State) (b : Bool) : s.addChar (digitCode b) = s.addDigit b := by
  cases b <;> rfl

theorem exists_digitCode_eq {c : BitVec 8} (h : c = 0x30 ∨ c = 0x31) : ∃ b, digitCode b = c := by
  obtain rfl | rfl := h
  · exact ⟨false, rfl⟩
  · exact ⟨true, rfl⟩

theorem digitCode_sub (b : Bool) : (digitCode b - 0x30).setWidth 32 = (BitVec.ofBool b).setWidth 32 := by
  cases b <;> rfl

theorem addDigit_of_full {s : State} (h : s.tLen.toNat = 32) (b : Bool) : s.addDigit b = { s with tOver := true } :=
  if_pos h

theorem addDigit_of_room {s : State} (h : s.tLen.toNat ≠ 32) (b : Bool) :
    s.addDigit b = { s with tVal := (s.tVal <<< 1) ||| (BitVec.ofBool b).setWidth 32, tLen := s.tLen + 1 } :=
  if_neg h

theorem digitOf_of_not_digit {c : BitVec 8} (h0 : c ≠ 0x30) (h1 : c ≠ 0x31) : digitOf c = none :=
  (if_neg h0).trans (if_neg h1)

theorem addChar_of_not_digit {s : State} {c : BitVec 8} (h0 : c ≠ 0x30) (h1 : c ≠ 0x31) :
    s.addChar c = { s with tBad := true } := by
  simp only [State.addChar, digitOf_of_not_digit h0 h1]

/-! ## The five rules -/

/-- Settles O29: the words are DPUSH's row; the checks of R131 in order, then a read after the append. -/
theorem dpushRule : Obligations.DpushRule := by
  refine ⟨fun x => matches_opRow_iff_decode (.dpush 0 0) x, fun s w v hf hwf =>
    ⟨fun hw => exec_dpush_of_too_wide hf hw v, fun hw hfull => ?_, fun hw hroom => ?_⟩⟩
  · rw [exec_dpush_of_width_ok hf hw, if_pos (State.tableFull_iff.mpr hfull)]
    rfl
  · refine ⟨s.desc.write s.dCount.toNat ⟨w.setWidth 6, v⟩, ?_, ?_, fun k hk => DescTable.read_write_other hk _⟩
    · rw [exec_dpush_of_width_ok hf hw, if_neg (mt State.tableFull_iff.mp hroom)]
      rfl
    · rw [DescTable.read_write hwf, if_pos rfl]

/-- Settles O30: the answer of R132, and the one word of TBEGIN. -/
theorem tbeginRule : Obligations.TbeginRule :=
  ⟨fun _ => decode_eq_ok_iff.trans eq_comm, fun _ hf => exec_tbegin hf⟩

/-- Settles O31: a code is that of a digit, which `addDigit` takes, or sets TBAD. -/
theorem tcharRule : Obligations.TcharRule := by
  refine ⟨fun w => matches_opRow_iff_decode (.tchar 0) w, fun s c hf =>
    ⟨fun hclosed => ?no_text, fun hopen hc hfull => ?full, fun hopen hc hroom => ?digit,
      fun hopen h0 h1 => ?bad⟩⟩
  case no_text => exact (exec_tchar hf c).trans (if_neg (by simp [hclosed]))
  case full =>
    obtain ⟨b, rfl⟩ := exists_digitCode_eq hc
    rw [exec_tchar_of_open hf hopen, addChar_digitCode, addDigit_of_full hfull]
    rfl
  case digit =>
    obtain ⟨b, rfl⟩ := exists_digitCode_eq hc
    rw [exec_tchar_of_open hf hopen, addChar_digitCode, addDigit_of_room hroom, digitCode_sub]
    rfl
  case bad =>
    rw [exec_tchar_of_open hf hopen, addChar_of_not_digit h0 h1]
    rfl

/-- Settles O32: the four checks in R134's order, then a read after the append. -/
theorem tendRule : Obligations.TendRule := by
  refine ⟨fun w => decode_eq_ok_iff.trans eq_comm, fun s hf hwf =>
    ⟨exec_tend_of_no_text hf, exec_tend_of_bad hf, exec_tend_of_over hf,
      fun hopen hbad hover hfull => ?_, fun hopen hbad hover hroom => ?_⟩⟩
  · rw [exec_tend_of_digits hf hopen hbad hover, if_pos (State.tableFull_iff.mpr hfull)]
    rfl
  · refine ⟨s.desc.write s.dCount.toNat ⟨s.tLen, s.tVal⟩, ?_, ?_, fun k hk => DescTable.read_write_other hk _⟩
    · exact exec_tend_appends hf hopen hbad hover hroom
    · rw [DescTable.read_write hwf, if_pos rfl]

/-- Settles O33: the two answers of R135. -/
theorem drdRule : Obligations.DrdRule :=
  ⟨fun w => matches_opRow_iff_decode (.drd 0) w, fun _ idx hf =>
    ⟨fun h => (exec_drd hf idx).trans (if_pos h), fun h => (exec_drd hf idx).trans (if_neg (Nat.not_le.mpr h))⟩⟩

end Machine

end Sys2Proof
end

section
/-! Proof that TBEGIN, the characters and TEND are the source's `from_text` (40_descriptor.md R136): the run of the
commands is a fold of `addChar`, and the fold over digits is the value of their string. -/

namespace Sys2Proof.Machine

/-! ## Runs of commands -/

theorem Ends.exists_next {quiet : BitVec 8} {s : State} {o : Host.Outcome State Fault Refusal} (h : Ends quiet s o) :
    ∃ t, o = .next t := by
  cases h with
  | answers => exact ⟨_, rfl⟩
  | waits => exact ⟨_, rfl⟩

/-- The state with another command port. -/
def State.withHost (s : State) (p : HostPort) : State := { s with host := p }

theorem run_succ_of_step {s t : State} (h : step s = .next t) (k : Nat) : core.run (k + 1) s = core.run k t := by
  have hstep : core.step s = .next t := h
  simp only [Host.Core.run, hstep]

theorem step_withHost_command {s : State} (hp : s.cls.pending = none) (i : Instr) (input : List HostEvent)
    (out : List RspWord) :
    step (s.withHost ⟨.command (encode i) :: input, out⟩) = exec i (s.withHost ⟨input, out⟩) :=
  (step_of_command (s := s.withHost ⟨.command (encode i) :: input, out⟩) hp rfl).trans
    (performWord_of_ok (decode_encode i) _)

/-! ## The run of a text's commands -/

/-- A character does not look at the command port. -/
theorem addChar_withHost (s : State) (p : HostPort) (c : BitVec 8) :
    (s.withHost p).addChar c = (s.addChar c).withHost p := by
  unfold State.addChar
  cases digitOf c with
  | none => rfl
  | some d =>
    show (s.withHost p).addDigit d = (s.addDigit d).withHost p
    unfold State.addDigit
    rw [apply_ite (State.withHost · p)]
    rfl

theorem exec_tchar_withHost {s : State} (hf : s.fault = false) (hopen : s.tAct = true) (c : BitVec 8)
    (input : List HostEvent) (out : List RspWord) :
    exec (.tchar c) (s.withHost ⟨input, out⟩) =
      .next ((s.addChar c).withHost ⟨input, out ++ [rspWord .ok 0 0]⟩) := by
  rw [exec_tchar_of_open (s := s.withHost ⟨input, out⟩) hf hopen, addChar_withHost]
  rfl

theorem append_singleton_append_replicate {α : Type} (l : List α) (x : α) (n : Nat) :
    l ++ [x] ++ List.replicate n x = l ++ List.replicate (n + 1) x := by
  rw [List.append_assoc, List.singleton_append, ← List.replicate_succ]

/-- What no character changes, no text changes. -/
theorem foldl_addChar_field {α : Type} (field : State → α) (h : ∀ s c, field (s.addChar c) = field s)
    (codes : List (BitVec 8)) (s : State) : field (codes.foldl State.addChar s) = field s := by
  induction codes generalizing s with
  | nil => rfl
  | cons c codes ih => exact (ih _).trans (h s c)

/-- TCHAR for each code: every response is OK, and the text takes the codes one after the other. -/
theorem run_tchars (codes : List (BitVec 8)) (tail : List HostEvent) (k : Nat) {s : State} (out : List RspWord)
    (hf : s.fault = false) (hp : s.cls.pending = none) (hopen : s.tAct = true) :
    core.run (codes.length + k) (s.withHost ⟨commandsOf (codes.map Instr.tchar) ++ tail, out⟩) =
      core.run k ((codes.foldl State.addChar s).withHost
        ⟨tail, out ++ List.replicate codes.length (rspWord .ok 0 0)⟩) := by
  induction codes generalizing s out with
  | nil => simp [commandsOf]
  | cons c codes ih =>
    have hstep := (step_withHost_command hp (.tchar c) (commandsOf (codes.map Instr.tchar) ++ tail) out).trans
      (exec_tchar_withHost hf hopen c _ _)
    have hrest := ih (s := s.addChar c) (out ++ [rspWord .ok 0 0]) ((s.addChar_fault c).trans hf)
      ((congrArg ClsPort.pending (s.addChar_cls c)).trans hp) ((s.addChar_tAct c).trans hopen)
    rw [append_singleton_append_replicate] at hrest
    rw [List.length_cons, Nat.add_right_comm]
    exact (run_succ_of_step hstep _).trans hrest

/-- DTEXT up to its TEND, whose answer is that of the whole. -/
theorem run_dtextCodes {s : State} {codes : List (BitVec 8)} {rest : List HostEvent} (hf : s.fault = false)
    (hp : s.cls.pending = none) (hi : s.host.input = commandsOf (dtextCodes codes) ++ rest) {t : State}
    (ht : exec .tend ((codes.foldl State.addChar s.openText).withHost
      ⟨rest, s.host.output ++ List.replicate (codes.length + 1) (rspWord .ok 0 0)⟩) = .next t) :
    core.run (codes.length + 2) s = .next t := by
  have hinput : s.host.input = .command (encode .tbegin) ::
      (commandsOf (codes.map Instr.tchar) ++ .command (encode .tend) :: rest) := by
    simpa [commandsOf, dtextCodes] using hi
  have hbegin : step s = .next (s.openText.withHost
      ⟨commandsOf (codes.map Instr.tchar) ++ .command (encode .tend) :: rest,
        s.host.output ++ [rspWord .ok 0 0]⟩) :=
    (step_of_command hp hinput).trans ((performWord_of_ok (decode_encode _) _).trans (exec_tbegin hf))
  have hchars := run_tchars codes (.command (encode .tend) :: rest) 1 (s := s.openText)
    (s.host.output ++ [rspWord .ok 0 0]) hf hp rfl
  rw [append_singleton_append_replicate] at hchars
  have hpend : (codes.foldl State.addChar s.openText).cls.pending = none :=
    (congrArg ClsPort.pending (foldl_addChar_field State.cls State.addChar_cls codes s.openText)).trans hp
  have hend := (step_withHost_command hpend .tend rest _).trans ht
  rw [run_succ_of_step hbegin, hchars, run_succ_of_step hend]
  rfl

/-! ## What the text holds after its characters -/

theorem addChar_tBad (s : State) (c : BitVec 8) : (s.addChar c).tBad = (s.tBad || (digitOf c).isNone) := by
  unfold State.addChar
  split
  next d hd =>
    unfold State.addDigit
    split <;> simp [hd]
  next hd => simp [hd]

/-- One bad character makes the text bad, whatever stands around it. -/
theorem foldl_addChar_tBad (codes : List (BitVec 8)) (s : State) :
    (codes.foldl State.addChar s).tBad = (s.tBad || codes.any fun c => (digitOf c).isNone) := by
  induction codes generalizing s with
  | nil => simp
  | cons c codes ih => rw [List.foldl_cons, ih, addChar_tBad, List.any_cons, Bool.or_assoc]

theorem foldl_addChar_digits (bits : List Bool) (s : State) :
    (bits.map digitCode).foldl State.addChar s = bits.foldl State.addDigit s := by
  simp [List.foldl_map]

/-- A digit shifted in at the bottom of the register: `2 * v + b`, as R10 has it for a bit appended. -/
theorem ofNat_shiftLeft_one_or_ofBool (v : Nat) (b : Bool) :
    (BitVec.ofNat 32 v <<< 1) ||| (BitVec.ofBool b).setWidth 32 = BitVec.ofNat 32 (2 * v + b.toNat) := by
  apply BitVec.eq_of_getLsbD_eq
  intro i hi
  simp only [BitVec.getLsbD_or, BitVec.getLsbD_shiftLeft, BitVec.getLsbD_setWidth, BitVec.getLsbD_ofNat,
    BitVec.getLsbD_ofBool]
  cases i with
  | zero => cases b <;> simp
  | succ i => cases b <;> simp [Nat.testBit_succ, hi, Nat.lt_of_succ_lt hi, Nat.mul_add_div]

/-- Up to 32 digits: the length and the value of the string (00_scope.md R10). -/
theorem foldl_addDigit_openText (s : State) (bits : List Bool) (h : bits.length ≤ 32) :
    bits.foldl State.addDigit s.openText =
      { s.openText with tLen := BitVec.ofNat 6 bits.length, tVal := BitVec.ofNat 32 (bitsVal bits) } := by
  induction bits using List.reverseRecOn with
  | nil => rfl
  | append_singleton bits b ih =>
    rw [List.length_append, List.length_singleton] at h
    rw [List.foldl_append, ih (by omega), List.foldl_cons, List.foldl_nil, addDigit_of_room (by simp; omega)]
    rw [bitsVal_append_one, ← ofNat_shiftLeft_one_or_ofBool, List.length_append, List.length_singleton, BitVec.ofNat_add]
    rfl

/-- With 32 digits there, more digits only set TOVER. -/
theorem foldl_addDigit_of_full (bits : List Bool) (hne : bits ≠ []) {s : State} (h : s.tLen.toNat = 32) :
    bits.foldl State.addDigit s = { s with tOver := true } := by
  induction bits generalizing s with
  | nil => exact absurd rfl hne
  | cons b bits ih =>
    rw [List.foldl_cons, addDigit_of_full h]
    cases bits with
    | nil => rfl
    | cons b' bits => exact ih (List.cons_ne_nil _ _) h

/-- More than 32 digits: the register is full and TOVER is set. -/
theorem foldl_addDigit_openText_over (s : State) (bits : List Bool) (h : 32 < bits.length) :
    ∃ v, bits.foldl State.addDigit s.openText = { s.openText with tLen := 32, tVal := v, tOver := true } := by
  have htake : (bits.take 32).length = 32 := List.length_take_of_le h.le
  have hdrop : bits.drop 32 ≠ [] := by simpa using h
  have hfull := foldl_addDigit_openText s (bits.take 32) htake.le
  rw [htake] at hfull
  refine ⟨BitVec.ofNat 32 (bitsVal (bits.take 32)), ?_⟩
  conv => lhs; rw [← List.take_append_drop 32 bits, List.foldl_append, hfull]
  exact foldl_addDigit_of_full _ hdrop rfl

/-- Settles O35: the text that TEND finds is the fold of the codes, and TEND answers by what that fold is. -/
theorem textPathEqualsFromText : Obligations.TextPathEqualsFromText := by
  intro s codes rest hf hp hi
  have hends := exec_ends .tend ((codes.foldl State.addChar s.openText).withHost
    ⟨rest, s.host.output ++ List.replicate (codes.length + 1) (rspWord .ok 0 0)⟩)
  obtain ⟨t, ht⟩ := hends.exists_next
  rw [ht] at hends
  obtain ⟨-, hinput, -⟩ := hends.next_cases
  refine ⟨t, run_dtextCodes hf hp hi ht, hinput, fun bits hcodes hlen hroom => ?digits, fun hbad => ?malformed,
    fun bits hcodes hlen => ?tooLong⟩
  case digits =>
    obtain rfl : codes = bits.map digitCode := hcodes
    rw [foldl_addChar_digits, foldl_addDigit_openText s bits hlen] at ht
    cases ht.symm.trans (exec_tend_appends hf rfl rfl rfl hroom)
    exact ⟨rfl, rfl, hf, rfl, rfl⟩
  case malformed =>
    have htbad : (codes.foldl State.addChar s.openText).tBad = true := by
      rw [foldl_addChar_tBad, Bool.or_eq_true, List.any_eq_true]
      obtain ⟨c, hc, h0, h1⟩ := hbad
      exact .inr ⟨c, hc, by rw [digitOf_of_not_digit h0 h1]; rfl⟩
    have hdesc := foldl_addChar_field State.desc State.addChar_desc codes s.openText
    have hcount := foldl_addChar_field State.dCount State.addChar_dCount codes s.openText
    have hfault := foldl_addChar_field State.fault State.addChar_fault codes s.openText
    have hopen := foldl_addChar_field State.tAct State.addChar_tAct codes s.openText
    cases ht.symm.trans (exec_tend_of_bad (hfault.trans hf) hopen htbad)
    exact ⟨hdesc, hcount, hfault.trans hf, rfl, rfl⟩
  case tooLong =>
    obtain ⟨v, hover⟩ := foldl_addDigit_openText_over s bits hlen
    obtain rfl : codes = bits.map digitCode := hcodes
    rw [foldl_addChar_digits, hover] at ht
    cases ht.symm.trans (exec_tend_of_over hf rfl rfl rfl)
    exact ⟨rfl, rfl, rfl, rfl, rfl⟩

end Sys2Proof.Machine
end

section
/-! Proofs about the packer (41_packer.md): PACK's next state in every state of the invariant, its buffer's bits as the
table's bit strings, and the three statements of this family. -/

namespace Sys2Proof.Machine

/-! ## The size of a table (R160) -/

/-- At most 32 bits for each of at most DESC_MAX descriptors. -/
theorem State.Inv.totalWidth_le {s : State} (h : s.Inv) : totalWidth s.descriptors ≤ 32 * s.cfg.descMax := by
  have hsum : totalWidth s.descriptors ≤ s.descriptors.length * 32 := by
    simpa [totalWidth] using
      List.sum_le_card_nsmul (s.descriptors.map fun d => d.w.toNat) 32 (by simpa using h.width_le)
  have hlen : s.descriptors.length = s.dCount.toNat := by simp [State.descriptors]
  obtain ⟨_, ⟨_, _, hcount⟩, _⟩ := h
  omega

theorem State.Inv.unitsFor_le_descMax {s : State} (h : s.Inv) :
    unitsFor (totalWidth s.descriptors) ≤ 4 * s.cfg.descMax := by
  have := h.totalWidth_le
  unfold unitsFor
  omega

theorem State.Inv.unitsFor_le_bufUnits {s : State} (h : s.Inv) :
    unitsFor (totalWidth s.descriptors) ≤ s.cfg.bufUnits :=
  h.unitsFor_le_descMax.trans s.cfg.bufUnits_ok.1

/-- BLEN is 16 bits wide, so it holds the size whole. -/
theorem State.Inv.toNat_ofNat_unitsFor {s : State} (h : s.Inv) :
    (BitVec.ofNat 16 (unitsFor (totalWidth s.descriptors))).toNat = unitsFor (totalWidth s.descriptors) := by
  have := h.unitsFor_le_bufUnits
  have := s.cfg.bufUnits_ok.2
  exact Nat.mod_eq_of_lt (by omega)

/-! ## The bits of a table (R168) -/

theorem Desc.bits_length (d : Desc) : d.bits.length = d.w.toNat := bitsOf_length _ _

theorem flatMap_bits_length (ds : List Desc) : (ds.flatMap Desc.bits).length = totalWidth ds := by
  simp [List.length_flatMap, totalWidth, Desc.bits_length]

/-- The bits of a field are its descriptor's bit string, put at the field's position; the value's bits above its width
are not among them (R170). -/
theorem fieldBit_eq_bits_getD (d : Desc) (p k : Nat) :
    fieldBit d.v d.w.toNat p k = (decide (p ≤ k) && d.bits.getD (k - p) false) := by
  rw [Desc.bits, bitsOf_getD, Nat.testBit_mod_two_pow, BitVec.testBit_toNat]
  by_cases hp : p ≤ k
  · by_cases hw : k < p + d.w.toNat
    · have h1 : k - p < d.w.toNat := by omega
      have h2 : d.w.toNat - 1 - (k - p) < d.w.toNat := by omega
      simp [fieldBit_inside hp hw, hp, h1, h2]
    · have h1 : ¬ k - p < d.w.toNat := by omega
      simp [fieldBit_outside (fun h => hw h.2), h1]
  · simp [fieldBit_outside (fun h => hp h.1), hp]

/-- The bits of a table are the concatenation of its bit strings, put at the position of its first field. -/
theorem tableBit_eq_bits_getD (ds : List Desc) (p k : Nat) :
    tableBit ds p k = (decide (p ≤ k) && (ds.flatMap Desc.bits).getD (k - p) false) := by
  induction ds generalizing p with
  | nil => simp [tableBit]
  | cons d ds ih =>
    rw [tableBit, fieldBit_eq_bits_getD, ih, List.flatMap_cons]
    have hlen := d.bits_length
    by_cases hw : k < p + d.w.toNat
    · by_cases hp : p ≤ k
      · rw [List.getD_append _ _ _ _ (by omega)]
        simp [Nat.not_le.mpr hw]
      · simp [hp, Nat.not_le.mpr hw]
    · have hp : p + d.w.toNat ≤ k := Nat.not_lt.mp hw
      rw [List.getD_append_right _ _ _ _ (by omega), List.getD_eq_default d.bits _ (by omega), hlen, Nat.sub_sub]
      simp [hp, Nat.le_of_add_right_le hp]

/-- The table's bit strings are those of its widths and its values modulo `2^W`. -/
theorem flatMap_bits_eq_of_low_bits {ds ds' : List Desc}
    (h : ds'.map (fun d => (d.w, d.v.toNat % 2 ^ d.w.toNat)) = ds.map (fun d => (d.w, d.v.toNat % 2 ^ d.w.toNat))) :
    ds'.flatMap Desc.bits = ds.flatMap Desc.bits := by
  have := congrArg (List.flatMap fun wv : BitVec 6 × Nat => bitsOf wv.1.toNat wv.2) h
  rwa [List.flatMap_map, List.flatMap_map] at this

/-! ## Streams and printouts -/

@[simp] theorem Memory.streamBit_nil (k : Nat) : Memory.streamBit [] k = false := unitBit_zero _

/-- The stream determines every unit: a unit's bit `i` is the stream's bit `8 * u + (7 - i)` (00_scope.md R9). -/
theorem Memory.read_eq_of_streamBit_eq {m m' : Memory} (h : ∀ k, m.streamBit k = m'.streamBit k) (u : Nat) :
    m.read u = m'.read u := by
  apply BitVec.eq_of_getLsbD_eq
  intro i hi
  have hunit : (8 * u + (7 - i)) / 8 = u := by omega
  have hbit : 7 - (8 * u + (7 - i)) % 8 = i := by omega
  simpa only [Memory.streamBit, unitBit, hunit, hbit] using h (8 * u + (7 - i))

theorem Memory.ext_streamBit {m m' : Memory} (h : m.wf = true) (h' : m'.wf = true)
    (hk : ∀ k, m.streamBit k = m'.streamBit k) : m = m' :=
  Memory.ext h h' (Memory.read_eq_of_streamBit_eq hk)

/-- The printout of one unit (00_scope.md R10) is its eight bits of the stream (R9). -/
theorem Memory.bitsOf_read (m : Memory) (u : Nat) :
    bitsOf 8 (m.read u).toNat = (List.range 8).map (fun j => m.streamBit (8 * u + j)) := by
  refine List.map_congr_left fun j hj => ?_
  have hj8 := List.mem_range.mp hj
  have hunit : (8 * u + j) / 8 = u := by omega
  have hbit : (8 * u + j) % 8 = j := by omega
  rw [Memory.streamBit, hunit, hbit, BitVec.testBit_toNat, unitBit]

theorem Memory.printouts_eq_stream (m : Memory) (n : Nat) :
    (List.range n).flatMap (fun u => bitsOf 8 (m.read u).toNat) = (List.range (8 * n)).map m.streamBit := by
  induction n with
  | zero => rfl
  | succ n ih =>
    rw [List.range_succ, List.flatMap_append, ih, List.flatMap_singleton, Memory.bitsOf_read, Nat.mul_succ,
      List.range_add, List.map_append, List.map_map]
    rfl

/-- A list padded at its end is the list of what it reads, the padding beyond it. -/
theorem append_replicate_eq_map_getD {α : Type} (l : List α) (d : α) {n : Nat} (h : l.length ≤ n) :
    l ++ List.replicate (n - l.length) d = (List.range n).map (fun k => l.getD k d) := by
  apply List.ext_getElem
  · simp [h]
  · intro k hk hk'
    by_cases hl : k < l.length
    · simp [List.getElem_append_left, hl]
    · simp [List.getElem_append_right (Nat.not_lt.mp hl), Nat.not_lt.mp hl]

/-! ## PACK -/

/-- What PACK leaves in BUF (R161, R168): units below the size only, and in the stream the table's bit strings. -/
structure State.PacksTo (s : State) (m : Memory) : Prop where
  wf : m.wf = true
  units_lt : ∀ e ∈ m, e.1 < unitsFor (totalWidth s.descriptors)
  streamBit : ∀ k, m.streamBit k = s.tableBits.getD k false

/-- The state after PACK, its response apart: BUF is `m`, the size, the total and the final cursor are recorded, and the
table is empty (R161, R169). -/
def State.packed (s : State) (m : Memory) : State :=
  { s with
    buf := m
    bLen := BitVec.ofNat 16 (unitsFor (totalWidth s.descriptors))
    pBits := BitVec.ofNat 32 (totalWidth s.descriptors)
    pCurUnit := BitVec.ofNat 16 (totalWidth s.descriptors / 8)
    pCurOff := BitVec.ofNat 3 (totalWidth s.descriptors % 8)
    desc := []
    dCount := 0 }

@[simp] theorem State.packed_buf (s : State) (m : Memory) : (s.packed m).buf = m := rfl

@[simp] theorem State.packed_bLen (s : State) (m : Memory) :
    (s.packed m).bLen = BitVec.ofNat 16 (unitsFor (totalWidth s.descriptors)) := rfl

/-- PACK starts from an empty buffer and its writes stay below the size, so no write faults (R167). -/
theorem State.writeFields_ok (s : State) :
    ∃ m, s.PacksTo m ∧
      writeFields (unitsFor (totalWidth s.descriptors)) s.descriptors ⟨0, 0⟩ [] =
        .ok (⟨totalWidth s.descriptors / 8, totalWidth s.descriptors % 8⟩, m) := by
  obtain ⟨m, hwrite, hwf, hlt, hbits⟩ := writeFields_spec (unitsFor (totalWidth s.descriptors)) s.descriptors
    ⟨0, 0⟩ [] Memory.wf_nil (Nat.zero_lt_succ 7) (by simpa [Cursor.position] using totalWidth_le_units _) (by simp)
  refine ⟨m, ⟨hwf, hlt, fun k => ?_⟩, by simpa [Cursor.position] using hwrite⟩
  rw [hbits, tableBit_eq_bits_getD]
  simp [Cursor.position, State.tableBits]

/-- The answer of PACK in every state of the invariant that is not halted. -/
theorem State.Inv.exec_pack {s : State} (h : s.Inv) (hf : s.fault = false) :
    ∃ m, s.PacksTo m ∧ exec .pack s =
      .next ((s.packed m).reply (rspWord .ok 0 (BitVec.ofNat 32 (unitsFor (totalWidth s.descriptors))))) := by
  obtain ⟨m, hpacks, hwrite⟩ := s.writeFields_ok
  have hsize := h.toNat_ofNat_unitsFor
  obtain ⟨_, ⟨_, hdesc, hcount⟩, _, ⟨_, hbuf, hlen⟩, _⟩ := h
  have hbuf0 : s.buf.zeroBelow s.cfg.bufUnits = [] :=
    Memory.zeroBelow_eq_nil fun c hc => (hbuf c hc).trans_le hlen
  have hdesc0 : s.desc.zeroBelow s.cfg.descMax = [] :=
    DescTable.zeroBelow_eq_nil fun c hc => (hdesc c hc).1.trans_le hcount
  refine ⟨m, hpacks, (unlessFaulted_of_not_faulted hf _).trans ?_⟩
  simp only [hsize, hbuf0, hdesc0, hwrite]
  rfl

/-- The stream of a buffer that is long enough is the table's bit strings, zero-padded (R168). -/
theorem State.PacksTo.stream_eq {s : State} {m : Memory} (h : s.PacksTo m) {n : Nat} (hn : s.tableBits.length ≤ n) :
    s.tableBits ++ List.replicate (n - s.tableBits.length) false = (List.range n).map m.streamBit :=
  (append_replicate_eq_map_getD _ _ hn).trans (List.map_congr_left fun k _ => (h.streamBit k).symm)

/-! ## The three statements -/

/-- Settles O37: the stream of BUF is the table's padded bit strings (`PacksTo`), and the printouts are the stream. -/
theorem packRoundTripIdentity : Obligations.PackRoundTripIdentity := by
  intro s hinv hf
  obtain ⟨m, hpacks, hexec⟩ := hinv.exec_pack hf
  have hlen : s.tableBits.length ≤ 8 * (s.packed m).bLen.toNat := by
    rw [State.packed_bLen, hinv.toNat_ofNat_unitsFor, State.tableBits, flatMap_bits_length]
    exact totalWidth_le_units _
  have hstream := hpacks.stream_eq hlen
  refine ⟨_, hexec, hlen, fun k hk => ?_, (m.printouts_eq_stream _).trans hstream.symm⟩
  rw [State.reply_bLen] at hk
  rw [State.reply_bLen, State.reply_buf, State.packed_buf, hstream]
  simp only [List.getD_eq_getElem?_getD, List.getElem?_map, List.getElem?_range hk, Option.map_some, Option.getD_some]

/-- Settles O36: the answer of PACK (`State.Inv.exec_pack`), and R160's and R169's arithmetic. -/
theorem packSizesAndCompletes : Obligations.PackSizesAndCompletes := by
  intro s hinv hf
  obtain ⟨m, hpacks, hexec⟩ := hinv.exec_pack hf
  exact ⟨hinv.unitsFor_le_descMax, hinv.unitsFor_le_bufUnits, by omega, m, hpacks.wf, hexec⟩

/-- Settles O38: BUF and BLEN are determined by the table's bit strings, which hold the low bits only. -/
theorem packUsesLowBitsOnly : Obligations.PackUsesLowBitsOnly := by
  intro s s' t t' hinv hinv' hf hf' hlow ht ht'
  obtain ⟨m, hpacks, hexec⟩ := hinv.exec_pack hf
  obtain ⟨m', hpacks', hexec'⟩ := hinv'.exec_pack hf'
  cases ht.symm.trans hexec
  cases ht'.symm.trans hexec'
  have hbits : s'.tableBits = s.tableBits := flatMap_bits_eq_of_low_bits hlow
  have htotal : totalWidth s'.descriptors = totalWidth s.descriptors := by
    simpa only [State.tableBits, flatMap_bits_length] using congrArg List.length hbits
  refine ⟨Memory.ext_streamBit hpacks'.wf hpacks.wf fun k => ?_, ?_⟩
  · exact (hpacks'.streamBit k).trans (hbits ▸ (hpacks.streamBit k).symm)
  · rw [State.reply_bLen, State.reply_bLen, State.packed_bLen, State.packed_bLen, htotal]

end Sys2Proof.Machine
end

section
/-! Proofs about buffer access (42_buffer.md): what BUFRD, BUFWR and SETLEN answer in a state without a fault, the
three rules R191 to R193, and the run of a BUFLOAD (30_encoding.md R99). -/

namespace Sys2Proof.Machine

section Answers
variable {s : State} (hf : s.fault = false)
include hf

/-! ## The three commands -/

theorem exec_bufrd (idx : BitVec 16) :
    exec (.bufrd idx) s =
      if s.bLen.toNat ≤ idx.toNat then raiseError .errRange (idx.setWidth 32) s
      else respond .ok 0 ((s.buf.read idx.toNat).setWidth 32) s :=
  unlessFaulted_of_not_faulted hf _

theorem exec_bufwr (idx : BitVec 16) (u : Byte) :
    exec (.bufwr idx u) s =
      if s.bLen.toNat ≤ idx.toNat then raiseError .errRange (idx.setWidth 32) s
      else respond .ok 0 0 { s with buf := s.buf.write idx.toNat u } :=
  unlessFaulted_of_not_faulted hf _

theorem exec_bufwr_of_lt {idx : BitVec 16} (h : idx.toNat < s.bLen.toNat) (u : Byte) :
    exec (.bufwr idx u) s =
      .next (State.reply { s with buf := s.buf.write idx.toNat u } (rspWord .ok 0 0)) :=
  (exec_bufwr hf idx u).trans (if_neg (Nat.not_le.mpr h))

theorem exec_setlen (n : BitVec 16) :
    exec (.setlen n) s =
      if s.cfg.bufUnits < n.toNat then raiseError .errRange (n.setWidth 32) s
      else respond .ok 0 0 { s with buf := s.buf.zeroBelow s.cfg.bufUnits, bLen := n } :=
  unlessFaulted_of_not_faulted hf _

theorem exec_setlen_of_le {n : BitVec 16} (h : n.toNat ≤ s.cfg.bufUnits) :
    exec (.setlen n) s =
      .next (State.reply { s with buf := s.buf.zeroBelow s.cfg.bufUnits, bLen := n } (rspWord .ok 0 0)) :=
  (exec_setlen hf n).trans (if_neg (Nat.not_lt.mpr h))

end Answers

/-! ## The three rules -/

/-- The response `(OK, 0, 0)` of BUFWR and SETLEN is the zero word (30_encoding.md R92). -/
theorem rspWord_ok_zero : rspWord .ok 0 0 = 0 := by decide

/-- Settles O40: the words are BUFRD's row; the two answers of R191. -/
theorem bufrdRule : Obligations.BufrdRule :=
  ⟨fun w => matches_opRow_iff_decode (.bufrd 0) w, fun _ idx hf =>
    ⟨fun h => (exec_bufrd hf idx).trans (if_pos h), fun h => (exec_bufrd hf idx).trans (if_neg (Nat.not_le.mpr h))⟩⟩

/-- Settles O41: the two answers of R192, then reads after the write. -/
theorem bufwrRule : Obligations.BufwrRule := by
  refine ⟨fun w => matches_opRow_iff_decode (.bufwr 0 0) w, fun s idx u hf hwf =>
    ⟨fun h => (exec_bufwr hf idx u).trans (if_pos h), fun h => ?_⟩⟩
  refine ⟨s.buf.write idx.toNat u, ?_, ?_, fun a ha => Memory.read_write_other ha u⟩
  · rw [exec_bufwr_of_lt hf h, rspWord_ok_zero]
  · rw [Memory.read_write hwf, if_pos rfl]

/-- Settles O42: the two answers of R193, then reads after the zeroing. -/
theorem setlenRule : Obligations.SetlenRule := by
  refine ⟨fun w => matches_opRow_iff_decode (.setlen 0) w, fun s n hf =>
    ⟨fun h => (exec_setlen hf n).trans (if_pos h), fun h => ?_⟩⟩
  refine ⟨s.buf.zeroBelow s.cfg.bufUnits, ?_, fun a ha => ?_, fun a ha => ?_⟩
  · rw [exec_setlen_of_le hf h, rspWord_ok_zero]
  · rw [Memory.read_zeroBelow, if_pos ha]
  · rw [Memory.read_zeroBelow, if_neg (Nat.not_lt.mpr ha)]

/-! ## The run of a BUFLOAD -/

/-- A command of the host's stream, encoded (30_encoding.md R98), is performed when the block is idle. -/
theorem step_of_encoded {s : State} {i : Instr} {rest : List HostEvent} (hp : s.cls.pending = none)
    (hi : s.host.input = .command (encode i) :: rest) : step s = exec i (s.withInput rest) :=
  (step_of_command hp hi).trans (performWord_of_ok (decode_encode i) _)

/-- The block between two commands of a BUFLOAD: neither halted nor waiting, with the buffer `m` of length `n`, and the
host has `input` still to present. -/
structure State.LoadsInto (s : State) (m : Memory) (n : BitVec 16) (input : List HostEvent) : Prop where
  fault : s.fault = false
  pending : s.cls.pending = none
  buf : s.buf = m
  bLen : s.bLen = n
  input : s.host.input = input

section Load
variable {s : State} {m : Memory} {n : BitVec 16} {rest : List HostEvent}

theorem step_setlen_of_le (hf : s.fault = false) (hp : s.cls.pending = none) (hn : n.toNat ≤ s.cfg.bufUnits)
    (hi : s.host.input = .command (encode (.setlen n)) :: rest) :
    ∃ t, step s = .next t ∧ t.LoadsInto (s.buf.zeroBelow s.cfg.bufUnits) n rest :=
  ⟨_, (step_of_encoded hp hi).trans (exec_setlen_of_le (s := s.withInput rest) hf hn), hf, hp, rfl, rfl, rfl⟩

theorem step_bufwr_of_lt {j : Nat} {b : Byte} (hj : j < n.toNat)
    (h : s.LoadsInto m n (.command (encode (.bufwr (BitVec.ofNat 16 j) b)) :: rest)) :
    ∃ t, step s = .next t ∧ t.LoadsInto (m.write j b) n rest := by
  obtain ⟨hf, hp, rfl, rfl, hi⟩ := h
  have hidx : (BitVec.ofNat 16 j).toNat = j := Nat.mod_eq_of_lt (hj.trans s.bLen.isLt)
  have hexec := exec_bufwr_of_lt (s := s.withInput rest) hf (hidx.trans_lt hj) b
  rw [hidx] at hexec
  exact ⟨_, (step_of_encoded hp hi).trans hexec, hf, hp, rfl, rfl, rfl⟩

/-- BUFWR of each unit from index `j` up, all of them below BLEN: unit `j + i` is the list's unit `i`, and every other
unit is as before. -/
theorem run_bufwrFrom (bs : List Byte) {j : Nat} (hwf : m.wf = true) (hlen : j + bs.length ≤ n.toNat)
    (h : s.LoadsInto m n (commandsOf (bufwrFrom j bs) ++ rest)) :
    ∃ t m', core.run bs.length s = .next t ∧ t.LoadsInto m' n rest
      ∧ ∀ k, m'.read k = if k < j then m.read k else bs.getD (k - j) (m.read k) := by
  induction bs generalizing j s m with
  | nil => exact ⟨s, m, rfl, h, fun k => by simp⟩
  | cons b bs ih =>
    rw [List.length_cons] at hlen
    obtain ⟨u, hstep, hu⟩ := step_bufwr_of_lt (by omega) h
    obtain ⟨t, m', hrun, ht, hread⟩ := ih (Memory.wf_write hwf j b) (by omega) hu
    refine ⟨t, m', (run_succ_of_step hstep _).trans hrun, ht, fun k => ?_⟩
    rw [hread, Memory.read_write hwf]
    obtain hlt | rfl | hgt := Nat.lt_trichotomy k j
    · simp [hlt, hlt.ne, Nat.lt_succ_of_lt hlt]
    · simp
    · have hsucc : k - j = k - (j + 1) + 1 := by omega
      simp [hsucc, hgt.ne', hgt.not_gt, Nat.not_lt.mpr hgt]

end Load

/-- Settles O43: SETLEN leaves the empty memory, by the invariant, and the run of the BUFWRs fills it. -/
theorem bufloadLoadsTheBuffer : Obligations.BufloadLoadsTheBuffer := by
  intro s bs rest hinv hf hp hlen hi
  obtain ⟨_, _, _, ⟨_, hbuf, hbLen⟩, _⟩ := hinv
  have hn : (BitVec.ofNat 16 bs.length).toNat = bs.length :=
    Nat.mod_eq_of_lt (by have := s.cfg.bufUnits_ok.2; omega)
  have hempty : s.buf.zeroBelow s.cfg.bufUnits = [] :=
    Memory.zeroBelow_eq_nil fun c hc => (hbuf c hc).trans_le hbLen
  obtain ⟨u, hstep, hu⟩ := step_setlen_of_le hf hp (hn.trans_le hlen) hi
  rw [hempty] at hu
  obtain ⟨t, m, hrun, ⟨_, _, rfl, htlen, hinput⟩, hread⟩ :=
    run_bufwrFrom bs Memory.wf_nil (by rw [hn, Nat.zero_add]) hu
  exact ⟨t, (run_succ_of_step hstep _).trans hrun, by rw [htlen, hn], fun k => by simp [hread], hinput⟩

end Sys2Proof.Machine
end

section
/-! Proofs about the unpacker (43_unpacker.md): what UOPEN and UNEXT answer in a state without a fault; a UNEXT that
reads bits and gets no match, as one statement about the bits read (R213, R214); the four statements of this family. -/

namespace Sys2Proof.Machine

/-- The response of END (43_unpacker.md R213, R219). -/
theorem rspWord_endOfSeq : rspWord .endOfSeq 0 0 = 0x0100000000000000 := by decide

section Answers
variable {s : State} (hf : s.fault = false)
include hf

/-! ## UOPEN and UNEXT -/

theorem exec_uopen :
    exec .uopen s = .next (State.reply
      { s with
        uBuf := s.uBuf.copyFrom s.bLen.toNat s.buf
        uLen := s.bLen, uCurUnit := 0, uCurOff := 0, patLen := 0, patVal := 0
        uState := .scanning, uDiscard := 0, uCount := 0 }
      (rspWord .ok 0 (s.bLen.setWidth 32))) :=
  unlessFaulted_of_not_faulted hf _

theorem exec_unext_of_exhausted (hu : s.uState = .exhausted) :
    exec .unext s = .next (s.reply (rspWord .endOfSeq 0 0)) :=
  (unlessFaulted_of_not_faulted hf _).trans (by rw [hu, respond_eq])

theorem exec_unext_of_scanning (hu : s.uState = .scanning) :
    exec .unext s = .next (unextLoop s.cls.answers s) :=
  (unlessFaulted_of_not_faulted hf _).trans (by rw [hu])

end Answers

/-- Settles O44: the one word of UOPEN, and reads after the copy. -/
theorem uopenRule : Obligations.UopenRule := by
  refine ⟨fun w => decode_eq_ok_iff.trans eq_comm, fun s hf hwf =>
    ⟨s.uBuf.copyFrom s.bLen.toNat s.buf, fun a ha => ?_, fun a ha => ?_, exec_uopen hf⟩⟩
  · rw [Memory.read_copyFrom hwf, if_pos ha]
  · rw [Memory.read_copyFrom hwf, if_neg (Nat.not_lt.mpr ha)]

/-! ## What every answer of a command has -/

/-- Every next state that a command answers has `P`. -/
def Leaves (P : State → Prop) (o : Host.Outcome State Fault Refusal) : Prop := ∀ t, o = .next t → P t

section Rules
variable {P : State → Prop} {s : State} {o : Host.Outcome State Fault Refusal}

theorem Leaves.next (h : P s) : Leaves P (.next s) := by
  rintro t ⟨⟩
  exact h

theorem Leaves.unlessFaulted (hrefused : P (s.reply (rspWord .faulted s.faultCode 0))) (h : Leaves P o) :
    Leaves P (unlessFaulted s o) := fun t ht => by
  obtain ⟨_, rfl⟩ | ⟨_, ho⟩ := unlessFaulted_next ht
  · exact hrefused
  · exact h t ho

theorem Leaves.ite {c : Prop} [Decidable c] {o' : Host.Outcome State Fault Refusal} (h : Leaves P o)
    (h' : Leaves P o') : Leaves P (if c then o else o') := by
  split
  · exact h
  · exact h'

end Rules

/-! ## Exhausted (R219) -/

section Exhausted
variable {s : State} (hu : s.uState = .exhausted)
include hu

theorem performIllegal_leaves_exhausted : Leaves (·.uState = .exhausted) (performIllegal s) :=
  .unlessFaulted hu (.next hu)

theorem execPack_leaves_exhausted : Leaves (·.uState = .exhausted) (execPack s) := by
  refine .unlessFaulted hu ?_
  dsimp only
  split
  case h_1 => exact .next hu
  case h_2 => exact .next hu

theorem execRdreg_leaves_exhausted (r : BitVec 8) : Leaves (·.uState = .exhausted) (execRdreg r s) := by
  unfold execRdreg
  split
  case h_1 => exact .next hu
  case h_2 => exact .unlessFaulted hu (.next hu)

theorem execUnext_leaves_exhausted : Leaves (·.uState = .exhausted) (execUnext s) := by
  refine .unlessFaulted hu ?_
  rw [hu]
  exact .next hu

/-- UOPEN apart, no command makes an Exhausted unpacker Scanning. -/
theorem exec_leaves_exhausted {i : Instr} (hi : i ≠ .uopen) : Leaves (·.uState = .exhausted) (exec i s) := by
  cases i with
  | nop => exact .unlessFaulted hu (.next hu)
  | clr => exact .unlessFaulted hu (.next s.cleared_uState)
  | rdreg r => exact execRdreg_leaves_exhausted hu r
  | dpush w v => exact .unlessFaulted hu (.ite (.next hu) (.ite (.next hu) (.next hu)))
  | tbegin => exact .unlessFaulted hu (.next hu)
  | tchar c => exact .unlessFaulted hu (.ite (.next ((s.addChar_uState c).trans hu)) (.next hu))
  | tend =>
    exact .unlessFaulted hu
      (.ite (.next hu) (.ite (.next hu) (.ite (.next hu) (.ite (.next hu) (.next hu)))))
  | drd idx => exact .unlessFaulted hu (.ite (.next hu) (.next hu))
  | pack => exact execPack_leaves_exhausted hu
  | bufrd idx => exact .unlessFaulted hu (.ite (.next hu) (.next hu))
  | bufwr idx u => exact .unlessFaulted hu (.ite (.next hu) (.next hu))
  | setlen n => exact .unlessFaulted hu (.ite (.next hu) (.next hu))
  | uopen => exact absurd rfl hi
  | unext => exact execUnext_leaves_exhausted hu

end Exhausted

/-- A step that leaves Exhausted performs UOPEN: by the cases of `step_next`. An Exhausted unpacker has no UNEXT that
waits, by the invariant. -/
theorem step_of_exhausted_to_scanning {s t : State} (hinv : s.Inv) (hu : s.uState = .exhausted)
    (h : step s = .next t) (ht : t.uState = .scanning) :
    ∃ w rest, s.host.input = .command w :: rest ∧ decode w = .ok .uopen := by
  have hleft : t.uState ≠ .exhausted := by simp [ht]
  obtain ⟨_, _, rfl⟩ | ⟨rest, _, rfl⟩ | ⟨w, rest, i, _, hi, hd, hexec⟩ | ⟨w, rest, e, _, _, _, hexec⟩
    | ⟨q, hq, _, _⟩ := step_next h
  · exact absurd hu hleft
  · exact absurd (s.withInput rest).afterReset_uState hleft
  · by_cases hi' : i = .uopen
    · exact ⟨w, rest, hi, hi' ▸ hd⟩
    · exact absurd (exec_leaves_exhausted (s := s.withInput rest) hu hi' t hexec) hleft
  · exact absurd (performIllegal_leaves_exhausted (s := s.withInput rest) hu t hexec) hleft
  · obtain ⟨_, _, _, _, _, _, _, hport⟩ := hinv
    obtain ⟨_, _, hscan, _⟩ := hport q hq
    simp [hu] at hscan

/-- Settles O45: UNEXT's answer once Exhausted, the inversion of a step that leaves Exhausted, and the reset value of
USTATE that CLR and RST give. -/
theorem exhaustedStaysExhausted : Obligations.ExhaustedStaysExhausted := by
  refine ⟨fun s hf hu => ?_, fun s t => step_of_exhausted_to_scanning, fun s t hf h => ?_, fun s t rest hi h => ?_⟩
  · rw [exec_unext_of_exhausted hf hu, rspWord_endOfSeq]
  · rw [exec_clr_of_not_faulted hf] at h
    cases h
    rfl
  · rw [step_of_reset hi] at h
    cases h
    rfl

/-! ## What is left of the stream -/

theorem State.position_eq (s : State) : s.decodeCursor.position = 8 * s.uCurUnit.toNat + s.uCurOff.toNat := rfl

theorem State.restOfStream_length (s : State) :
    s.restOfStream.length = 8 * s.uLen.toNat - s.decodeCursor.position := by
  simp [State.restOfStream]

/-- The bound of R221, which keeps `PAT_LEN` from wrapping. -/
theorem State.restOfStream_length_lt (s : State) : s.restOfStream.length < 2 ^ 20 := by
  have := s.restOfStream_length
  have := s.uLen.isLt
  omega

theorem State.getElem_restOfStream (s : State) {n : Nat} (h : n < s.restOfStream.length) :
    s.restOfStream[n] = s.uBuf.streamBit (s.decodeCursor.position + n) := by
  simp [State.restOfStream]

/-- The cursor stands in the snapshot or right behind it (R31). -/
theorem State.Inv.position_le {s : State} (h : s.Inv) : s.decodeCursor.position ≤ 8 * s.uLen.toNat := by
  obtain ⟨_, _, _, _, _, ⟨_, _, _, hle, hend, _⟩, _⟩ := h
  have := s.uCurOff.isLt
  rw [State.position_eq]
  by_cases he : s.uCurUnit = s.uLen
  · simp [he, hend he]
  · have : s.uCurUnit.toNat ≠ s.uLen.toNat := fun hh => he (BitVec.eq_of_toNat_eq hh)
    omega

/-- With no query pending, the pattern is empty (R210). -/
theorem State.Inv.empty_pattern {s : State} (h : s.Inv) (hp : s.cls.pending = none) :
    s.patLen = 0 ∧ s.patVal = 0 := by
  obtain ⟨_, _, _, _, _, ⟨_, _, _, _, _, hval, _⟩, hport, _⟩ := h
  have hlen := hport hp
  rw [hlen] at hval
  exact ⟨hlen, Nat.lt_one_iff.mp hval⟩

/-! ## The end of the stream (R215) -/

theorem unextLoop_of_end {s : State} (h : s.uCurUnit = s.uLen) (as : List ClsAnswer) :
    unextLoop as s = s.endSession := by
  cases as <;> simp [unextLoop, h]

theorem endSession_of_empty_pattern {s : State} (hlen : s.patLen = 0) (hval : s.patVal = 0) (hd : s.uDiscard = 0) :
    s.endSession = State.reply { s with uState := .exhausted } (rspWord .endOfSeq 0 0) := by
  simp only [State.endSession, hlen, hval, hd]

/-- Settles O46: the loop ends at once, and the pattern and UDISCARD are 0 by the invariant. -/
theorem unextEndsWithNoBitLeft : Obligations.UnextEndsWithNoBitLeft := by
  intro s hinv hf hp hu hend
  obtain ⟨hlen, hval⟩ := hinv.empty_pattern hp
  have hd : s.uDiscard = 0 := by
    obtain ⟨_, _, _, _, _, ⟨_, _, _, _, _, _, _, hscan, _⟩, _⟩ := hinv
    exact hscan hu
  refine ⟨?_, hd, hlen⟩
  rw [exec_unext_of_scanning hf hu, unextLoop_of_end hend, endSession_of_empty_pattern hlen hval hd, rspWord_endOfSeq]

/-! ## A UNEXT between two bits -/

/-- The queries of the first `n` bits of what is left, one for each (R214). -/
def State.firstQueries (s : State) (n : Nat) : List ClsQuery :=
  (List.range n).map (fun k => ⟨BitVec.ofNat 20 (k + 1), bitsVal (s.restOfStream.take (k + 1))⟩)

theorem State.firstQueries_succ (s : State) (n : Nat) :
    s.firstQueries (n + 1) =
      s.firstQueries n ++ [⟨BitVec.ofNat 20 (n + 1), bitsVal (s.restOfStream.take (n + 1))⟩] := by
  simp [State.firstQueries, List.range_succ]

/-- `t` is where a UNEXT that began in `s` stands after `n` bits: they are the pattern, each of them
was queried, and the classifier has `as` still to answer. Nothing else changed (R214). -/
structure State.HasRead (s : State) (n : Nat) (as : List ClsAnswer) (t : State) : Prop where
  rest_same : s = { t with
    patLen := s.patLen, patVal := s.patVal, uCurUnit := s.uCurUnit, uCurOff := s.uCurOff, cls := s.cls }
  position : t.decodeCursor.position = s.decodeCursor.position + n
  patLen : t.patLen = BitVec.ofNat 20 n
  patVal : t.patVal = bitsVal (s.restOfStream.take n)
  cls : t.cls = ⟨as, s.cls.queries ++ s.firstQueries n, none⟩

/-- Where UNEXT begins, no bit is read. -/
theorem State.Inv.hasRead_zero {s : State} (h : s.Inv) (hp : s.cls.pending = none) : s.HasRead 0 s.cls.answers s := by
  obtain ⟨hlen, hval⟩ := h.empty_pattern hp
  refine ⟨rfl, rfl, hlen, hval, ?_⟩
  simp [State.firstQueries, ← hp]

section HasRead
variable {s t : State} {n : Nat} {as : List ClsAnswer}

theorem State.HasRead.uLen_eq (h : s.HasRead n as t) : t.uLen = s.uLen := (congrArg State.uLen h.rest_same).symm

theorem State.HasRead.uBuf_eq (h : s.HasRead n as t) : t.uBuf = s.uBuf := (congrArg State.uBuf h.rest_same).symm

theorem State.HasRead.uCount_eq (h : s.HasRead n as t) : t.uCount = s.uCount :=
  (congrArg State.uCount h.rest_same).symm

theorem State.HasRead.host_eq (h : s.HasRead n as t) : t.host = s.host := (congrArg State.host h.rest_same).symm

/-- While bits are left, the cursor is in the snapshot. -/
theorem State.HasRead.unit_lt (h : s.HasRead n as t) (hn : n < s.restOfStream.length) :
    t.uCurUnit.toNat < t.uLen.toNat := by
  have := s.restOfStream_length
  have := h.position
  have := t.position_eq
  rw [h.uLen_eq]
  omega

/-- The pattern with the next bit is the first `n + 1` bits of what was left. -/
theorem State.HasRead.next_patVal (h : s.HasRead n as t) (hn : n < s.restOfStream.length) :
    2 * t.patVal + t.nextBit.toNat = bitsVal (s.restOfStream.take (n + 1)) := by
  have hbit : t.nextBit = s.restOfStream[n] := by
    rw [nextBit_eq_streamBit, ← State.position_eq, h.uBuf_eq, h.position, State.getElem_restOfStream]
  rw [List.take_succ_eq_append_getElem hn, bitsVal_append_one, h.patVal, hbit]

theorem State.HasRead.next_patLen (h : s.HasRead n as t) : t.patLen + 1 = BitVec.ofNat 20 (n + 1) := by
  rw [h.patLen, BitVec.ofNat_add]
  rfl

/-- One more bit, with the answer to its query taken off the list. -/
theorem State.HasRead.succ {a : ClsAnswer} (h : s.HasRead n (a :: as) t) (hn : n < s.restOfStream.length) :
    s.HasRead (n + 1) as ((t.takeBit).answered as) where
  rest_same := h.rest_same
  position := by
    have hpos := takeBit_position (h.unit_lt hn)
    have := h.position
    have := t.position_eq
    rw [State.position_eq, State.answered_uCurUnit, State.answered_uCurOff]
    omega
  patLen := h.next_patLen
  patVal := h.next_patVal hn
  cls := by
    simp only [State.answered_cls, State.takeBit_cls, h.next_patLen, h.next_patVal hn, h.cls, s.firstQueries_succ,
      List.append_assoc]

/-- Non-matching answers, one for each bit that is left or fewer: UNEXT reads a bit for each and goes on. -/
theorem State.HasRead.unextLoop_misses {misses rest : List ClsAnswer} (hm : ∀ x ∈ misses, x.isMatch = false)
    (h : s.HasRead n (misses ++ rest) t) (hn : n + misses.length ≤ s.restOfStream.length) :
    ∃ u, s.HasRead (n + misses.length) rest u ∧ unextLoop (misses ++ rest) t = unextLoop rest u := by
  induction misses generalizing n t with
  | nil => exact ⟨t, h, rfl⟩
  | cons a misses ih =>
    obtain ⟨ha, hmisses⟩ := List.forall_mem_cons.mp hm
    rw [List.length_cons] at hn
    have hlt : n < s.restOfStream.length := by omega
    have hne : t.uCurUnit ≠ t.uLen := fun he => absurd (h.unit_lt hlt) (by simp [he])
    obtain ⟨u, hu, hloop⟩ := ih hmisses (h.succ hlt) (by omega)
    refine ⟨u, by rwa [List.length_cons, Nat.add_comm misses.length, ← Nat.add_assoc], ?_⟩
    simpa [unextLoop, hne, ha] using hloop

/-- After the last bit the cursor is at the end (R216). -/
theorem State.HasRead.cursor_at_end (h : s.HasRead s.restOfStream.length as t)
    (hs : s.decodeCursor.position ≤ 8 * s.uLen.toNat) : t.uCurUnit = s.uLen ∧ t.uCurOff = 0 := by
  have hpos : 8 * t.uCurUnit.toNat + t.uCurOff.toNat = 8 * s.uLen.toNat := by
    rw [← State.position_eq, h.position, s.restOfStream_length, Nat.add_sub_cancel' hs]
  have := t.uCurOff.isLt
  constructor <;> apply BitVec.eq_of_toNat_eq
  · omega
  · simp only [BitVec.ofNat_eq_ofNat, BitVec.toNat_ofNat]
    omega

end HasRead

/-- Settles O48: the misses read all the bits that are left, and at the end the session ends (R216, R218). -/
theorem unextExhaustsTheStream : Obligations.UnextExhaustsTheStream := by
  intro s misses rest hinv hf hp hu has hm hlen
  have hstart := hinv.hasRead_zero hp
  rw [has] at hstart
  obtain ⟨u, hread, hloop⟩ := hstart.unextLoop_misses hm (by omega)
  rw [Nat.zero_add] at hread
  obtain ⟨hunit, hoff⟩ := (hlen ▸ hread).cursor_at_end hinv.position_le
  have hexec : exec .unext s = .next u.endSession := by
    rw [exec_unext_of_scanning hf hu, has, hloop, unextLoop_of_end (hunit.trans hread.uLen_eq.symm)]
  refine ⟨u.endSession, hexec, ?_, rfl, hunit, hoff, rfl, rfl, hread.uCount_eq, ?_, ?_, ?_, ?_⟩
  · rw [State.endSession_host, hread.host_eq, rspWord_endOfSeq]
  · rw [State.endSession_uDiscard, hread.patLen]
    exact Nat.mod_eq_of_lt (hlen ▸ s.restOfStream_length_lt)
  all_goals rw [State.endSession_cls, hread.cls]
  rfl

end Sys2Proof.Machine
end

section
/-! Proofs about the control commands (44_control.md): the rules R250 to R252 of NOP, CLR and RDREG, with the register
map of 10_state.md R35 as a table. -/

namespace Sys2Proof.Machine

theorem exec_nop_of_not_faulted {s : State} (hf : s.fault = false) :
    exec .nop s = .next (s.reply (rspWord .ok 0 0)) :=
  unlessFaulted_of_not_faulted hf _

/-- Settles O25: the word of NOP is the zero word, and its response too. -/
theorem nopRule : Obligations.NopRule := by
  refine ⟨decode_encode .nop, fun w h => (encode_of_decode h).symm, fun s => ⟨fun hf => ?_, fun hf => ?_⟩⟩
  · rw [exec_nop_of_not_faulted hf, rspWord_ok_zero]
  · exact exec_of_faulted hf nofun

/-- Settles O26: CLR answers the cleared state, which has the reset values of R37. -/
theorem clrRule : Obligations.ClrRule := by
  refine ⟨fun w => decode_eq_ok_iff.trans eq_comm, fun s => ⟨fun hf => ?_, fun hf => ?_⟩⟩
  · refine ⟨_, exec_clr_of_not_faulted hf, s.cleared_hasResetValues, rfl, rfl, ?_⟩
    rw [rspWord_ok_zero]
    rfl
  · exact exec_of_faulted hf nofun

/-! ## RDREG -/

/-- The register map of 10_state.md R35: each number with its register. -/
def registerMap : List (BitVec 8 × Reg) := [
  (0x00, .status), (0x01, .lastErr), (0x02, .faultCode), (0x03, .dCount), (0x04, .bLen), (0x05, .pBits),
  (0x06, .pCurUnit), (0x07, .pCurOff), (0x08, .tLen), (0x09, .tVal), (0x0A, .uLen), (0x0B, .uCurUnit),
  (0x0C, .uCurOff), (0x0D, .patLen), (0x0E, .patLo), (0x0F, .uDiscard), (0x10, .uCount), (0x11, .cfgDescMax),
  (0x12, .cfgBufUnits), (0x13, .cfgTW) ]

theorem regOfNumber_of_mem_registerMap : ∀ p ∈ registerMap, regOfNumber p.1 = some p.2 := by decide

/-- PAT_LO is the low 32 bits of the pattern (R35). -/
theorem readReg_patLo (s : State) : s.readReg .patLo = BitVec.ofNat 32 (s.patVal % 2 ^ 32) :=
  BitVec.eq_of_toNat_eq (by simp [State.readReg])

theorem exec_rdreg_of_reserved {s : State} (hf : s.fault = false) {r : BitVec 8} (hr : 0x13 < r.toNat) :
    exec (.rdreg r) s = .next (State.reply { s with lastErr := 0x10 } (rspWord .errIllegal 0 0)) := by
  show execRdreg r s = _
  simp only [execRdreg, regOfNumber_eq_none_of_lt hr]
  exact unlessFaulted_of_not_faulted hf _

/-- Settles O27: the words are RDREG's row, the twenty values are those that the register map reads, and the numbers
above 0x13 are reserved. -/
theorem rdregRule : Obligations.RdregRule := by
  refine ⟨fun w => matches_opRow_iff_decode (.rdreg 0) w, fun s e he => ?defined, fun s r hr =>
    ⟨fun hf => exec_rdreg_of_reserved hf hr, fun hf => exec_of_faulted hf fun r' h => Instr.rdreg.inj h ▸ hr⟩⟩
  case defined =>
    rw [← readReg_patLo s] at he
    obtain ⟨p, hp, rfl⟩ : ∃ p ∈ registerMap, (p.1, s.readReg p.2) = e := List.mem_map.mp he
    exact exec_rdreg_defined (regOfNumber_of_mem_registerMap p hp) s

end Sys2Proof.Machine
end

section
/-! Proofs about the halted block (60_exceptions.md): what a word answers while FAULT = 1, what keeps FAULT and
FAULTCODE, and the rules R274 and R277. -/

namespace Sys2Proof.Machine

/-! ## Words and commands while faulted -/

/-- R274 for the words that are refused: the clause of `performRule` that comes before decoding. -/
theorem performWord_of_faulted {s : State} (hf : s.fault = true) {w : CmdWord}
    (hw : ∀ r, decode w = .ok (.rdreg r) → 0x13 < r.toNat) :
    performWord w s = .next (s.reply (rspWord .faulted s.faultCode 0)) := by
  obtain ⟨_, hperform⟩ := performRule
  exact (hperform s w).1 ⟨hf, hw⟩

/-- While FAULT = 1 a command, performed or refused, does nothing but respond: RDREG of a defined number reads, and all
else is refused. -/
theorem exec_only_replies_of_faulted {s : State} (hf : s.fault = true) (i : Instr) :
    ∃ rsp, exec i s = .next (s.reply rsp) := by
  cases i with
  | rdreg r =>
    cases hr : regOfNumber r with
    | some reg => exact ⟨_, exec_rdreg_defined hr s⟩
    | none =>
      refine ⟨rspWord .faulted s.faultCode 0, ?_⟩
      show execRdreg r s = _
      simp only [execRdreg, hr]
      exact unlessFaulted_of_faulted hf _
  | _ => exact ⟨_, exec_of_faulted hf nofun⟩

/-! ## FAULT and FAULTCODE through a step -/

/-- No ending of UNEXT's loop writes FAULT or FAULTCODE (43_unpacker.md R213-R218). -/
theorem unextLoop_keeps_fault (as : List ClsAnswer) (s : State) :
    (unextLoop as s).fault = s.fault ∧ (unextLoop as s).faultCode = s.faultCode := by
  refine unextLoop_induction (P := fun v => v.fault = s.fault ∧ v.faultCode = s.faultCode)
    (R := fun v => v.fault = s.fault ∧ v.faultCode = s.faultCode) ?goes_on ?ends ?emits ?waits as s ⟨rfl, rfl⟩
  case goes_on => exact fun _ _ hv _ => hv
  case ends => exact fun _ hv _ => hv
  case emits => exact fun _ _ _ hv _ => hv
  case waits => exact fun _ hv _ => hv

theorem resumeUnext_keeps_fault (s : State) :
    (resumeUnext s).fault = s.fault ∧ (resumeUnext s).faultCode = s.faultCode := by
  obtain ⟨_, h⟩ | ⟨a, rest, _, _, h⟩ | ⟨a, rest, _, _, h⟩ := resumeUnext_cases s <;> rw [h]
  · exact ⟨rfl, rfl⟩
  · exact ⟨rfl, rfl⟩
  · exact unextLoop_keeps_fault rest (s.answered rest)

/-- A faulted block keeps FAULT and FAULTCODE in every step but RST: idle, a command, an illegal word, or a wait. -/
theorem step_keeps_fault_of_faulted {s t : State} (hf : s.fault = true) (hi : ∀ rest, s.host.input ≠ .reset :: rest)
    (h : step s = .next t) : t.fault = s.fault ∧ t.faultCode = s.faultCode := by
  obtain ⟨_, _, rfl⟩ | ⟨rest, hreset, _⟩ | ⟨_, rest, i, _, _, _, hexec⟩ | ⟨_, rest, _, _, _, _, hillegal⟩
    | ⟨_, _, _, rfl⟩ := step_next h
  · exact ⟨rfl, rfl⟩
  · exact absurd hreset (hi rest)
  · obtain ⟨rsp, hreply⟩ := exec_only_replies_of_faulted (s := s.withInput rest) hf i
    obtain rfl := Host.Outcome.next.inj (hreply.symm.trans hexec)
    exact ⟨rfl, rfl⟩
  · obtain rfl := Host.Outcome.next.inj ((unlessFaulted_of_faulted (s := s.withInput rest) hf _).symm.trans hillegal)
    exact ⟨rfl, rfl⟩
  · exact resumeUnext_keeps_fault s

/-! ## The rules R274 and R277 -/

/-- Settles O12: RDREG of a defined number reads in every state, every other word is refused, and a step but RST keeps
FAULT. -/
theorem faultedRefusesAllButRdreg : Obligations.FaultedRefusesAllButRdreg := by
  refine fun s hf => ⟨fun w r reg hd hr => ?performed, fun w => performWord_of_faulted hf, fun t hi h => ?stays⟩
  case performed => exact (performWord_of_ok hd s).trans (exec_rdreg_defined hr s)
  case stays =>
    obtain ⟨hfault, _⟩ := step_keeps_fault_of_faulted hf hi h
    exact hfault.trans hf

/-- Settles O13: CLR is one of the refused commands, a step but RST keeps FAULT and FAULTCODE, and RST is taken
whatever is in progress and gives the reset values. -/
theorem faultLastsUntilReset : Obligations.FaultLastsUntilReset := by
  refine fun s hf => ⟨exec_of_faulted hf nofun, fun t hi h => ?stays, fun rest hi => ?restored⟩
  case stays =>
    obtain ⟨hfault, hcode⟩ := step_keeps_fault_of_faulted hf hi h
    exact ⟨hfault.trans hf, hcode⟩
  case restored => exact ⟨_, step_of_reset hi, rfl, rfl, State.afterReset_hasResetValues _⟩

end Sys2Proof.Machine
end

section
/-! Proofs about reset and hazards (70_reset_and_hazards.md): RST in any state (R300), and a UNEXT whose classifier is
silent (R305). -/

namespace Sys2Proof.Machine

/-! ## RST -/

/-- Settles O9: RST is taken whatever is in progress (`step_of_reset`), and as it withdraws the pending query, the block
is idle for the next command. -/
theorem resetInputRestoresResetState : Obligations.ResetInputRestoresResetState := by
  refine fun s rest hi => ⟨(s.withInput rest).afterReset, step_of_reset hi, State.afterReset_hasResetValues _, rfl, rfl,
    rfl, rfl, fun w rest' i hw hd => ?nextCommand⟩
  case nextCommand =>
    have hidle : (s.withInput rest).afterReset.cls.pending = none := rfl
    exact (step_of_command hidle hw).trans (performWord_of_ok hd _)

/-! ## A silent classifier -/

theorem resumeUnext_of_silent {s : State} (ha : s.cls.answers = []) : resumeUnext s = s := by
  simp only [resumeUnext, ha]

/-- A UNEXT whose classifier is silent steps to itself (R305). -/
theorem step_of_silent {s : State} (hp : s.cls.pending ≠ none) (ha : s.cls.answers = [])
    (hi : ∀ rest, s.host.input ≠ .reset :: rest) : step s = .next s := by
  rw [step_of_waiting hp hi, resumeUnext_of_silent ha]

theorem run_of_step_self {s : State} (h : step s = .next s) (n : Nat) : core.run n s = .next s := by
  induction n with
  | zero => rfl
  | succ n ih => exact (run_succ_of_step h n).trans ih

/-- Settles O50: the waiting state is a fixed point of the step, so of any number of steps; RST ends the wait as it ends
everything else (R300). -/
theorem silentClassifierHangsUntilReset : Obligations.SilentClassifierHangsUntilReset := by
  refine ⟨fun s n hp ha hi => ?hangs, fun s rest _ hi => ?ends⟩
  case hangs => exact run_of_step_self (step_of_silent hp ha hi) n
  case ends =>
    obtain ⟨t, hstep, hvalues, hfault, hcode, hpending, houtput, _⟩ := resetInputRestoresResetState s rest hi
    exact ⟨t, hstep, hpending, houtput, hvalues, hfault, hcode⟩

end Sys2Proof.Machine
end

section
/-! Proofs about decoding: one word per command and one command per word (30_encoding.md R91, R94), the words written
out from the spec, and the undefined opcodes (R95). -/

namespace Sys2Proof

/-- Settles O2: by the word of each command (`decode_encode`). -/
theorem decodeEncodeRoundTrip : Obligations.DecodeEncodeRoundTrip := decode_encode

/-- Settles O3: by the opcode of the word (`encode_of_decode`). -/
theorem encodeDecodeRoundTrip : Obligations.EncodeDecodeRoundTrip := fun _ _ => encode_of_decode

/-- Settles O1: the decoder runs on each of the words. -/
theorem specWordsDecode : Obligations.SpecWordsDecode := by
  unfold Obligations.SpecWordsDecode
  decide

theorem needZero_ne_undefinedOpcode (z : Bool) (i : Instr) : needZero z i ≠ .error .undefinedOpcode := by
  cases z <;> simp [needZero]

/-- The fourteen values of OP in the map (R93). -/
def definedOpcodes : List (BitVec 8) :=
  [0x00, 0x01, 0x02, 0x10, 0x11, 0x12, 0x13, 0x14, 0x20, 0x30, 0x31, 0x32, 0x40, 0x41]

/-- By the branches of the decoder: those of the fourteen opcodes only look at the reserved-zero fields. -/
theorem decode_undefinedOpcode_iff (w : CmdWord) :
    decode w = .error .undefinedOpcode ↔ fieldOp w ∉ definedOpcodes := by
  unfold decode
  dsimp only
  split
  case h_15 =>
    refine iff_of_true rfl fun hmem => ?_
    have hnum := List.mem_map_of_mem (f := BitVec.toNat) hmem
    simp only [definedOpcodes, List.map_cons, List.map_nil, List.mem_cons, List.not_mem_nil, or_false,
      BitVec.ofNat_eq_ofNat, BitVec.toNat_ofNat] at hnum
    simp only [imp_false] at *
    omega
  all_goals
    next hop =>
    have hdefined : fieldOp w ∈ definedOpcodes := by
      rw [← BitVec.setWidth_eq (fieldOp w), ← BitVec.ofNat_toNat, hop]
      decide
    exact iff_of_false (needZero_ne_undefinedOpcode _ _) (not_not_intro hdefined)

/-- A number of 8 bits is a defined opcode exactly when it is one of the fourteen numbers. -/
theorem ofNat_mem_definedOpcodes_iff (n : Nat) :
    n < 256 ∧ BitVec.ofNat 8 n ∈ definedOpcodes ↔ n ∈ definedOpcodes.map BitVec.toNat := by
  rw [List.mem_map]
  constructor
  · rintro ⟨hn, hmem⟩
    exact ⟨_, hmem, Nat.mod_eq_of_lt hn⟩
  · rintro ⟨op, hmem, rfl⟩
    refine ⟨op.isLt, ?_⟩
    rwa [BitVec.ofNat_toNat, BitVec.setWidth_eq]

/-- The fourteen are distinct, so they are fourteen of the 256 values. -/
theorem length_filter_defined :
    ((List.range 256).filter fun n => BitVec.ofNat 8 n ∈ definedOpcodes).length = 14 := by
  have hperm : ((List.range 256).filter fun n => BitVec.ofNat 8 n ∈ definedOpcodes).Perm
      (definedOpcodes.map BitVec.toNat) :=
    (List.perm_ext_iff_of_nodup (List.nodup_range.filter _) (by decide)).mpr fun n => by
      simpa using ofNat_mem_definedOpcodes_iff n
  exact hperm.length_eq

theorem length_filter_undefined :
    ((List.range 256).filter fun n => BitVec.ofNat 8 n ∉ definedOpcodes).length = 242 := by
  have hsplit := List.length_eq_length_filter_add (l := List.range 256) (fun n => BitVec.ofNat 8 n ∈ definedOpcodes)
  rw [List.length_range, length_filter_defined] at hsplit
  simp only [← decide_not] at hsplit
  omega

/-- Settles O5: the default branch of the decoder, and 256 less 14. -/
theorem undefinedOpcodesAreIllegal : Obligations.UndefinedOpcodesAreIllegal :=
  ⟨decode_undefinedOpcode_iff, length_filter_undefined⟩

end Sys2Proof
end

section
/-! Proofs about one step by what is presented (30_encoding.md R97, 60_exceptions.md R284, 70_reset_and_hazards.md
R300), and the STATUS word (10_state.md R36). -/

namespace Sys2Proof.Machine

/-- Settles O7: an idle block performs the word (`step_of_command`), which is `exec` of what it decodes to. -/
theorem stepRunsDecodedCommand : Obligations.StepRunsDecodedCommand := fun s _ rest hp hi =>
  ⟨step_of_command hp hi, fun _ hd => (step_of_command hp hi).trans (performWord_of_ok hd (s.withInput rest))⟩

theorem step_of_idle {s : State} (hp : s.cls.pending = none) (hi : s.host.input = []) : step s = .next s := by
  simp only [step, advance, hp, takeEvent, hi]

/-- Settles O8: nothing presented, and RST, which keeps what the host and the classifier hold. -/
theorem idleStepChangesNothing : Obligations.IdleStepChangesNothing := by
  refine ⟨fun s => step_of_idle, fun s t rest hi h => ?_⟩
  cases (step_of_reset hi).symm.trans h
  exact ⟨rfl, rfl, rfl, rfl⟩

/-- USTATE's bit is 1 exactly while Scanning (10_state.md R30). -/
theorem UState.bit_eq_true_iff (u : UState) : u.bit = true ↔ u = .scanning := by
  cases u <;> simp [UState.bit]

/-- STATUS bit by bit: the flag at each of the positions 0 to 4, and 0 above. -/
theorem State.getLsbD_statusWord (s : State) (k : Nat) :
    s.statusWord.getLsbD k = [s.fault, s.tAct, s.tBad, s.tOver, s.uState.bit].getD k false := by
  simp only [State.statusWord, BitVec.getLsbD_append]
  match k with
  | 0 => simp
  | 1 | 2 | 3 | 4 => simp
  | k + 5 => simp

/-- Settles O28: each bit is read off the list of flags. -/
theorem statusWordFields : Obligations.StatusWordFields := by
  refine fun s => ⟨s.getLsbD_statusWord 0, s.getLsbD_statusWord 1, s.getLsbD_statusWord 2, s.getLsbD_statusWord 3, ?_,
    fun k hk => ?_⟩
  · rw [s.getLsbD_statusWord 4]
    exact s.uState.bit_eq_true_iff
  · rw [s.getLsbD_statusWord k]
    exact List.getD_eq_default _ _ hk

end Sys2Proof.Machine
end

section
/-! Proofs about the invariant of the block (10_state.md R22-R33): each command keeps it, a UNEXT that goes round its
loop keeps it up to the query it has made, and every step keeps it. -/

namespace Sys2Proof.Machine

/-! ## Rules for what a command answers -/

section Rules
variable {P : State → Prop} {s : State} {o : Host.Outcome State Fault Refusal}

/-- The command's own rule is only reached with FAULT = 0. -/
theorem Leaves.unlessFaulted_of (hrefused : ∀ rsp, P (s.reply rsp)) (h : s.fault = false → Leaves P o) :
    Leaves P (Machine.unlessFaulted s o) := fun t ht => by
  obtain ⟨_, rfl⟩ | ⟨hf, ho⟩ := unlessFaulted_next ht
  · exact hrefused _
  · exact h hf t ho

theorem Leaves.ite_of {c : Prop} [Decidable c] {o' : Host.Outcome State Fault Refusal} (h : c → Leaves P o)
    (h' : ¬ c → Leaves P o') : Leaves P (if c then o else o') := by
  split
  · exact h ‹_›
  · exact h' ‹_›

end Rules

/-! ## The operations of one command each -/

theorem descWidth_toNat_le {w : BitVec 8} (h : ¬ widthTooBig w = true) : (descWidth w).toNat ≤ 32 := by
  have hw : ¬ 32 < w.toNat := mt decide_eq_true h
  simp only [descWidth, BitVec.extractLsb'_toNat, Nat.shiftRight_zero]
  omega

section Operations
variable {s : State} (h : s.Inv)
include h

theorem raiseError_keeps_inv {st : Status} {info : Val}
    (hst : st ∈ [Status.errIllegal, .errMalformed, .errCapacity, .errRange, .errSeq]) :
    Leaves State.Inv (raiseError st info s) :=
  .next ((h.lastErr st.code (by revert st; decide)).reply _)

/-- PACK records a cursor, a size and a total that fit their registers (R27, R28). -/
theorem State.Inv.packed {m : Memory} (hm : s.PacksTo m) : (s.packed m).Inv := by
  have htotal := h.totalWidth_le
  have hsize := h.toNat_ofNat_unitsFor
  have hfits := h.unitsFor_le_bufUnits
  have hmax := s.cfg.descMax_ok.2
  obtain ⟨herrors, _, htext, _, _, hunpacker, hport⟩ := h
  refine ⟨herrors, ?table, htext, ?buffer, ?packer, hunpacker, hport⟩
  case table => exact ⟨rfl, fun _ hc => absurd hc List.not_mem_nil, Nat.zero_le _⟩
  case buffer => exact ⟨hm.wf, hsize.symm ▸ hm.units_lt, hsize.symm ▸ hfits⟩
  case packer =>
    simp only [State.PackerOk, State.packed, BitVec.toNat_ofNat]
    omega

theorem State.Inv.writeUnit {idx : Nat} (hidx : idx < s.bLen.toNat) (u : Byte) :
    State.Inv { s with buf := s.buf.write idx u } := by
  obtain ⟨herrors, htable, htext, ⟨hwf, hlt, hlen⟩, hpacker, hunpacker, hport⟩ := h
  refine ⟨herrors, htable, htext, ⟨Memory.wf_write hwf _ _, fun c hc => ?_, hlen⟩, hpacker, hunpacker, hport⟩
  obtain rfl | hc := Memory.mem_write hc
  · exact hidx
  · exact hlt c hc

theorem State.Inv.setLength {n : BitVec 16} (hn : n.toNat ≤ s.cfg.bufUnits) :
    State.Inv { s with buf := s.buf.zeroBelow s.cfg.bufUnits, bLen := n } := by
  obtain ⟨herrors, htable, htext, ⟨_, hlt, hlen⟩, hpacker, hunpacker, hport⟩ := h
  have hempty : s.buf.zeroBelow s.cfg.bufUnits = [] := Memory.zeroBelow_eq_nil fun c hc => (hlt c hc).trans_le hlen
  rw [hempty]
  exact ⟨herrors, htable, htext, ⟨rfl, fun _ hc => absurd hc List.not_mem_nil, hn⟩, hpacker, hunpacker, hport⟩

/-- UOPEN starts a session at the first bit with nothing counted (43_unpacker.md R212). -/
theorem State.Inv.openSession (hp : s.cls.pending = none) :
    State.Inv { s with
      uBuf := s.uBuf.copyFrom s.bLen.toNat s.buf
      uLen := s.bLen, uCurUnit := 0, uCurOff := 0, patLen := 0, patVal := 0
      uState := .scanning, uDiscard := 0, uCount := 0 } := by
  obtain ⟨herrors, htable, htext, ⟨hwf, hlt, hlen⟩, hpacker, ⟨huwf, hult, _⟩, _⟩ := h
  refine ⟨herrors, htable, htext, ⟨hwf, hlt, hlen⟩, hpacker,
    ⟨Memory.wf_copyFrom huwf _ _, fun c hc => ?_, hlen, Nat.zero_le _, fun _ => rfl, Nat.zero_lt_one, Nat.zero_le _,
      fun _ => rfl, nofun⟩, fun _ => rfl, fun q hq => ?_⟩
  · obtain ⟨hc, _⟩ | hc := Memory.mem_copyFrom hc
    · exact hc.trans_le hlen
    · exact hult c hc
  · simp [hp] at hq

end Operations

/-! ## UNEXT -/

/-- The state with `q` as the query that has no answer yet. -/
def State.withQuery (s : State) (q : Option ClsQuery) : State := { s with cls := { s.cls with pending := q } }

/-- The block between two bits of a UNEXT (43_unpacker.md R213): its last query is answered, and with that query still
pending it would meet the invariant. -/
structure State.Between (s : State) : Prop where
  fault : s.fault = false
  scanning : s.uState = .scanning
  answered : s.cls.pending = none
  inv : ∃ q, (s.withQuery q).Inv

/-- A match (R217): the pattern had one bit at least, so UCOUNT stays within the bits read. -/
theorem State.Between.emit {s : State} (h : s.Between) (hlen : s.patLen ≠ 0) (t : Val) : (s.emit t).Inv := by
  obtain ⟨_, _, hp, q, herrors, htable, htext, hbuffer, hpacker, hunpacker, _⟩ := h
  obtain ⟨huwf, hult, hulen, hunit, hoff, _, hbits, hdiscard, hend⟩ : s.UnpackerOk := hunpacker
  refine ⟨herrors, htable, htext, hbuffer, hpacker, ⟨huwf, hult, hulen, hunit, hoff, Nat.zero_lt_one, ?counters,
    hdiscard, fun hu => ⟨rfl, (hend hu).2⟩⟩, fun _ => rfl, fun q' hq' => by simp [hp] at hq'⟩
  case counters =>
    have hpos : s.patLen.toNat ≠ 0 := fun hzero => hlen (BitVec.eq_of_toNat_eq hzero)
    have hcount : (s.uCount + 1).toNat ≤ s.uCount.toNat + 1 := by
      rw [BitVec.toNat_add]
      exact Nat.mod_le _ _
    show (s.uCount + 1).toNat + 0 + s.uDiscard.toNat ≤ s.decodeCursor.position
    omega

/-- The end of the stream (R218): UDISCARD takes over the pattern's length. -/
theorem State.Between.endSession {s : State} (h : s.Between) (hend : s.uCurUnit = s.uLen) : s.endSession.Inv := by
  obtain ⟨_, _, hp, q, herrors, htable, htext, hbuffer, hpacker, hunpacker, _⟩ := h
  obtain ⟨huwf, hult, hulen, hunit, hoff, _, hbits, _⟩ : s.UnpackerOk := hunpacker
  refine ⟨herrors, htable, htext, hbuffer, hpacker, ⟨huwf, hult, hulen, hunit, hoff, Nat.zero_lt_one, ?counters,
    nofun, fun _ => ⟨rfl, hend⟩⟩, fun _ => rfl, fun q' hq' => by simp [hp] at hq'⟩
  case counters =>
    show s.uCount.toNat + 0 + s.patLen.toNat ≤ s.decodeCursor.position
    omega

/-- The next query (R214), made in a state that differs from one of the invariant in the last query only. -/
theorem State.Between.takeBit {s : State} (h : s.Between) (hne : s.uCurUnit ≠ s.uLen) : s.takeBit.Inv := by
  obtain ⟨hf, hscan, _, q, hinv⟩ := h
  exact State.Inv.takeBit (s := s.withQuery q) hinv hf hscan hne

/-- The pending query of a state of the invariant is answered. -/
theorem State.Inv.between_answered {s : State} {q : ClsQuery} (h : s.Inv) (hq : s.cls.pending = some q)
    (rest : List ClsAnswer) : (s.answered rest).Between ∧ (s.answered rest).patLen ≠ 0 := by
  have ⟨_, _, _, _, _, _, _, hpending⟩ := h
  obtain ⟨_, hlen, hscan, hf⟩ := hpending q hq
  refine ⟨⟨hf, hscan, rfl, some q, ?_⟩, hlen⟩
  rw [← hq]
  exact h

/-- Whatever the classifier answers, UNEXT's loop ends in a state of the invariant. -/
theorem State.Between.unextLoop {s : State} (h : s.Between) (as : List ClsAnswer) : (unextLoop as s).Inv := by
  refine unextLoop_induction (P := State.Between) (R := State.Inv) ?goes_on ?ends ?emits ?waits as s h
  case goes_on => exact fun v rest hv hne => ((hv.takeBit hne).between_answered rfl rest).1
  case ends => exact fun v hv hend => hv.endSession hend
  case emits =>
    intro v rest t hv hne
    obtain ⟨hbetween, hlen⟩ := (hv.takeBit hne).between_answered rfl rest
    exact hbetween.emit hlen t
  case waits => exact fun v hv hne => hv.takeBit hne

theorem State.Inv.resumeUnext {s : State} {q : ClsQuery} (h : s.Inv) (hq : s.cls.pending = some q) :
    (resumeUnext s).Inv := by
  obtain ⟨_, hr⟩ | ⟨a, rest, _, _, hr⟩ | ⟨a, rest, _, _, hr⟩ := resumeUnext_cases s <;> rw [hr]
  · exact h
  · obtain ⟨hbetween, hlen⟩ := h.between_answered hq rest
    exact hbetween.emit hlen a.t
  · exact (h.between_answered hq rest).1.unextLoop rest

/-! ## Every command and every step -/

section Commands
variable {s : State} (h : s.Inv)
include h

theorem performIllegal_keeps_inv : Leaves State.Inv (performIllegal s) :=
  .unlessFaulted (h.reply _) (raiseError_keeps_inv h (by decide))

theorem execRdreg_keeps_inv (r : BitVec 8) : Leaves State.Inv (execRdreg r s) := by
  unfold execRdreg
  split
  · exact .next (h.reply _)
  · exact .unlessFaulted (h.reply _) (raiseError_keeps_inv h (by decide))

theorem execDpush_keeps_inv (hp : s.cls.pending = none) (w : BitVec 8) (v : Val) :
    Leaves State.Inv (execDpush w v s) :=
  .unlessFaulted (h.reply _) <|
    .ite_of (fun _ => .next ((h.faultEntry hp .faultWidth (.inl rfl)).reply _)) fun hw =>
    .ite_of (fun _ => raiseError_keeps_inv h (by decide)) fun hroom =>
      .next ((h.appendDesc (mt State.tableFull_iff.mpr hroom) _ (descWidth_toNat_le hw)).reply _)

theorem execTend_keeps_inv (hp : s.cls.pending = none) : Leaves State.Inv (execTend s) := by
  have hlen : s.tLen.toNat ≤ 32 := by
    obtain ⟨_, _, ⟨hlen, _⟩, _⟩ := h
    exact hlen
  exact .unlessFaulted (h.reply _) <|
    .ite (raiseError_keeps_inv h (by decide)) <|
    .ite (raiseError_keeps_inv h.closeText (by decide)) <|
    .ite (.next ((h.faultEntry hp .faultWidth (.inl rfl)).reply _)) <|
    .ite_of (fun _ => raiseError_keeps_inv h.closeText (by decide)) fun hroom =>
      .next ((h.appendDesc (mt State.tableFull_iff.mpr hroom) ⟨s.tLen, s.tVal⟩ hlen).closeText.reply _)

theorem execPack_keeps_inv : Leaves State.Inv (execPack s) :=
  .unlessFaulted_of h.reply fun hf => by
    obtain ⟨m, hpacks, hexec⟩ := h.exec_pack hf
    exact (unlessFaulted_of_not_faulted hf _).symm.trans hexec ▸ .next ((h.packed hpacks).reply _)

theorem execUnext_keeps_inv (hp : s.cls.pending = none) : Leaves State.Inv (execUnext s) :=
  .unlessFaulted_of h.reply fun hf => by
    split
    · exact .next (h.reply _)
    · next hscan => exact .next (State.Between.unextLoop ⟨hf, hscan, hp, none, hp ▸ h⟩ _)

/-- No command is performed while a query is pending (70_reset_and_hazards.md R303), which `hp` says. -/
theorem exec_keeps_inv (hp : s.cls.pending = none) (i : Instr) : Leaves State.Inv (exec i s) := by
  cases i with
  | nop => exact .unlessFaulted (h.reply _) (.next (h.reply _))
  | clr => exact .unlessFaulted (h.reply _) (.next (h.cleared.reply _))
  | rdreg r => exact execRdreg_keeps_inv h r
  | dpush w v => exact execDpush_keeps_inv h hp w v
  | tbegin => exact .unlessFaulted (h.reply _) (.next (h.openText.reply _))
  | tchar c =>
    exact .unlessFaulted (h.reply _)
      (.ite_of (fun hopen => .next ((h.addChar hopen c).reply _)) fun _ => raiseError_keeps_inv h (by decide))
  | tend => exact execTend_keeps_inv h hp
  | drd idx => exact .unlessFaulted (h.reply _) (.ite (raiseError_keeps_inv h (by decide)) (.next (h.reply _)))
  | pack => exact execPack_keeps_inv h
  | bufrd idx => exact .unlessFaulted (h.reply _) (.ite (raiseError_keeps_inv h (by decide)) (.next (h.reply _)))
  | bufwr idx u =>
    exact .unlessFaulted (h.reply _)
      (.ite_of (fun _ => raiseError_keeps_inv h (by decide)) fun hlt =>
        .next ((h.writeUnit (Nat.not_le.mp hlt) u).reply _))
  | setlen n =>
    exact .unlessFaulted (h.reply _)
      (.ite_of (fun _ => raiseError_keeps_inv h (by decide)) fun hle =>
        .next ((h.setLength (Nat.not_lt.mp hle)).reply _))
  | uopen => exact .unlessFaulted (h.reply _) (.next ((h.openSession hp).reply _))
  | unext => exact execUnext_keeps_inv h hp

end Commands

/-- Settles O18: the reset state is what RST leaves. -/
theorem invariantAtReset : Obligations.InvariantAtReset := fun p => (State.resetWith p).afterReset_inv

/-- Settles O19: by the cases of a step: idle, RST, a command, an illegal word, a UNEXT that waits. -/
theorem stepKeepsInvariant : Obligations.StepKeepsInvariant := by
  intro s t h hstep
  obtain ⟨_, _, rfl⟩ | ⟨rest, _, rfl⟩ | ⟨_, rest, i, hp, _, _, hexec⟩ | ⟨_, rest, _, _, _, _, hillegal⟩
    | ⟨_, hq, _, rfl⟩ := step_next hstep
  · exact h
  · exact State.afterReset_inv _
  · exact exec_keeps_inv (h.withInput rest) hp i t hexec
  · exact performIllegal_keeps_inv (h.withInput rest) t hillegal
  · exact h.resumeUnext hq

/-- Settles O22: by the invariant of the next state. -/
theorem unitsBeyondLengthAreZero : Obligations.UnitsBeyondLengthAreZero := by
  intro s t h hstep a ha
  obtain ⟨_, _, _, ⟨_, hlt, _⟩, _⟩ := stepKeepsInvariant s t h hstep
  exact Memory.read_eq_zero_of_ge hlt ha

end Sys2Proof.Machine
end

section
/-! Proofs about one UNEXT (43_unpacker.md R213-R217): the first match, the silent classifier, one query for each bit,
and that it makes no difference when the answers come. -/

namespace Sys2Proof.Machine

/-! ## The loop before the end of the stream, by the answer -/

section Loop
variable {s : State} (hne : s.uCurUnit ≠ s.uLen)
include hne

theorem unextLoop_of_silence : unextLoop [] s = s.takeBit := if_neg hne

theorem unextLoop_of_match {a : ClsAnswer} (ha : a.isMatch = true) (as : List ClsAnswer) :
    unextLoop (a :: as) s = ((s.takeBit).answered as).emit a.t :=
  (if_neg hne).trans (if_pos ha)

theorem unextLoop_of_miss {a : ClsAnswer} (ha : a.isMatch = false) (as : List ClsAnswer) :
    unextLoop (a :: as) s = unextLoop as ((s.takeBit).answered as) :=
  (if_neg hne).trans (if_neg (by simp [ha]))

end Loop

/-! ## The first match and the silence -/

/-- Of an answer's value the port carries the low T_W bits (R210). -/
theorem portValue_eq (p : Config.Params) (t : Val) : portValue p t = BitVec.ofNat 32 (t.toNat % 2 ^ p.tW) := by
  apply BitVec.eq_of_getLsbD_eq
  intro i hi
  rw [portValue, BitVec.getLsbD_and, getLsbD_lowMask, BitVec.getLsbD_ofNat, Nat.testBit_mod_two_pow,
    BitVec.testBit_toNat]
  simp [hi, Bool.and_comm]

section HasRead
variable {s t : State} {n : Nat} {as : List ClsAnswer}

theorem State.HasRead.uState_eq (h : s.HasRead n as t) : t.uState = s.uState :=
  (congrArg State.uState h.rest_same).symm

theorem State.HasRead.uDiscard_eq (h : s.HasRead n as t) : t.uDiscard = s.uDiscard :=
  (congrArg State.uDiscard h.rest_same).symm

theorem State.HasRead.fault_eq (h : s.HasRead n as t) : t.fault = s.fault := (congrArg State.fault h.rest_same).symm

theorem State.HasRead.cfg_eq (h : s.HasRead n as t) : t.cfg = s.cfg := (congrArg State.cfg h.rest_same).symm

end HasRead

section Unext
variable {s : State} (hinv : s.Inv) (hf : s.fault = false) (hp : s.cls.pending = none) (hu : s.uState = .scanning)
include hinv hf hp hu

/-- UNEXT up to its first match: one bit read for each answer, and the value of the last one emitted. -/
theorem exec_unext_of_match {misses rest : List ClsAnswer} {a : ClsAnswer} (has : s.cls.answers = misses ++ a :: rest)
    (hm : ∀ x ∈ misses, x.isMatch = false) (ha : a.isMatch = true) (hlen : misses.length < s.restOfStream.length) :
    ∃ u, s.HasRead (misses.length + 1) rest u ∧ exec .unext s = .next (u.emit a.t) := by
  have hstart := hinv.hasRead_zero hp
  rw [has] at hstart
  obtain ⟨u, hread, hloop⟩ := hstart.unextLoop_misses hm (by omega)
  rw [Nat.zero_add] at hread
  have hne : u.uCurUnit ≠ u.uLen := fun he => absurd (hread.unit_lt hlen) (by simp [he])
  refine ⟨_, hread.succ hlen, ?_⟩
  rw [exec_unext_of_scanning hf hu, has, hloop, unextLoop_of_match hne ha]

/-- UNEXT up to the end of the answers, where its next query waits. -/
theorem exec_unext_of_silence (hm : ∀ x ∈ s.cls.answers, x.isMatch = false)
    (hlen : s.cls.answers.length < s.restOfStream.length) :
    ∃ u, s.HasRead s.cls.answers.length [] u ∧ exec .unext s = .next u.takeBit := by
  have hstart := hinv.hasRead_zero hp
  rw [← List.append_nil s.cls.answers] at hstart
  obtain ⟨u, hread, hloop⟩ := hstart.unextLoop_misses hm (by omega)
  rw [Nat.zero_add] at hread
  have hne : u.uCurUnit ≠ u.uLen := fun he => absurd (hread.unit_lt hlen) (by simp [he])
  refine ⟨u, hread, ?_⟩
  rw [exec_unext_of_scanning hf hu, ← List.append_nil s.cls.answers, hloop, unextLoop_of_silence hne]

end Unext

/-- Settles O47: what the bits read leave (`HasRead`), then the emission. -/
theorem unextEmitsTheMatch : Obligations.UnextEmitsTheMatch := by
  intro s misses a rest hinv hf hp hu has hm ha hlen
  obtain ⟨u, hread, hexec⟩ := exec_unext_of_match hinv hf hp hu has hm ha hlen
  refine ⟨_, hexec, ?_, hread.uState_eq.trans hu, hread.position, rfl, rfl, congrArg (· + 1) hread.uCount_eq,
    hread.uDiscard_eq, ?_, ?_, ?_⟩
  · rw [State.emit_host, hread.host_eq, hread.cfg_eq, portValue_eq]
  all_goals rw [State.emit_cls, hread.cls]
  rfl

/-- Settles O49: what the bits read leave, then the query that waits. -/
theorem unextWaitsForTheClassifier : Obligations.UnextWaitsForTheClassifier := by
  intro s hinv hf hp hu hm hlen
  obtain ⟨u, hread, hexec⟩ := exec_unext_of_silence hinv hf hp hu hm hlen
  refine ⟨_, hexec, hread.host_eq, hread.uState_eq.trans hu, ?_, ?_, ?_⟩
  · rw [State.takeBit_cls, hread.cls]
  · rw [State.takeBit_cls, hread.next_patLen, hread.next_patVal hlen]
  · exact (takeBit_position (hread.unit_lt hlen)).trans (congrArg (· + 1) hread.position)

/-! ## One query for each bit (R214, R221) -/

/-- Since `s` the block has made one query for each bit it has read, none of them beyond the snapshot. -/
def State.QueriesBits (s t : State) : Prop :=
  t.uLen = s.uLen ∧ t.decodeCursor.position ≤ 8 * s.uLen.toNat
  ∧ ∃ qs : List ClsQuery, t.cls.queries = s.cls.queries ++ qs
    ∧ t.decodeCursor.position = s.decodeCursor.position + qs.length

theorem State.QueriesBits.takeBit {s t : State} (h : s.QueriesBits t) (hne : t.uCurUnit ≠ t.uLen) :
    s.QueriesBits t.takeBit := by
  obtain ⟨hlen, hle, qs, hqs, hpos⟩ := h
  have hunit : t.uCurUnit.toNat ≠ t.uLen.toNat := fun he => hne (BitVec.eq_of_toNat_eq he)
  have := t.position_eq
  have hlt : t.uCurUnit.toNat < t.uLen.toNat := by
    rw [hlen] at hunit ⊢
    omega
  have hnext : t.takeBit.decodeCursor.position = t.decodeCursor.position + 1 := takeBit_position hlt
  have := t.uCurOff.isLt
  refine ⟨hlen, by rw [hlen] at hlt; omega, qs ++ [⟨t.patLen + 1, 2 * t.patVal + t.nextBit.toNat⟩], ?_, ?_⟩
  · rw [State.takeBit_cls, hqs, List.append_assoc]
  · rw [hnext, hpos, List.length_append, List.length_singleton, Nat.add_assoc]

/-- Settles O52: a bit read is a query made (`State.QueriesBits.takeBit`), through the whole loop. -/
theorem oneQueryPerBit : Obligations.OneQueryPerBit := by
  intro s t hinv hf hp hexec
  have hstart : s.QueriesBits s := ⟨rfl, hinv.position_le, [], (List.append_nil _).symm, rfl⟩
  suffices h : s.QueriesBits t by
    obtain ⟨_, hle, qs, hqs, hpos⟩ := h
    exact ⟨qs, hqs, hpos, hle⟩
  cases hu : s.uState with
  | exhausted =>
    cases (exec_unext_of_exhausted hf hu).symm.trans hexec
    exact hstart
  | scanning =>
    cases (exec_unext_of_scanning hf hu).symm.trans hexec
    refine unextLoop_induction (P := s.QueriesBits) (R := s.QueriesBits) ?goes_on ?ends ?emits ?waits _ s hstart
    case goes_on => exact fun v rest hv hne => hv.takeBit hne
    case ends => exact fun v hv _ => hv
    case emits => exact fun v rest t hv hne => hv.takeBit hne
    case waits => exact fun v hv hne => hv.takeBit hne

/-! ## Late answers (R210, 70_reset_and_hazards.md R305) -/

/-- The state in which the classifier will give other answers. -/
def State.withAnswers (s : State) (as : List ClsAnswer) : State := { s with cls := { s.cls with answers := as } }

theorem unit_ne_of_unextLoop_waits {s : State} {as : List ClsAnswer} (hp : s.cls.pending = none)
    (hwaits : (unextLoop as s).cls.pending ≠ none) : s.uCurUnit ≠ s.uLen := fun hend =>
  hwaits (by rw [unextLoop_of_end hend]; exact hp)

/-- A loop that ends waiting goes on with the answers that come late as it would have with them in its list. -/
theorem resumeUnext_unextLoop {late : List ClsAnswer} (hlate : late ≠ []) (early : List ClsAnswer) {s : State}
    (hp : s.cls.pending = none) (hwaits : (unextLoop early s).cls.pending ≠ none) (as : List ClsAnswer) :
    resumeUnext ((unextLoop early s).withAnswers late) = unextLoop (early ++ late) (s.withAnswers as) := by
  induction early generalizing s as with
  | nil =>
    have hne := unit_ne_of_unextLoop_waits hp hwaits
    obtain ⟨a, rest, rfl⟩ := List.exists_cons_of_ne_nil hlate
    rw [unextLoop_of_silence hne]
    exact (if_neg hne).symm
  | cons a early ih =>
    have hne := unit_ne_of_unextLoop_waits hp hwaits
    cases hm : a.isMatch with
    | true =>
      rw [unextLoop_of_match hne hm] at hwaits
      exact absurd rfl hwaits
    | false =>
      rw [unextLoop_of_miss hne hm] at hwaits ⊢
      exact (ih rfl hwaits (early ++ late)).trans (unextLoop_of_miss (s := s.withAnswers as) hne hm _).symm

/-- Settles O51: the step of the waiting state goes on with the late answers (`resumeUnext_unextLoop`). -/
theorem lateAnswersChangeNothing : Obligations.LateAnswersChangeNothing := by
  intro s t early late hf hp hu hi hexec hwaits hlate
  have hloop : exec .unext (s.withAnswers early) = .next (unextLoop early (s.withAnswers early)) :=
    exec_unext_of_scanning (s := s.withAnswers early) hf hu
  cases hloop.symm.trans hexec
  obtain ⟨_, hinput, _⟩ := (unextLoop_ends (s := s) (u := s.withAnswers early) early rfl rfl rfl).1.next_cases
  calc step ((unextLoop early (s.withAnswers early)).withAnswers late)
    _ = .next (resumeUnext ((unextLoop early (s.withAnswers early)).withAnswers late)) :=
      step_of_waiting hwaits fun rest hreset => hi rest (hinput.symm.trans hreset)
    _ = .next (unextLoop (early ++ late) (s.withAnswers (early ++ late))) :=
      congrArg _ (resumeUnext_unextLoop (s := s.withAnswers early) hlate early hp hwaits (early ++ late))
    _ = exec .unext (s.withAnswers (early ++ late)) :=
      (exec_unext_of_scanning (s := s.withAnswers (early ++ late)) hf hu).symm

end Sys2Proof.Machine
end

section
/-! Proof that a session with a classifier function is the greedy segmentation of what is left of the stream
(43_unpacker.md R222): one UNEXT for each value of the segmentation, and one for END. -/

namespace Sys2Proof.Machine

/-! ## The answers of a classifier function -/

/-- The answer of a classifier function that does not match (R210). -/
def ClsAnswer.miss : ClsAnswer := ⟨false, 0⟩

theorem ClsAnswer.isMatch_of_mem_misses {x : ClsAnswer} {n : Nat} (h : x ∈ List.replicate n miss) :
    x.isMatch = false := by
  rw [List.eq_of_mem_replicate h]
  rfl

section Answers
variable {C : Classifier} {stream : List Bool} {n : Nat}

theorem Classifier.answer_of_none {len val : Nat} (h : C len val = none) : C.answer len val = .miss := by
  simp only [Classifier.answer, h, ClsAnswer.miss]

theorem Classifier.answer_of_some {len val : Nat} {t : Val} (h : C len val = some t) :
    C.answer len val = ⟨true, t⟩ := by
  simp only [Classifier.answer, h]

/-- The answer to the query of the first `n + 1` bits, and those to the queries that follow it. -/
theorem Classifier.answersOn_drop (hn : n < stream.length) :
    C.answersOn n (bitsVal (stream.take n)) (stream.drop n) =
      C.answer (n + 1) (bitsVal (stream.take (n + 1))) ::
        if (C (n + 1) (bitsVal (stream.take (n + 1)))).isSome then C.answersOn 0 0 (stream.drop (n + 1))
        else C.answersOn (n + 1) (bitsVal (stream.take (n + 1))) (stream.drop (n + 1)) := by
  rw [List.drop_eq_getElem_cons hn, Classifier.answersOn, ← bitsVal_append_one, ← List.take_succ_eq_append_getElem hn]

/-- While no pattern matches, the answers are misses. -/
theorem Classifier.answersOn_of_misses (hn : n ≤ stream.length)
    (hmiss : ∀ m < n, C (m + 1) (bitsVal (stream.take (m + 1))) = none) :
    C.answersOn 0 0 stream =
      List.replicate n .miss ++ C.answersOn n (bitsVal (stream.take n)) (stream.drop n) := by
  induction n with
  | zero => simp
  | succ n ih =>
    have hnone := hmiss n (Nat.lt_succ_self n)
    rw [ih (by omega) fun m hm => hmiss m (by omega), Classifier.answersOn_drop hn, hnone,
      Classifier.answer_of_none hnone, List.replicate_succ', List.append_assoc]
    rfl

/-- The first pattern that matches: a miss for each shorter one, the match, and the answers from the bit behind it. -/
theorem Classifier.answersOn_of_match {t : Val} (hn : n < stream.length)
    (hmiss : ∀ m < n, C (m + 1) (bitsVal (stream.take (m + 1))) = none)
    (hmatch : C (n + 1) (bitsVal (stream.take (n + 1))) = some t) :
    C.answersOn 0 0 stream =
      List.replicate n .miss ++ ⟨true, t⟩ :: C.answersOn 0 0 (stream.drop (n + 1)) := by
  rw [Classifier.answersOn_of_misses hn.le hmiss, Classifier.answersOn_drop hn, hmatch,
    Classifier.answer_of_some hmatch]
  rfl

/-- No pattern matches: as many misses as bits. -/
theorem Classifier.answersOn_of_no_match
    (hmiss : ∀ m < stream.length, C (m + 1) (bitsVal (stream.take (m + 1))) = none) :
    C.answersOn 0 0 stream = List.replicate stream.length .miss := by
  rw [Classifier.answersOn_of_misses le_rfl hmiss, List.drop_length, Classifier.answersOn, List.append_nil]

end Answers

/-! ## A session between two commands -/

/-- A Scanning session between two commands of the host, with `stream` still to read, `answers` still to come and
`input` still to be presented. -/
structure State.Session (s : State) (stream : List Bool) (answers : List ClsAnswer) (input : List HostEvent) :
    Prop where
  inv : s.Inv
  fault : s.fault = false
  pending : s.cls.pending = none
  scanning : s.uState = .scanning
  stream : s.restOfStream = stream
  answers : s.cls.answers = answers
  input : s.host.input = input

theorem State.HasRead.restOfStream_eq {s t : State} {n : Nat} {as : List ClsAnswer} (h : s.HasRead n as t) :
    t.restOfStream = s.restOfStream.drop n := by
  apply List.ext_getElem
  · rw [List.length_drop, State.restOfStream_length, State.restOfStream_length, h.uLen_eq, h.position, Nat.sub_sub]
  · intro k hk hk'
    rw [List.getElem_drop, State.getElem_restOfStream, State.getElem_restOfStream, h.uBuf_eq, h.position, Nat.add_assoc]

section Session
variable {s : State} {stream : List Bool} {input : List HostEvent} {n : Nat}

/-- One UNEXT that finds a match: the session goes on behind it. -/
theorem State.Session.step_of_match {t : Val} {answers : List ClsAnswer} (hn : n < stream.length)
    (h : s.Session stream (List.replicate n .miss ++ ⟨true, t⟩ :: answers) (.command (encode .unext) :: input)) :
    ∃ s', step s = .next s' ∧ s'.Session (stream.drop (n + 1)) answers input
      ∧ s'.host.output = s.host.output ++ [rspWord .ok 0 (BitVec.ofNat 32 (t.toNat % 2 ^ s.cfg.tW))]
      ∧ s'.uCount = s.uCount + 1 ∧ s'.cfg = s.cfg := by
  obtain ⟨hinv, hf, hp, hu, rfl, has, hi⟩ := h
  obtain ⟨u, hread, hexec⟩ := exec_unext_of_match (s := s.withInput input) (hinv.withInput input) hf hp hu has
    (fun _ => ClsAnswer.isMatch_of_mem_misses) rfl (by rwa [List.length_replicate])
  have hstep := (step_of_encoded hp hi).trans hexec
  rw [List.length_replicate] at hread
  refine ⟨_, hstep, ⟨stepKeepsInvariant _ _ hinv hstep, hread.fault_eq.trans hf, ?_, hread.uState_eq.trans hu,
    hread.restOfStream_eq, ?_, ?_⟩, ?_, congrArg (· + 1) hread.uCount_eq, hread.cfg_eq⟩
  · rw [State.emit_cls, hread.cls]
  · rw [State.emit_cls, hread.cls]
  · rw [State.emit_host, hread.host_eq]
    rfl
  · rw [State.emit_host, hread.host_eq, hread.cfg_eq, portValue_eq]
    rfl

/-- One UNEXT that finds no match: the session ends. -/
theorem State.Session.step_of_no_match {answers : List ClsAnswer}
    (h : s.Session stream (List.replicate stream.length .miss ++ answers) (.command (encode .unext) :: input)) :
    ∃ t, step s = .next t ∧ t.host.output = s.host.output ++ [rspWord .endOfSeq 0 0] ∧ t.uState = .exhausted
      ∧ t.uDiscard.toNat = stream.length ∧ t.uCount = s.uCount ∧ t.cls.answers = answers ∧ t.host.input = input := by
  obtain ⟨hinv, hf, hp, hu, rfl, has, hi⟩ := h
  obtain ⟨t, hexec, hout, hexhausted, _, _, _, _, hcount, hdiscard, hans, _⟩ :=
    unextExhaustsTheStream (s.withInput input) _ answers (hinv.withInput input) hf hp hu has
      (fun _ => ClsAnswer.isMatch_of_mem_misses) List.length_replicate
  have hends := exec_ends .unext (s.withInput input)
  rw [hexec] at hends
  obtain ⟨_, hinput, _⟩ := hends.next_cases
  rw [List.length_replicate] at hdiscard
  exact ⟨t, (step_of_encoded hp hi).trans hexec, by rw [rspWord_endOfSeq]; exact hout, hexhausted, hdiscard, hcount,
    hans, hinput⟩

end Session

/-- The run of a session over what the segmentation leaves from position `j` on: by the derivation of the segmentation,
one UNEXT for each of its values. -/
theorem run_session_of_segmentation {C : Classifier} {bits : List Bool} {j tail : Nat} {ts : List Val}
    (hseg : Segmentation C bits j ts tail) {s : State} {more : List ClsAnswer} {input : List HostEvent}
    (h : s.Session (bits.drop j) (C.answersOn 0 0 (bits.drop j) ++ more)
      (commandsOf (drain (ts.length + 1)) ++ input)) :
    ∃ t, core.run (ts.length + 1) s = .next t
      ∧ t.host.output = s.host.output
          ++ ts.map (fun v => rspWord .ok 0 (BitVec.ofNat 32 (v.toNat % 2 ^ s.cfg.tW))) ++ [rspWord .endOfSeq 0 0]
      ∧ t.uState = .exhausted ∧ t.uDiscard.toNat = tail ∧ t.uCount = s.uCount + BitVec.ofNat 20 ts.length
      ∧ t.cls.answers = more ∧ t.host.input = input := by
  induction hseg generalizing s with
  | stop j hj none_left =>
    rw [Classifier.answersOn_of_no_match fun m hm => by
      simpa using none_left (j + m) (Nat.le_add_right j m) (by rw [List.length_drop] at hm; omega)] at h
    obtain ⟨t, hstep, hout, hexhausted, hdiscard, hcount, hans, hinput⟩ := h.step_of_no_match
    refine ⟨t, run_succ_of_step hstep 0, by simpa using hout, hexhausted, by rw [hdiscard, List.length_drop],
      by simpa using hcount, hans, hinput⟩
  | value j k t ts tail hj hk matched least rest ih =>
    have hlen : k - j < (bits.drop j).length := by
      rw [List.length_drop]
      omega
    have hdrop : (bits.drop j).drop (k - j + 1) = bits.drop (k + 1) := by
      rw [List.drop_drop]
      congr 1
      omega
    rw [Classifier.answersOn_of_match hlen (fun m hm => by
      simpa using least (j + m) (Nat.le_add_right j m) (by omega)) matched, List.append_assoc] at h
    obtain ⟨s', hstep, hsession, hout, hcount, hcfg⟩ := h.step_of_match hlen
    rw [hdrop] at hsession
    obtain ⟨u, hrun, hout', hexhausted, hdiscard, hcount', hans, hinput⟩ := ih hsession
    refine ⟨u, (run_succ_of_step hstep _).trans hrun, ?_, hexhausted, hdiscard, ?_, hans, hinput⟩
    · rw [hout', hout, hcfg, List.map_cons]
      simp only [List.append_assoc, List.cons_append, List.nil_append]
    · rw [hcount', hcount, List.length_cons, Nat.add_comm ts.length, BitVec.ofNat_add, ← BitVec.add_assoc]
      rfl

/-- Settles O53: the run from the first bit of what is left (`run_session_of_segmentation`). -/
theorem decodedSequenceIsGreedySegmentation : Obligations.DecodedSequenceIsGreedySegmentation :=
  fun _ _ _ _ _ _ hinv hf hp hu has hseg hi => run_session_of_segmentation hseg ⟨hinv, hf, hp, hu, rfl, has, hi⟩

end Sys2Proof.Machine
end

section
/-! Proofs about frames: what each family of commands leaves unchanged, and that a session reads only its snapshot
(20_memory.md R76). Each frame is a conjunction of equations of fields, so an update of other fields keeps it by
`rfl`. -/

namespace Sys2Proof.Machine

/-! ## Each frame holds of a state and itself, and so of a state and an update of other fields -/

theorem State.SameText.refl (s : State) : s.SameText s := ⟨rfl, rfl, rfl, rfl, rfl⟩

theorem State.SameFault.refl (s : State) : s.SameFault s := ⟨rfl, rfl⟩

theorem State.SameTable.refl (s : State) : s.SameTable s := ⟨rfl, fun _ => rfl⟩

theorem State.SameBuffer.refl (s : State) : s.SameBuffer s := ⟨rfl, fun _ => rfl⟩

theorem State.SameSnapshot.refl (s : State) : s.SameSnapshot s := ⟨rfl, fun _ => rfl⟩

theorem State.SamePacker.refl (s : State) : s.SamePacker s := ⟨rfl, rfl, rfl⟩

theorem State.SameSession.refl (s : State) : s.SameSession s := ⟨rfl, rfl, rfl, rfl, rfl, rfl, rfl⟩

theorem State.SameOutside.refl (s : State) : s.SameOutside s := ⟨rfl, rfl, rfl⟩

/-! ## Descriptor input (40_descriptor.md R131-R135) -/

/-- What the five commands of descriptor input leave: all but the table, the text accumulator and the error state, and
of the table every entry but the one at DCOUNT. -/
def State.DescriptorFrame (s t : State) : Prop :=
  s.SameBuffer t ∧ s.SamePacker t ∧ s.SameSnapshot t ∧ s.SameSession t ∧ s.SameOutside t ∧ t.freeSeq = s.freeSeq
  ∧ ∀ k, k ≠ s.dCount.toNat → t.desc.read k = s.desc.read k

theorem State.DescriptorFrame.refl (s : State) : s.DescriptorFrame s :=
  ⟨.refl s, .refl s, .refl s, .refl s, .refl s, rfl, fun _ _ => rfl⟩

theorem State.appendDesc_frame (s : State) (d : Desc) : s.DescriptorFrame (s.appendDesc d) :=
  ⟨.refl s, .refl s, .refl s, .refl s, .refl s, rfl, fun _ hk => DescTable.read_write_other hk d⟩

theorem State.addChar_frame (s : State) (c : BitVec 8) : s.DescriptorFrame (s.addChar c) := by
  rw [State.addChar_eq]
  exact .refl s

section Descriptor
variable (s : State)

theorem execDpush_frame (w : BitVec 8) (v : Val) : Leaves s.DescriptorFrame (execDpush w v s) :=
  .unlessFaulted (.refl s) (.ite (.next (.refl s)) (.ite (.next (.refl s)) (.next (s.appendDesc_frame _))))

theorem execTbegin_frame : Leaves s.DescriptorFrame (execTbegin s) := .unlessFaulted (.refl s) (.next (.refl s))

theorem execTchar_frame (c : BitVec 8) : Leaves s.DescriptorFrame (execTchar c s) :=
  .unlessFaulted (.refl s) (.ite (.next (s.addChar_frame c)) (.next (.refl s)))

theorem execTend_frame : Leaves s.DescriptorFrame (execTend s) :=
  .unlessFaulted (.refl s) <|
    .ite (.next (.refl s)) <|
    .ite (.next (.refl s)) <|
    .ite (.next (.refl s)) <|
    .ite (.next (.refl s)) (.next (s.appendDesc_frame _))

theorem execDrd_frame (idx : BitVec 16) : Leaves s.DescriptorFrame (execDrd idx s) :=
  .unlessFaulted (.refl s) (.ite (.next (.refl s)) (.next (.refl s)))

theorem execDpush_keeps_text_and_fault (w : BitVec 8) (v : Val) :
    Leaves (fun t => s.SameText t ∧ (w.toNat ≤ 32 → s.SameFault t)) (execDpush w v s) :=
  have hquiet : s.SameText s ∧ (w.toNat ≤ 32 → s.SameFault s) := ⟨.refl s, fun _ => .refl s⟩
  .unlessFaulted hquiet <|
    .ite_of (fun hw => .next ⟨.refl s, fun hle => absurd (of_decide_eq_true hw) (Nat.not_lt.mpr hle)⟩) fun _ =>
    .ite (.next hquiet) (.next hquiet)

theorem execTbegin_keeps_table_and_errors :
    Leaves (fun t => s.SameTable t ∧ s.SameFault t ∧ t.lastErr = s.lastErr) (execTbegin s) :=
  .unlessFaulted ⟨.refl s, .refl s, rfl⟩ (.next ⟨.refl s, .refl s, rfl⟩)

theorem execTchar_keeps_table_and_fault (c : BitVec 8) :
    Leaves (fun t => s.SameTable t ∧ s.SameFault t ∧ t.tAct = s.tAct) (execTchar c s) :=
  .unlessFaulted ⟨.refl s, .refl s, rfl⟩ <|
    .ite (.next ⟨⟨s.addChar_dCount c, fun k => congrArg (DescTable.read · k) (s.addChar_desc c)⟩,
      ⟨s.addChar_fault c, s.addChar_faultCode c⟩, s.addChar_tAct c⟩) (.next ⟨.refl s, .refl s, rfl⟩)

/-- TEND faults on an open text of more than 32 digits only (R134). -/
theorem execTend_keeps_fault (h : s.tOver = false ∨ s.tBad = true ∨ s.tAct = false) :
    Leaves s.SameFault (execTend s) :=
  .unlessFaulted (.refl s) <|
    .ite_of (fun _ => .next (.refl s)) fun hopen =>
    .ite_of (fun _ => .next (.refl s)) fun hbad =>
    .ite_of (fun hover => by
      obtain hno | hyes | hclosed := h
      · simp [hno] at hover
      · exact absurd hyes hbad
      · simp [hclosed] at hopen) fun _ =>
    .ite (.next (.refl s)) (.next (.refl s))

theorem execDrd_keeps_table_text_and_fault (idx : BitVec 16) :
    Leaves (fun t => s.SameTable t ∧ s.SameText t ∧ s.SameFault t) (execDrd idx s) :=
  .unlessFaulted ⟨.refl s, .refl s, .refl s⟩ <|
    .ite (.next ⟨.refl s, .refl s, .refl s⟩) (.next ⟨.refl s, .refl s, .refl s⟩)

end Descriptor

/-- Settles O55: the frame of each of the five commands, and what each of them leaves beyond it. -/
theorem frameDescriptorCommands : Obligations.FrameDescriptorCommands := by
  refine fun s t _ => ⟨fun i hi h => ?_, fun w v => execDpush_keeps_text_and_fault s w v t,
    execTbegin_keeps_table_and_errors s t, fun c => execTchar_keeps_table_and_fault s c t,
    fun h hquiet => execTend_keeps_fault s hquiet t h, fun x => execDrd_keeps_table_text_and_fault s x t⟩
  obtain ⟨w, v, rfl⟩ | rfl | ⟨c, rfl⟩ | rfl | ⟨x, rfl⟩ := hi
  · exact execDpush_frame s w v t h
  · exact execTbegin_frame s t h
  · exact execTchar_frame s c t h
  · exact execTend_frame s t h
  · exact execDrd_frame s x t h

/-! ## Buffer access (42_buffer.md R191-R193) -/

/-- What the three commands of buffer access leave: all but BUF, BLEN and LASTERR. -/
def State.BufferFrame (s t : State) : Prop :=
  s.SameFault t ∧ s.SameTable t ∧ s.SameText t ∧ s.SamePacker t ∧ s.SameSnapshot t ∧ s.SameSession t
  ∧ s.SameOutside t ∧ t.freeSeq = s.freeSeq

theorem State.BufferFrame.refl (s : State) : s.BufferFrame s :=
  ⟨.refl s, .refl s, .refl s, .refl s, .refl s, .refl s, .refl s, rfl⟩

section Buffer
variable (s : State)

/-- BUFRD stores nothing. -/
theorem execBufrd_frame (idx : BitVec 16) :
    Leaves (fun t => s.BufferFrame t ∧ s.SameBuffer t) (execBufrd idx s) :=
  .unlessFaulted ⟨.refl s, .refl s⟩ (.ite (.next ⟨.refl s, .refl s⟩) (.next ⟨.refl s, .refl s⟩))

/-- BUFWR stores to the unit that its operand names, and only below BLEN. -/
def State.BufwrFrame (idx : BitVec 16) (t : State) : Prop :=
  t.bLen = s.bLen ∧ (∀ a, a ≠ indexOf idx → t.buf.read a = s.buf.read a)
  ∧ (s.bLen.toNat ≤ indexOf idx → s.SameBuffer t)

theorem execBufwr_frame (idx : BitVec 16) (u : Byte) :
    Leaves (fun t => s.BufferFrame t ∧ s.BufwrFrame idx t) (execBufwr idx u s) :=
  have hquiet : s.BufferFrame s ∧ s.BufwrFrame idx s := ⟨.refl s, rfl, fun _ _ => rfl, fun _ => .refl s⟩
  .unlessFaulted hquiet <|
    .ite_of (fun _ => .next hquiet) fun hlt =>
      .next ⟨.refl s, rfl, fun _ ha => Memory.read_write_other ha u, fun hle => absurd hle hlt⟩

/-- SETLEN stores below BUF_UNITS, and to none when the length is above it. -/
def State.SetlenFrame (n : BitVec 16) (t : State) : Prop :=
  (∀ a, s.cfg.bufUnits ≤ a → t.buf.read a = s.buf.read a) ∧ (s.cfg.bufUnits < indexOf n → s.SameBuffer t)

theorem execSetlen_frame (n : BitVec 16) :
    Leaves (fun t => s.BufferFrame t ∧ s.SetlenFrame n t) (execSetlen n s) :=
  have hquiet : s.BufferFrame s ∧ s.SetlenFrame n s := ⟨.refl s, fun _ _ => rfl, fun _ => .refl s⟩
  .unlessFaulted hquiet <|
    .ite_of (fun _ => .next hquiet) fun hle =>
      .next ⟨.refl s,
        fun _ ha => (Memory.read_zeroBelow _ _ _).trans (if_neg (Nat.not_lt.mpr ha)), fun hlt => absurd hlt hle⟩

end Buffer

/-- Settles O56: the frame of each of the three commands. -/
theorem frameBufferCommands : Obligations.FrameBufferCommands := by
  refine fun s t _ => ⟨fun i hi h => ?_, fun x h => (execBufrd_frame s x t h).2,
    fun x b h => (execBufwr_frame s x b t h).2, fun n h => (execSetlen_frame s n t h).2⟩
  obtain ⟨x, rfl⟩ | ⟨x, b, rfl⟩ | ⟨n, rfl⟩ := hi
  · exact (execBufrd_frame s x t h).1
  · exact (execBufwr_frame s x b t h).1
  · exact (execSetlen_frame s n t h).1

/-! ## PACK (41_packer.md R161) -/

/-- PACK leaves the units at or above BUF_UNITS, which are 0 before and after it (10_state.md R27). -/
theorem State.Inv.read_of_packsTo {s : State} (h : s.Inv) {m : Memory} (hm : s.PacksTo m) {a : Nat}
    (ha : s.cfg.bufUnits ≤ a) : m.read a = s.buf.read a := by
  have hfits := h.unitsFor_le_bufUnits
  obtain ⟨_, _, _, ⟨_, hlt, hlen⟩, _⟩ := h
  rw [Memory.read_eq_zero_of_ge hm.units_lt (hfits.trans ha), Memory.read_eq_zero_of_ge hlt (hlen.trans ha)]

/-- Settles O57: PACK is refused, or its next state is `State.packed` (`State.Inv.exec_pack`). -/
theorem framePack : Obligations.FramePack := by
  intro s t hinv h
  cases hf : s.fault with
  | true =>
    cases (exec_of_faulted (i := .pack) hf nofun).symm.trans h
    exact ⟨.refl s, rfl, .refl s, .refl s, .refl s, .refl s, rfl, fun _ _ => rfl⟩
  | false =>
    obtain ⟨m, hpacks, hexec⟩ := hinv.exec_pack hf
    cases hexec.symm.trans h
    exact ⟨.refl s, rfl, .refl s, .refl s, .refl s, .refl s, rfl, fun _ => hinv.read_of_packsTo hpacks⟩

/-! ## UOPEN and UNEXT (43_unpacker.md R212, R213) -/

/-- What UOPEN and UNEXT leave: all but the unpacker and the classifier port. -/
def State.UnpackerFrame (s t : State) : Prop :=
  s.SameFault t ∧ t.lastErr = s.lastErr ∧ s.SameTable t ∧ s.SameText t ∧ s.SameBuffer t ∧ s.SamePacker t
  ∧ t.cfg = s.cfg ∧ t.host.input = s.host.input ∧ t.freeSeq = s.freeSeq

theorem State.UnpackerFrame.refl (s : State) : s.UnpackerFrame s :=
  ⟨.refl s, rfl, .refl s, .refl s, .refl s, .refl s, rfl, rfl, rfl⟩

section Unpacker
variable (s : State)

theorem execUopen_frame : Leaves s.UnpackerFrame (execUopen s) := .unlessFaulted (.refl s) (.next (.refl s))

/-- UOPEN stores to the units of UBUF below BLEN. -/
theorem execUopen_keeps_port_and_units (hwf : s.uBuf.wf = true) :
    Leaves (fun t => t.cls = s.cls ∧ ∀ a, s.bLen.toNat ≤ a → t.uBuf.read a = s.uBuf.read a) (execUopen s) :=
  .unlessFaulted ⟨rfl, fun _ _ => rfl⟩ <|
    .next ⟨rfl, fun _ ha => (Memory.read_copyFrom hwf _ _ _).trans (if_neg (Nat.not_lt.mpr ha))⟩

theorem unextLoop_frame (as : List ClsAnswer) :
    s.UnpackerFrame (unextLoop as s) ∧ s.SameSnapshot (unextLoop as s) := by
  refine unextLoop_induction (P := fun v => s.UnpackerFrame v ∧ s.SameSnapshot v)
    (R := fun v => s.UnpackerFrame v ∧ s.SameSnapshot v) ?goes_on ?ends ?emits ?waits as s ⟨.refl s, .refl s⟩
  case goes_on => exact fun _ _ hv _ => hv
  case ends => exact fun _ hv _ => hv
  case emits => exact fun _ _ _ hv _ => hv
  case waits => exact fun _ hv _ => hv

theorem execUnext_frame : Leaves (fun t => s.UnpackerFrame t ∧ s.SameSnapshot t) (execUnext s) := by
  refine .unlessFaulted ⟨.refl s, .refl s⟩ ?_
  split
  · exact .next ⟨.refl s, .refl s⟩
  · exact .next (unextLoop_frame s _)

end Unpacker

/-- Settles O58: the frame of the two commands. -/
theorem frameUnpackerCommands : Obligations.FrameUnpackerCommands := by
  refine fun s t hwf => ⟨fun i hi h => ?_, execUopen_keeps_port_and_units s hwf t,
    fun h => (execUnext_frame s t h).2⟩
  obtain rfl | rfl := hi
  · exact execUopen_frame s t h
  · exact (execUnext_frame s t h).1

/-! ## NOP, RDREG and CLR (44_control.md R250-R252) -/

/-- What NOP and RDREG leave: all but the response and LASTERR. -/
def State.ControlFrame (s t : State) : Prop :=
  s.SameFault t ∧ s.SameTable t ∧ s.SameText t ∧ s.SameBuffer t ∧ s.SamePacker t ∧ s.SameSnapshot t
  ∧ s.SameSession t ∧ s.SameOutside t ∧ t.freeSeq = s.freeSeq

theorem State.ControlFrame.refl (s : State) : s.ControlFrame s :=
  ⟨.refl s, .refl s, .refl s, .refl s, .refl s, .refl s, .refl s, .refl s, rfl⟩

/-- The register numbers 0 to 0x13 are all defined (10_state.md R35). -/
theorem regOfNumber_ne_none_of_le : ∀ {r : BitVec 8}, r.toNat ≤ 0x13 → regOfNumber r ≠ none := by decide

section Control
variable (s : State)

theorem execNop_frame : Leaves (fun t => s.ControlFrame t ∧ t.lastErr = s.lastErr) (execNop s) :=
  .unlessFaulted ⟨.refl s, rfl⟩ (.next ⟨.refl s, rfl⟩)

theorem execRdreg_frame (r : BitVec 8) :
    Leaves (fun t => s.ControlFrame t ∧ (r.toNat ≤ 0x13 → t.lastErr = s.lastErr)) (execRdreg r s) := by
  unfold execRdreg
  split
  · exact .next ⟨.refl s, fun _ => rfl⟩
  next hnone =>
    exact .unlessFaulted ⟨.refl s, fun _ => rfl⟩
      (.next ⟨.refl s, fun hle => absurd hnone (regOfNumber_ne_none_of_le hle)⟩)

theorem execClr_keeps_fault_and_outside :
    Leaves (fun t => s.SameFault t ∧ t.cfg = s.cfg ∧ t.host.input = s.host.input ∧ t.cls.answers = s.cls.answers
      ∧ t.cls.queries = s.cls.queries) (execClr s) :=
  .unlessFaulted ⟨.refl s, rfl, rfl, rfl, rfl⟩ (.next ⟨.refl s, rfl, rfl, rfl, rfl⟩)

end Control

/-- Settles O59: the frame of NOP and of RDREG, and what CLR keeps. -/
theorem frameControlCommands : Obligations.FrameControlCommands := by
  refine fun s t => ⟨fun i hi h => ?_, fun h => (execNop_frame s t h).2,
    fun r h => (execRdreg_frame s r t h).2, execClr_keeps_fault_and_outside s t⟩
  obtain rfl | ⟨r, rfl⟩ := hi
  · exact (execNop_frame s t h).1
  · exact (execRdreg_frame s r t h).1

/-! ## A session reads only its snapshot (20_memory.md R76) -/

/-- PACK writes neither the snapshot nor the session, whatever its write loop answers. -/
theorem execPack_keeps_session (s : State) : Leaves (fun t => s.SameSnapshot t ∧ s.SameSession t) (execPack s) := by
  refine .unlessFaulted ⟨.refl s, .refl s⟩ ?_
  dsimp only
  split
  case h_1 => exact .next ⟨.refl s, .refl s⟩
  case h_2 => exact .next ⟨.refl s, .refl s⟩

/-- `s'` has all that a UNEXT of `s` reads, and the host has received the same responses. -/
def State.AgreesOnSession (s s' : State) : Prop :=
  s.SameSnapshot s' ∧ s.SameSession s' ∧ s'.cls = s.cls ∧ s'.cfg = s.cfg ∧ s'.host.output = s.host.output

section Agrees
variable {s s' : State} (h : s.AgreesOnSession s')
include h

theorem State.AgreesOnSession.takeBit : s.takeBit.AgreesOnSession s'.takeBit := by
  obtain ⟨⟨hlen, hread⟩, ⟨hstate, hunit, hoff, hpatLen, hpatVal, hdiscard, hcount⟩, hcls, hcfg, hout⟩ := h
  have hbit : s'.nextBit = s.nextBit := by simp only [State.nextBit, hread, hunit, hoff]
  refine ⟨⟨hlen, hread⟩, ⟨hstate, ?_, ?_, ?_, ?_, hdiscard, hcount⟩, ?_, hcfg, hout⟩
  · simp only [State.takeBit_uCurUnit, hunit, hoff]
  · simp only [State.takeBit_uCurOff, hoff]
  · simp only [State.takeBit_patLen, hpatLen]
  · simp only [State.takeBit_patVal, hpatVal, hbit]
  · simp only [State.takeBit_cls, hcls, hpatLen, hpatVal, hbit]

theorem State.AgreesOnSession.answered (rest : List ClsAnswer) :
    (s.answered rest).AgreesOnSession (s'.answered rest) := by
  obtain ⟨hsnapshot, hsession, hcls, hcfg, hout⟩ := h
  exact ⟨hsnapshot, hsession, by simp [hcls], hcfg, hout⟩

theorem State.AgreesOnSession.emit (t : Val) : (s.emit t).AgreesOnSession (s'.emit t) := by
  obtain ⟨hsnapshot, ⟨hstate, hunit, hoff, _, _, hdiscard, hcount⟩, hcls, hcfg, hout⟩ := h
  exact ⟨hsnapshot, ⟨hstate, hunit, hoff, rfl, rfl, hdiscard, congrArg (· + 1) hcount⟩, hcls, hcfg,
    by simp [hcfg, hout]⟩

theorem State.AgreesOnSession.endSession : s.endSession.AgreesOnSession s'.endSession := by
  obtain ⟨hsnapshot, ⟨_, hunit, hoff, hpatLen, _, _, hcount⟩, hcls, hcfg, hout⟩ := h
  exact ⟨hsnapshot, ⟨rfl, hunit, hoff, rfl, rfl, hpatLen, hcount⟩, hcls, hcfg, by simp [hout]⟩

/-- Both states meet the end of the snapshot at the same time. -/
theorem State.AgreesOnSession.unit_eq_uLen_iff : s'.uCurUnit = s'.uLen ↔ s.uCurUnit = s.uLen := by
  obtain ⟨⟨hlen, _⟩, ⟨_, hunit, _⟩, _⟩ := h
  rw [hlen, hunit]

/-- The loop of UNEXT keeps the agreement: by the answers. -/
theorem State.AgreesOnSession.unextLoop (as : List ClsAnswer) :
    (unextLoop as s).AgreesOnSession (unextLoop as s') := by
  induction as generalizing s s' with
  | nil =>
    by_cases hend : s.uCurUnit = s.uLen
    · rw [unextLoop_of_end hend, unextLoop_of_end (h.unit_eq_uLen_iff.mpr hend)]
      exact h.endSession
    · rw [unextLoop_of_silence hend, unextLoop_of_silence (mt h.unit_eq_uLen_iff.mp hend)]
      exact h.takeBit
  | cons a as ih =>
    by_cases hend : s.uCurUnit = s.uLen
    · rw [unextLoop_of_end hend, unextLoop_of_end (h.unit_eq_uLen_iff.mpr hend)]
      exact h.endSession
    · have hend' := mt h.unit_eq_uLen_iff.mp hend
      cases hm : a.isMatch with
      | true =>
        rw [unextLoop_of_match hend hm, unextLoop_of_match hend' hm]
        exact (h.takeBit.answered as).emit a.t
      | false =>
        rw [unextLoop_of_miss hend hm, unextLoop_of_miss hend' hm]
        exact ih (h.takeBit.answered as)

end Agrees

/-- The answer of UNEXT in two states that agree. -/
theorem exec_unext_of_agrees {s s' t : State} (h : s.AgreesOnSession s') (hf : s.fault = false)
    (hf' : s'.fault = false) (hexec : exec .unext s = .next t) :
    ∃ t', exec .unext s' = .next t' ∧ t.AgreesOnSession t' := by
  have ⟨hsnapshot, hsession, hcls, hcfg, hout⟩ := h
  have ⟨hstate, _⟩ := hsession
  cases hu : s.uState with
  | exhausted =>
    cases (exec_unext_of_exhausted hf hu).symm.trans hexec
    exact ⟨_, exec_unext_of_exhausted hf' (hstate.trans hu), hsnapshot, hsession, hcls, hcfg, by simp [hout]⟩
  | scanning =>
    cases (exec_unext_of_scanning hf hu).symm.trans hexec
    refine ⟨_, exec_unext_of_scanning hf' (hstate.trans hu), ?_⟩
    rw [hcls]
    exact h.unextLoop _

/-- Settles O54: the frames of the three commands, and UNEXT in two states that agree. -/
theorem sessionReadsOnlyItsSnapshot : Obligations.SessionReadsOnlyItsSnapshot := by
  refine ⟨fun s t i hi h => ?keeps, fun s s' t hsnapshot hsession hcls hcfg hf hf' hout hexec => ?reads⟩
  case keeps =>
    obtain rfl | ⟨x, b, rfl⟩ | ⟨n, rfl⟩ := hi
    · exact execPack_keeps_session s t h
    · obtain ⟨⟨_, _, _, _, hsnapshot, hsession, _⟩, _⟩ := execBufwr_frame s x b t h
      exact ⟨hsnapshot, hsession⟩
    · obtain ⟨⟨_, _, _, _, hsnapshot, hsession, _⟩, _⟩ := execSetlen_frame s n t h
      exact ⟨hsnapshot, hsession⟩
  case reads =>
    obtain ⟨t', hexec', _, hsession', hcls', _, hout'⟩ :=
      exec_unext_of_agrees ⟨hsnapshot, hsession, hcls, hcfg, hout⟩ hf hf' hexec
    exact ⟨t', hexec', hsession', hcls', hout'⟩

end Sys2Proof.Machine
end

section
/-! Proofs about responses (60_exceptions.md R270, R271, 30_encoding.md R90, R92): every command answers, with one
response or, for UNEXT, with a query that waits, and every response has a listed status. -/

namespace Sys2Proof.Machine

/-! ## One response, or a wait -/

/-- From `s` to `t` one response went out, and no UNEXT was left in progress that was not in progress before. -/
def State.Completes (s t : State) : Prop :=
  (∃ st aux data, t.host.output = s.host.output ++ [rspWord st aux data])
  ∧ (s.cls.pending = none → t.cls.pending = none)

/-- From `s` to `t` no response went out, and `t` is a UNEXT in progress. -/
def State.Waits (s t : State) : Prop := t.cls.pending ≠ none ∧ t.host.output = s.host.output

theorem State.completes_reply (s : State) (st : Status) (aux : BitVec 8) (data : Val) :
    s.Completes (s.reply (rspWord st aux data)) :=
  ⟨⟨st, aux, data, rfl⟩, id⟩

section Completes
variable (s : State)

theorem performIllegal_completes : Leaves s.Completes (performIllegal s) :=
  .unlessFaulted (s.completes_reply _ _ _) (.next (s.completes_reply _ _ _))

theorem execRdreg_completes (r : BitVec 8) : Leaves s.Completes (execRdreg r s) := by
  unfold execRdreg
  split
  · exact .next (s.completes_reply _ _ _)
  · exact .unlessFaulted (s.completes_reply _ _ _) (.next (s.completes_reply _ _ _))

theorem execTchar_completes (c : BitVec 8) : Leaves s.Completes (execTchar c s) := by
  refine .unlessFaulted (s.completes_reply _ _ _) (.ite (.next ?_) (.next (s.completes_reply _ _ _)))
  rw [State.addChar_eq]
  exact s.completes_reply _ _ _

theorem execTend_completes : Leaves s.Completes (execTend s) :=
  .unlessFaulted (s.completes_reply _ _ _) <|
    .ite (.next (s.completes_reply _ _ _)) <|
    .ite (.next (s.completes_reply _ _ _)) <|
    .ite (.next (s.completes_reply _ _ _)) <|
    .ite (.next (s.completes_reply _ _ _)) (.next (s.completes_reply _ _ _))

theorem execPack_completes : Leaves s.Completes (execPack s) := by
  refine .unlessFaulted (s.completes_reply _ _ _) ?_
  dsimp only
  split
  case h_1 => exact .next (s.completes_reply _ _ _)
  case h_2 => exact .next (s.completes_reply _ _ _)

/-- UNEXT apart, every command sends its response at once. -/
theorem exec_completes {i : Instr} (hi : i ≠ .unext) : Leaves s.Completes (exec i s) := by
  have hreply := s.completes_reply
  cases i with
  | nop => exact .unlessFaulted (hreply _ _ _) (.next (hreply _ _ _))
  | clr => exact .unlessFaulted (hreply _ _ _) (.next ⟨⟨_, _, _, rfl⟩, fun _ => rfl⟩)
  | rdreg r => exact execRdreg_completes s r
  | dpush w v =>
    exact .unlessFaulted (hreply _ _ _)
      (.ite (.next (hreply _ _ _)) (.ite (.next (hreply _ _ _)) (.next (hreply _ _ _))))
  | tbegin => exact .unlessFaulted (hreply _ _ _) (.next (hreply _ _ _))
  | tchar c => exact execTchar_completes s c
  | tend => exact execTend_completes s
  | drd idx => exact .unlessFaulted (hreply _ _ _) (.ite (.next (hreply _ _ _)) (.next (hreply _ _ _)))
  | pack => exact execPack_completes s
  | bufrd idx => exact .unlessFaulted (hreply _ _ _) (.ite (.next (hreply _ _ _)) (.next (hreply _ _ _)))
  | bufwr idx u => exact .unlessFaulted (hreply _ _ _) (.ite (.next (hreply _ _ _)) (.next (hreply _ _ _)))
  | setlen n => exact .unlessFaulted (hreply _ _ _) (.ite (.next (hreply _ _ _)) (.next (hreply _ _ _)))
  | uopen => exact .unlessFaulted (hreply _ _ _) (.next (hreply _ _ _))
  | unext => exact absurd rfl hi

/-- The loop of UNEXT sends one response or waits for the classifier (43_unpacker.md R213, R305). -/
theorem unextLoop_completes_or_waits (as : List ClsAnswer) :
    s.Completes (unextLoop as s) ∨ s.Waits (unextLoop as s) := by
  refine unextLoop_induction (P := fun v => v.host = s.host ∧ (s.cls.pending = none → v.cls.pending = none))
    (R := fun v => s.Completes v ∨ s.Waits v) ?goes_on ?ends ?emits ?waits as s ⟨rfl, id⟩
  case goes_on => exact fun v rest ⟨hhost, _⟩ _ => ⟨hhost, fun _ => rfl⟩
  case ends => exact fun v ⟨hhost, hp⟩ _ => .inl ⟨⟨.endOfSeq, 0, 0, by rw [State.endSession_host, hhost]⟩, hp⟩
  case emits =>
    refine fun v rest t ⟨hhost, _⟩ _ => .inl ⟨⟨.ok, 0, portValue v.cfg t, ?_⟩, fun _ => rfl⟩
    rw [← hhost]
    rfl
  case waits => exact fun v ⟨hhost, _⟩ _ => .inr ⟨Option.some_ne_none _, congrArg HostPort.output hhost⟩

theorem execUnext_completes_or_waits : Leaves (fun t => s.Completes t ∨ s.Waits t) (execUnext s) := by
  refine .unlessFaulted (.inl (s.completes_reply _ _ _)) ?_
  split
  · exact .next (.inl (s.completes_reply _ _ _))
  · exact .next (unextLoop_completes_or_waits s _)

theorem exec_completes_or_waits (i : Instr) :
    Leaves (fun t => s.Completes t ∨ (i = .unext ∧ s.Waits t)) (exec i s) := by
  intro t h
  by_cases hi : i = .unext
  · subst hi
    exact (execUnext_completes_or_waits s t h).imp_right fun hw => ⟨rfl, hw⟩
  · exact .inl (exec_completes s hi t h)

end Completes

/-! ## Every step answers -/

theorem performWord_exists_next (w : CmdWord) (s : State) : ∃ t, performWord w s = .next t := by
  cases hd : decode w with
  | ok i =>
    rw [performWord_of_ok hd]
    exact (exec_ends i s).exists_next
  | error e =>
    rw [performWord_of_error hd]
    exact (performIllegal_ends s).exists_next

theorem step_exists_next (s : State) : ∃ t, step s = .next t := by
  match hi : s.host.input with
  | .reset :: rest => exact ⟨_, step_of_reset hi⟩
  | [] =>
    by_cases hp : s.cls.pending = none
    · exact ⟨_, step_of_idle hp hi⟩
    · exact ⟨_, step_of_waiting hp (by simp [hi])⟩
  | .command w :: rest =>
    by_cases hp : s.cls.pending = none
    · rw [step_of_command hp hi]
      exact performWord_exists_next w _
    · exact ⟨_, step_of_waiting hp (by simp [hi])⟩

/-- Settles O11: a command's answer exists (`exec_ends`) and completes or waits; so does a step's. -/
theorem everyCommandAnswers : Obligations.EveryCommandAnswers := by
  refine ⟨fun i s => ?_, step_exists_next⟩
  obtain ⟨t, ht⟩ := (exec_ends i s).exists_next
  refine ⟨t, ht, (exec_completes_or_waits s i t ht).imp_left fun ⟨hresponse, _⟩ => hresponse⟩

/-! ## One response for each command -/

/-- A UNEXT in progress that goes on completes or waits. -/
theorem resumeUnext_completes_or_waits {s : State} (hp : s.cls.pending ≠ none) :
    (∃ rest, (s.answered rest).Completes (resumeUnext s)) ∨ s.Waits (resumeUnext s) := by
  obtain ⟨_, h⟩ | ⟨a, rest, _, _, h⟩ | ⟨a, rest, _, _, h⟩ := resumeUnext_cases s <;> rw [h]
  · exact .inr ⟨hp, rfl⟩
  · exact .inl ⟨rest, ⟨_, _, _, rfl⟩, fun _ => rfl⟩
  · exact (unextLoop_completes_or_waits (s.answered rest) rest).imp_left fun hc => ⟨rest, hc⟩

/-- Settles O16: the ending of a command (`step_of_command_ends`) takes one word and completes or waits; while a UNEXT
is in progress the step is its wait. -/
theorem oneResponsePerCommand : Obligations.OneResponsePerCommand := by
  refine ⟨fun s t w rest hp hi h => ?command, fun s t hp hi h => ?waiting⟩
  case command =>
    obtain ⟨_, hends, _⟩ := step_of_command_ends hp hi h
    obtain ⟨_, hinput, _⟩ := hends.next_cases
    refine ⟨hinput, ?_⟩
    rw [step_of_command hp hi] at h
    cases hd : decode w with
    | ok i =>
      rw [performWord_of_ok hd] at h
      obtain ⟨⟨_, _, _, hout⟩, hpend⟩ | ⟨rfl, hwaits⟩ := exec_completes_or_waits (s.withInput rest) i t h
      · exact .inl ⟨hpend hp, _, hout⟩
      · exact .inr ⟨rfl, hwaits⟩
    | error e =>
      rw [performWord_of_error hd] at h
      obtain ⟨⟨_, _, _, hout⟩, hpend⟩ := performIllegal_completes (s.withInput rest) t h
      exact .inl ⟨hpend hp, _, hout⟩
  case waiting =>
    cases (step_of_waiting hp hi).symm.trans h
    obtain ⟨_, hinput, _⟩ := (resumeUnext_ends s).1.next_cases
    refine ⟨hinput, ?_⟩
    obtain ⟨rest, ⟨_, _, _, hout⟩, hpend⟩ | hwaits := resumeUnext_completes_or_waits hp
    · exact .inl ⟨hpend rfl, _, hout⟩
    · exact .inr hwaits

/-! ## The response word -/

/-- Bits 47:32 of a response are 0 (30_encoding.md R92). -/
theorem rspWord_zero_field (st : Status) (aux : BitVec 8) (data : Val) :
    (rspWord st aux data).extractLsb' 32 16 = 0 := by
  apply BitVec.eq_of_toNat_eq
  rw [BitVec.extractLsb'_toNat, Nat.shiftRight_eq_div_pow, rspWord_toNat]
  have := data.isLt
  simp only [BitVec.ofNat_eq_ofNat, BitVec.toNat_ofNat]
  omega

theorem Status.code_mem (st : Status) :
    st.code ∈ [0x00#8, 0x01#8, 0x10#8, 0x11#8, 0x12#8, 0x13#8, 0x14#8, 0x20#8, 0x21#8, 0x3F#8] := by
  cases st <;> decide

/-- `t` has the responses of `s`, or one more, which is a word of R92 with a status of R271. -/
def State.RespondsListed (s t : State) : Prop :=
  t.host.output = s.host.output
  ∨ ∃ r, t.host.output = s.host.output ++ [r] ∧ r.extractLsb' 32 16 = 0
      ∧ r.extractLsb' 56 8 ∈ [0x00#8, 0x01#8, 0x10#8, 0x11#8, 0x12#8, 0x13#8, 0x14#8, 0x20#8, 0x21#8, 0x3F#8]

theorem Ends.respondsListed {quiet : BitVec 8} {s t : State} (h : Ends quiet s (.next t)) : s.RespondsListed t := by
  obtain ⟨_, _, ⟨st, aux, data, hout, _⟩ | ⟨hout, _⟩⟩ := h.next_cases
  · exact .inr ⟨_, hout, rspWord_zero_field st aux data, rspWord_st st aux data ▸ st.code_mem⟩
  · exact .inl hout

/-- Settles O17: by the cases of a step, whose responses are those of the endings. -/
theorem responsesHaveListedStatus : Obligations.ResponsesHaveListedStatus := by
  intro s t hstep
  obtain ⟨_, _, rfl⟩ | ⟨rest, _, rfl⟩ | ⟨_, rest, i, _, _, _, hexec⟩ | ⟨_, rest, _, _, _, _, hillegal⟩
    | ⟨_, _, _, rfl⟩ := step_next hstep
  · exact .inl rfl
  · exact .inl rfl
  · exact (hexec ▸ exec_ends i (s.withInput rest)).respondsListed
  · exact (hillegal ▸ performIllegal_ends (s.withInput rest)).respondsListed
  · exact (resumeUnext_ends s).1.respondsListed

end Sys2Proof.Machine
end

section
/-! Proofs about what commands do to the memories: their canonical form, the reads without a side effect
(20_memory.md R68), and the table's appended entries (40_descriptor.md R137). -/

namespace Sys2Proof.Machine

/-! ## The canonical form (log entry 9) -/

/-- BUF, UBUF and DESC are in canonical form. -/
def State.Canonical (s : State) : Prop := s.buf.wf = true ∧ s.uBuf.wf = true ∧ s.desc.wf = true

/-- The write loop only ORs into units. -/
theorem wf_of_writeField (bLen : Nat) (v : Val) (fuel : Nat) {n : Nat} {c c' : Cursor} {m m' : Memory}
    (hm : m.wf = true) (h : writeField bLen v fuel n c m = .ok (c', m')) : m'.wf = true := by
  induction fuel generalizing n c m with
  | zero =>
    cases h
    exact hm
  | succ fuel ih =>
    simp only [writeField] at h
    split at h
    · cases h
      exact hm
    · split at h
      · cases h
      · split at h
        · cases h
          exact Memory.wf_orAt hm _ _
        · exact ih (Memory.wf_orAt hm _ _) h

theorem wf_of_writeFields (bLen : Nat) (ds : List Desc) {c c' : Cursor} {m m' : Memory} (hm : m.wf = true)
    (h : writeFields bLen ds c m = .ok (c', m')) : m'.wf = true := by
  induction ds generalizing c m with
  | nil =>
    cases h
    exact hm
  | cons d ds ih =>
    rw [writeFields] at h
    split at h
    · cases h
    next hwrite => exact ih (wf_of_writeField _ _ _ hm hwrite) h

section Canonical
variable {s : State} (h : s.Canonical)
include h

theorem performIllegal_canonical : Leaves State.Canonical (performIllegal s) := .unlessFaulted h (.next h)

theorem execRdreg_canonical (r : BitVec 8) : Leaves State.Canonical (execRdreg r s) := by
  unfold execRdreg
  split
  · exact .next h
  · exact .unlessFaulted h (.next h)

theorem State.Canonical.appendDesc (d : Desc) : (s.appendDesc d).Canonical := by
  obtain ⟨hbuf, hubuf, hdesc⟩ := h
  exact ⟨hbuf, hubuf, DescTable.wf_write hdesc _ _⟩

theorem State.Canonical.addChar (c : BitVec 8) : (s.addChar c).Canonical := by
  rw [State.addChar_eq]
  exact h

theorem execPack_canonical : Leaves State.Canonical (execPack s) := by
  have ⟨hbuf, hubuf, hdesc⟩ := h
  refine .unlessFaulted h ?_
  dsimp only
  split
  case h_1 => exact .next ⟨sparseWf_fill rfl _ _, hubuf, sparseWf_fill rfl _ _⟩
  case h_2 hwrite =>
    exact .next ⟨wf_of_writeFields _ _ (Memory.wf_zeroBelow hbuf _) hwrite, hubuf, DescTable.wf_zeroBelow hdesc _⟩

theorem unextLoop_canonical (as : List ClsAnswer) : (unextLoop as s).Canonical := by
  refine unextLoop_induction (P := State.Canonical) (R := State.Canonical) ?goes_on ?ends ?emits ?waits as s h
  case goes_on => exact fun _ _ hv _ => hv
  case ends => exact fun _ hv _ => hv
  case emits => exact fun _ _ _ hv _ => hv
  case waits => exact fun _ hv _ => hv

theorem resumeUnext_canonical : (resumeUnext s).Canonical := by
  obtain ⟨_, hr⟩ | ⟨a, rest, _, _, hr⟩ | ⟨a, rest, _, _, hr⟩ := resumeUnext_cases s <;> rw [hr]
  · exact h
  · exact h
  · exact unextLoop_canonical (s := s.answered rest) h rest

theorem execUnext_canonical : Leaves State.Canonical (execUnext s) := by
  refine .unlessFaulted h ?_
  split
  · exact .next h
  · exact .next (unextLoop_canonical h _)

theorem exec_canonical (i : Instr) : Leaves State.Canonical (exec i s) := by
  have ⟨hbuf, hubuf, hdesc⟩ := h
  cases i with
  | nop => exact .unlessFaulted h (.next h)
  | clr => exact .unlessFaulted h (.next ⟨rfl, rfl, rfl⟩)
  | rdreg r => exact execRdreg_canonical h r
  | dpush w v => exact .unlessFaulted h (.ite (.next h) (.ite (.next h) (.next (h.appendDesc _))))
  | tbegin => exact .unlessFaulted h (.next h)
  | tchar c => exact .unlessFaulted h (.ite (.next (h.addChar c)) (.next h))
  | tend =>
    exact .unlessFaulted h
      (.ite (.next h) (.ite (.next h) (.ite (.next h) (.ite (.next h) (.next (h.appendDesc _))))))
  | drd idx => exact .unlessFaulted h (.ite (.next h) (.next h))
  | pack => exact execPack_canonical h
  | bufrd idx => exact .unlessFaulted h (.ite (.next h) (.next h))
  | bufwr idx u => exact .unlessFaulted h (.ite (.next h) (.next ⟨Memory.wf_write hbuf _ _, hubuf, hdesc⟩))
  | setlen n => exact .unlessFaulted h (.ite (.next h) (.next ⟨Memory.wf_zeroBelow hbuf _, hubuf, hdesc⟩))
  | uopen => exact .unlessFaulted h (.next ⟨hbuf, Memory.wf_copyFrom hubuf _ _, hdesc⟩)
  | unext => exact execUnext_canonical h

end Canonical

/-- Settles O20: by the cases of a step, each operation keeping the form of the memory it writes. -/
theorem stepKeepsMemoriesCanonical : Obligations.StepKeepsMemoriesCanonical := by
  intro s t hbuf hubuf hdesc hstep
  have h : s.Canonical := ⟨hbuf, hubuf, hdesc⟩
  obtain ⟨_, _, rfl⟩ | ⟨rest, _, rfl⟩ | ⟨_, rest, i, _, _, _, hexec⟩ | ⟨_, rest, _, _, _, _, hillegal⟩
    | ⟨_, _, _, rfl⟩ := step_next hstep
  · exact h
  · exact ⟨rfl, rfl, rfl⟩
  · exact exec_canonical (s := s.withInput rest) h i t hexec
  · exact performIllegal_canonical (s := s.withInput rest) h t hillegal
  · exact resumeUnext_canonical h

/-! ## Reads (20_memory.md R68) -/

/-- LASTERR after a response `r`: its status if that is an error code (60_exceptions.md R272), else the old one. -/
def lastErrAfterResponse (old : BitVec 8) (r : RspWord) : BitVec 8 :=
  if 0x10 ≤ (r.extractLsb' 56 8).toNat ∧ (r.extractLsb' 56 8).toNat ≤ 0x1F then r.extractLsb' 56 8 else old

/-- `t` is `s` after a response and what it does to LASTERR. -/
def State.OnlyResponds (s t : State) : Prop :=
  ∃ r e, t = State.reply { s with lastErr := e } r ∧ e = lastErrAfterResponse s.lastErr r

section Reads
variable (s : State) (aux : BitVec 8) (data info : Val)

theorem State.onlyResponds_quiet {st : Status} (hst : st = .ok ∨ st = .faulted) :
    s.OnlyResponds (s.reply (rspWord st aux data)) := by
  refine ⟨_, s.lastErr, rfl, ?_⟩
  rw [lastErrAfterResponse, rspWord_st]
  obtain rfl | rfl := hst
  · exact (if_neg (by decide)).symm
  · exact (if_neg (by decide)).symm

theorem raiseError_onlyResponds {st : Status} (hst : st = .errRange ∨ st = .errIllegal) :
    Leaves s.OnlyResponds (raiseError st info s) := by
  refine .next ⟨_, st.code, rfl, ?_⟩
  rw [lastErrAfterResponse, rspWord_st]
  obtain rfl | rfl := hst
  · exact (if_pos (by decide)).symm
  · exact (if_pos (by decide)).symm

theorem execBufrd_onlyResponds (idx : BitVec 16) : Leaves s.OnlyResponds (execBufrd idx s) :=
  .unlessFaulted (s.onlyResponds_quiet _ _ (.inr rfl)) <|
    .ite (raiseError_onlyResponds s _ (.inl rfl)) (.next (s.onlyResponds_quiet _ _ (.inl rfl)))

theorem execDrd_onlyResponds (idx : BitVec 16) : Leaves s.OnlyResponds (execDrd idx s) :=
  .unlessFaulted (s.onlyResponds_quiet _ _ (.inr rfl)) <|
    .ite (raiseError_onlyResponds s _ (.inl rfl)) (.next (s.onlyResponds_quiet _ _ (.inl rfl)))

theorem execRdreg_onlyResponds (r : BitVec 8) : Leaves s.OnlyResponds (execRdreg r s) := by
  unfold execRdreg
  split
  · exact .next (s.onlyResponds_quiet _ _ (.inl rfl))
  · exact .unlessFaulted (s.onlyResponds_quiet _ _ (.inr rfl)) (raiseError_onlyResponds s _ (.inr rfl))

end Reads

/-- What BUFWR does to BUF, and that it leaves what decides it: FAULT and BLEN. -/
theorem exec_bufwr_buf {s t : State} {idx : BitVec 16} {u : Byte} (h : exec (.bufwr idx u) s = .next t) :
    t.fault = s.fault ∧ t.bLen = s.bLen
    ∧ t.buf = if s.fault = false ∧ idx.toNat < s.bLen.toNat then s.buf.write idx.toNat u else s.buf := by
  cases hf : s.fault with
  | true =>
    cases (exec_of_faulted (i := .bufwr idx u) hf nofun).symm.trans h
    exact ⟨hf, rfl, (if_neg (by simp)).symm⟩
  | false =>
    rw [exec_bufwr hf] at h
    split at h
    next hle =>
      cases h
      exact ⟨hf, rfl, (if_neg fun ⟨_, hlt⟩ => absurd hlt (Nat.not_lt.mpr hle)).symm⟩
    next hlt =>
      cases h
      exact ⟨hf, rfl, (if_pos ⟨rfl, Nat.not_le.mp hlt⟩).symm⟩

/-- A unit written twice with the same value. -/
theorem Memory.write_write {m : Memory} (h : m.wf = true) (i : Nat) (u : Byte) :
    (m.write i u).write i u = m.write i u := by
  have hwf := Memory.wf_write h i u
  refine Memory.ext (Memory.wf_write hwf i u) hwf fun k => ?_
  rw [Memory.read_write hwf, Memory.read_write h]
  by_cases hk : k = i <;> simp [hk]

/-- Settles O23: the answers of the three reads, and BUFWR as a function of FAULT and BLEN, which it leaves. -/
theorem readsHaveNoSideEffect : Obligations.ReadsHaveNoSideEffect := by
  refine ⟨fun s t i hi h => ?reads, fun s t u x b hwf ht hu => ?idempotent⟩
  case reads =>
    obtain ⟨x, rfl⟩ | ⟨x, rfl⟩ | ⟨r, rfl⟩ := hi
    · exact execBufrd_onlyResponds s x t h
    · exact execDrd_onlyResponds s x t h
    · exact execRdreg_onlyResponds s r t h
  case idempotent =>
    obtain ⟨hfault, hlen, hbuf⟩ := exec_bufwr_buf ht
    obtain ⟨_, _, hbuf'⟩ := exec_bufwr_buf hu
    rw [hfault, hlen] at hbuf'
    split at hbuf
    · rw [hbuf', if_pos ‹_›, hbuf, Memory.write_write hwf]
    · rw [hbuf', if_neg ‹_›]

end Sys2Proof.Machine
end

section
/-! Proofs about which step faults (60_exceptions.md R273, 41_packer.md R167), and which step changes the table's
appended entries (40_descriptor.md R137): most commands do neither by their frames. -/

namespace Sys2Proof.Machine

theorem Leaves.mono {P Q : State → Prop} {o : Host.Outcome State Fault Refusal} (h : Leaves P o)
    (hPQ : ∀ t, P t → Q t) : Leaves Q o := fun t ht => hPQ t (h t ht)

/-! ## What the frames say of the fault state and of the table -/

section Frames
variable {s t : State}

theorem State.BufferFrame.fault_table (h : s.BufferFrame t) : s.SameFault t ∧ s.SameTable t := by
  obtain ⟨hfault, htable, _⟩ := h
  exact ⟨hfault, htable⟩

theorem State.UnpackerFrame.fault_table (h : s.UnpackerFrame t) : s.SameFault t ∧ s.SameTable t := by
  obtain ⟨hfault, _, htable, _⟩ := h
  exact ⟨hfault, htable⟩

theorem State.ControlFrame.fault_table (h : s.ControlFrame t) : s.SameFault t ∧ s.SameTable t := by
  obtain ⟨hfault, htable, _⟩ := h
  exact ⟨hfault, htable⟩

end Frames

/-- The commands that write the table: DPUSH and TEND, which append to it, PACK and CLR, which empty it. -/
def writesTable : Instr → Bool
  | .dpush _ _ | .tend | .pack | .clr => true
  | _ => false

/-- Every other command keeps both the fault state and the table. -/
theorem exec_keeps_fault_and_table (s : State) {i : Instr} (hi : writesTable i = false) :
    Leaves (fun t => s.SameFault t ∧ s.SameTable t) (exec i s) := by
  cases i with
  | nop => exact (execNop_frame s).mono fun _ ⟨hframe, _⟩ => hframe.fault_table
  | rdreg r => exact (execRdreg_frame s r).mono fun _ ⟨hframe, _⟩ => hframe.fault_table
  | tbegin => exact (execTbegin_keeps_table_and_errors s).mono fun _ ⟨htable, hfault, _⟩ => ⟨hfault, htable⟩
  | tchar c => exact (execTchar_keeps_table_and_fault s c).mono fun _ ⟨htable, hfault, _⟩ => ⟨hfault, htable⟩
  | drd idx => exact (execDrd_keeps_table_text_and_fault s idx).mono fun _ ⟨htable, _, hfault⟩ => ⟨hfault, htable⟩
  | bufrd idx => exact (execBufrd_frame s idx).mono fun _ ⟨hframe, _⟩ => hframe.fault_table
  | bufwr idx u => exact (execBufwr_frame s idx u).mono fun _ ⟨hframe, _⟩ => hframe.fault_table
  | setlen n => exact (execSetlen_frame s n).mono fun _ ⟨hframe, _⟩ => hframe.fault_table
  | uopen => exact (execUopen_frame s).mono fun _ hframe => hframe.fault_table
  | unext => exact (execUnext_frame s).mono fun _ ⟨hframe, _⟩ => hframe.fault_table
  | clr | dpush _ _ | tend | pack => cases hi

theorem performIllegal_keeps_fault_and_table (s : State) :
    Leaves (fun t => s.SameFault t ∧ s.SameTable t) (performIllegal s) :=
  .unlessFaulted ⟨.refl s, .refl s⟩ (.next ⟨.refl s, .refl s⟩)

theorem resumeUnext_keeps_table (s : State) : s.SameTable (resumeUnext s) := by
  obtain ⟨_, h⟩ | ⟨a, rest, _, _, h⟩ | ⟨a, rest, _, _, h⟩ := resumeUnext_cases s <;> rw [h]
  · exact .refl s
  · exact .refl s
  · exact (unextLoop_frame (s.answered rest) rest).1.fault_table.2

/-! ## Only width violations fault -/

/-- The violation of FAULT_WIDTH that a command commits, with the width it reports (R131, R134). -/
def State.WidthViolation (s : State) (i : Instr) (info : Val) : Prop :=
  (∃ a v, i = .dpush a v ∧ 32 < a.toNat ∧ info = a.setWidth 32)
  ∨ (i = .tend ∧ s.tAct = true ∧ s.tBad = false ∧ s.tOver = true ∧ info = 33)

/-- A command that sets FAULT is a width violation, and its next state is that of fault entry. -/
theorem exec_faults_only_on_width {s t : State} (hinv : s.Inv) (hf : s.fault = false) {i : Instr}
    (h : exec i s = .next t) (hft : t.fault = true) :
    ∃ info, s.WidthViolation i info
      ∧ t = State.reply { s with fault := true, faultCode := 0x20, lastErr := 0x20 }
          (rspWord .faultWidth 0x20 info) := by
  have hset : ¬ s.SameFault t := fun ⟨hsame, _⟩ => by simp [hsame, hf] at hft
  cases i with
  | dpush a v =>
    obtain ⟨_, hfits⟩ := execDpush_keeps_text_and_fault s a v t h
    have ha : 32 < a.toNat := Nat.not_le.mp (mt hfits hset)
    cases (exec_dpush_of_too_wide hf ha v).symm.trans h
    exact ⟨_, .inl ⟨a, v, rfl, ha, rfl⟩, rfl⟩
  | tend =>
    have hno : ¬ (s.tOver = false ∨ s.tBad = true ∨ s.tAct = false) := fun hq => hset (execTend_keeps_fault s hq t h)
    have ⟨hover, hbad, hopen⟩ : s.tOver = true ∧ s.tBad = false ∧ s.tAct = true := by simpa using hno
    cases (exec_tend_of_over hf hopen hbad hover).symm.trans h
    exact ⟨_, .inr ⟨rfl, hopen, hbad, hover, rfl⟩, rfl⟩
  | pack => exact absurd (framePack s t hinv h).1 hset
  | clr => exact absurd (execClr_keeps_fault_and_outside s t h).1 hset
  | _ => exact absurd (exec_keeps_fault_and_table s rfl t h).1 hset

/-- Settles O14: by the cases of a step, of which only a command can set FAULT (`exec_faults_only_on_width`). -/
theorem onlyWidthViolationsFault : Obligations.OnlyWidthViolationsFault := by
  intro s t hinv hf hstep hft
  have hset : ¬ t.fault = s.fault := by simp [hf, hft]
  obtain ⟨_, _, rfl⟩ | ⟨rest, _, rfl⟩ | ⟨w, rest, i, _, hi, hd, hexec⟩ | ⟨_, rest, _, _, _, _, hillegal⟩
    | ⟨_, _, _, rfl⟩ := step_next hstep
  · exact absurd rfl hset
  · exact absurd hf.symm hset
  · obtain ⟨info, hviolation, ht⟩ := exec_faults_only_on_width (s := s.withInput rest) hinv hf hexec hft
    refine ⟨w, rest, info, hi, hviolation.imp ?_ ?_, ht⟩
    · rintro ⟨a, v, rfl, ha, hinfo⟩
      exact ⟨a, v, hd, ha, hinfo⟩
    · rintro ⟨rfl, htext⟩
      exact ⟨hd, htext⟩
  · obtain ⟨⟨hsame, _⟩, _⟩ := performIllegal_keeps_fault_and_table (s.withInput rest) t hillegal
    exact absurd hsame hset
  · exact absurd (resumeUnext_keeps_fault s).1 hset

/-! ## Appended entries stay -/

/-- From `s` to `t` every valid entry stays, and there are no fewer. -/
def State.GrowsTable (s t : State) : Prop :=
  s.dCount.toNat ≤ t.dCount.toNat ∧ ∀ k, k < s.dCount.toNat → t.desc.read k = s.desc.read k

theorem State.SameTable.grows {s t : State} (h : s.SameTable t) : s.GrowsTable t := by
  obtain ⟨hcount, hread⟩ := h
  exact ⟨by rw [hcount], fun k _ => hread k⟩

/-- The table is empty (10_state.md R37). -/
def State.EmptyTable (t : State) : Prop := t.dCount = 0 ∧ ∀ k, t.desc.read k = ⟨0, 0⟩

section Table
variable {s : State} (h : s.Inv)
include h

/-- An append leaves the entries below DCOUNT, which does not wrap. -/
theorem State.Inv.appendDesc_grows (hroom : ¬ s.tableFull = true) (d : Desc) : s.GrowsTable (s.appendDesc d) := by
  obtain ⟨_, ⟨_, _, hle⟩, _⟩ := h
  have hne := mt State.tableFull_iff.mpr hroom
  have hmax := s.cfg.descMax_ok.2
  refine ⟨?_, fun k hk => DescTable.read_write_other hk.ne d⟩
  rw [State.appendDesc_dCount, BitVec.toNat_add]
  simp only [BitVec.ofNat_eq_ofNat, BitVec.toNat_ofNat]
  omega

theorem execDpush_growsTable (w : BitVec 8) (v : Val) : Leaves s.GrowsTable (execDpush w v s) :=
  have hsame := (State.SameTable.refl s).grows
  .unlessFaulted hsame <|
    .ite (.next hsame) <| .ite_of (fun _ => .next hsame) fun hroom => .next (h.appendDesc_grows hroom _)

theorem execTend_growsTable : Leaves s.GrowsTable (execTend s) :=
  have hsame := (State.SameTable.refl s).grows
  .unlessFaulted hsame <|
    .ite (.next hsame) <|
    .ite (.next hsame) <|
    .ite (.next hsame) <|
    .ite_of (fun _ => .next hsame) fun hroom => .next (h.appendDesc_grows hroom _)

/-- What a command does to the table: PACK and CLR empty it, unless they are refused; no other one loses an entry. -/
theorem exec_changes_table (i : Instr) :
    Leaves (fun t => s.GrowsTable t ∨ (t.EmptyTable ∧ (i = .pack ∨ i = .clr))) (exec i s) := by
  have hsame := (State.SameTable.refl s).grows
  cases i with
  | dpush w v => exact fun t ht => .inl (execDpush_growsTable h w v t ht)
  | tend => exact fun t ht => .inl (execTend_growsTable h t ht)
  | clr => exact .unlessFaulted (.inl hsame) (.next (.inr ⟨⟨rfl, fun _ => rfl⟩, .inr rfl⟩))
  | pack =>
    refine .unlessFaulted_of (fun _ => .inl hsame) fun hf => ?_
    obtain ⟨m, _, hexec⟩ := h.exec_pack hf
    rw [(unlessFaulted_of_not_faulted hf _).symm.trans hexec]
    exact .next (.inr ⟨⟨rfl, fun _ => rfl⟩, .inl rfl⟩)
  | _ => exact (exec_keeps_fault_and_table s rfl).mono fun _ ⟨_, htable⟩ => .inl htable.grows

end Table

/-- Settles O24: by the cases of a step; RST empties the table, a command does as `exec_changes_table` says. -/
theorem tableEntriesAreImmutable : Obligations.TableEntriesAreImmutable := by
  intro s t hinv hstep
  obtain ⟨_, _, rfl⟩ | ⟨rest, hi, rfl⟩ | ⟨w, rest, i, _, hi, hd, hexec⟩ | ⟨_, rest, _, _, _, _, hillegal⟩
    | ⟨_, _, _, rfl⟩ := step_next hstep
  · exact .inl (State.SameTable.refl _).grows
  · exact .inr ⟨rfl, fun _ => rfl, .inl ⟨rest, hi⟩⟩
  · refine (exec_changes_table (hinv.withInput rest) i t hexec).imp_right fun ⟨⟨hcount, hread⟩, hcommand⟩ =>
      ⟨hcount, hread, .inr ⟨w, rest, hi, hcommand.imp ?_ ?_⟩⟩
    · rintro rfl
      exact hd
    · rintro rfl
      exact hd
  · obtain ⟨_, htable⟩ := performIllegal_keeps_fault_and_table (s.withInput rest) t hillegal
    exact .inl htable.grows
  · exact .inl (resumeUnext_keeps_table s).grows

end Sys2Proof.Machine
end

section
/-! Proofs that DBITS appends the source's `from_bit_sequence` of its bits (40_descriptor.md R130), and that the
packer's write loop needs no more steps than the units its field touches (41_packer.md R166). -/

namespace Sys2Proof.Machine

/-! ## DBITS -/

/-- A width of at most 32 bits fits fields A and W. -/
theorem setWidth_ofNat_width {n : Nat} : (BitVec.ofNat 8 n).setWidth 6 = BitVec.ofNat 6 n := by
  apply BitVec.eq_of_toNat_eq
  simp only [BitVec.toNat_setWidth, BitVec.toNat_ofNat]
  omega

theorem fromBitSequence_of_le {bits : List Bool} (h : bits.length ≤ 32) :
    fromBitSequence bits = some ⟨BitVec.ofNat 6 bits.length, BitVec.ofNat 32 (bitsVal bits)⟩ :=
  if_neg (Nat.not_lt.mpr h)

/-- Settles O34: DPUSH's answers at the width of the bit string (R131). -/
theorem bitSequencePushesItsDescriptor : Obligations.BitSequencePushesItsDescriptor := by
  refine fun s bits hf => ⟨fun hlen hroom => ?appends, fun hlong hfield => ⟨if_pos hlong, fun v => ?faults⟩⟩
  case appends =>
    have hval : bitsVal bits < 2 ^ 32 := (bitsVal_lt bits).trans_le (Nat.pow_le_pow_right (by decide) hlen)
    have hwidth : (BitVec.ofNat 8 bits.length).toNat ≤ 32 := (Nat.mod_le _ _).trans hlen
    refine ⟨_, _, fromBitSequence_of_le hlen, Nat.mod_eq_of_lt (by omega), Nat.mod_eq_of_lt hval, rfl, ?_⟩
    rw [exec_dpush_of_width_ok hf hwidth, if_neg (mt State.tableFull_iff.mp hroom), setWidth_ofNat_width]
    rfl
  case faults =>
    have hwidth : (BitVec.ofNat 8 bits.length).toNat = bits.length := Nat.mod_eq_of_lt (by omega)
    have hinfo : (BitVec.ofNat 8 bits.length).setWidth 32 = BitVec.ofNat 32 bits.length := by
      rw [← BitVec.ofNat_toNat, hwidth]
    rw [exec_dpush_of_too_wide hf (hlong.trans_eq hwidth.symm), hinfo]

/-! ## The write loop -/

theorem writeField_of_no_bits (bLen : Nat) (v : Val) (fuel : Nat) (c : Cursor) (m : Memory) :
    writeField bLen v fuel 0 c m = .ok (c, m) := by
  cases fuel with
  | zero => rfl
  | succ fuel => simp only [writeField, if_true]

/-- Each step of the write loop ends its field or its unit, so fuel for the units that the field touches is enough. -/
theorem writeField_eq_of_enough_fuel (bLen : Nat) (v : Val) {fuel fuel' n : Nat} {c : Cursor} (m : Memory)
    (hoff : c.off < 8) (h : n = 0 ∨ c.off + n ≤ 8 * fuel) (h' : n = 0 ∨ c.off + n ≤ 8 * fuel') :
    writeField bLen v fuel n c m = writeField bLen v fuel' n c m := by
  by_cases hn : n = 0
  · rw [hn, writeField_of_no_bits, writeField_of_no_bits]
  induction fuel generalizing fuel' n c m with
  | zero => omega
  | succ fuel ih =>
    obtain ⟨fuel', rfl⟩ : ∃ k, fuel' = k + 1 := ⟨fuel' - 1, by omega⟩
    by_cases hfit : n ≤ 8 - c.off
    · simp only [writeField, hfit, if_true]
    · have hrest := ih (fuel' := fuel') (n := n - (8 - c.off)) (c := ⟨c.unit + 1, 0⟩)
        (m.orAt c.unit (spanChunk v n (8 - c.off))) (Nat.zero_lt_succ 7)
        (by dsimp only; omega) (by dsimp only; omega) (by omega)
      simp only [writeField, hfit, if_false, hrest]

/-- Settles O39: both fuels are enough (`writeField_eq_of_enough_fuel`). -/
theorem writeLoopStepBound : Obligations.WriteLoopStepBound := fun bLen n v c m hoff =>
  ⟨writeField_eq_of_enough_fuel bLen v m hoff (by omega) (by omega), by omega⟩

end Sys2Proof.Machine
end
